-- ==== Sys2Proof/Word.lean ====
section
/-!
DEFINITION. The widths of the spec: byte, word and long values, addresses, the packed command word and the packed bus
transaction. Rules: R6 (DATA_W, BUS_W, LANE_W, CELL_W, ADDR_W), R7, R8, R100, R108.
-/

namespace Sys2Proof

/-- One lane of the bus, 8 bits (R6 LANE_W). -/
abbrev Byte := BitVec 8

/-- One bus transaction's data and one boot-image cell, 16 bits (R6 BUS_W, CELL_W). The spec calls 16 bits a word. -/
abbrev Word := BitVec 16

/-- The widest access, 32 bits (R6 DATA_W). The spec calls 32 bits a long; PC and SP have this width (R24, R25). -/
abbrev Long := BitVec 32

/-- A byte address of the shared bus, 32 bits (R6 ADDR_W, R62). -/
abbrev Addr := BitVec 32

/-- A packed command word (R100). -/
abbrev CmdWord := BitVec 68

/-- A packed bus transaction record (R108). -/
abbrev TxnWord := BitVec 51

/-- The coprocessor's "implementation-defined registers" (R26), as many numbers as the implementation has registers, each
of whatever width it has there. Nothing in the block looks inside. -/
abbrev Regs := List Nat

end Sys2Proof
end

