-- ==== Sys2Proof/Syntax.lean ====
section
/-!
DEFINITION. The syntax of the block: its thirteen operations, the command as it stands on the CMD channel, the bus
transaction record, the agents, and the interaction an ExecutionUnit answers with. Rules: R11, R63, R68, R102, R103, R107,
R108, R165, R211.
-/

namespace Sys2Proof

/-- The three access widths of the adapter (R68). There is no other. -/
inductive Width where
  | byte | word | long
  deriving DecidableEq, Repr

/-- Bits moved by an access of this width (R68). -/
def Width.bits : Width → Nat
  | .byte => 8
  | .word => 16
  | .long => 32

/-- The operation codes of R102 by name; the three reserved codes have none. -/
inductive Op where
  | rdb | rdw | rdl | wrb | wrw | wrl | load | unload | power | tick | step | excq | cstep
  deriving DecidableEq, Repr

/-- The block's operations, one constructor per row of the opcode table, each with the operands R103 gives it. Every value
of every operand is legal (R106), so an `Instr` has no ill-formed value: the types say all there is to check. -/
inductive Instr where
  /-- RDB, byte read at `a` (R131). -/
  | rdb (a : Addr)
  /-- RDW, word read at `a` (R132). -/
  | rdw (a : Addr)
  /-- RDL, long read at `a` (R133). -/
  | rdl (a : Addr)
  /-- WRB, byte write of `v` at `a` (R134). -/
  | wrb (a : Addr) (v : Byte)
  /-- WRW, word write of `v` at `a` (R135). -/
  | wrw (a : Addr) (v : Word)
  /-- WRL, long write of `v` at `a` (R136). -/
  | wrl (a : Addr) (v : Long)
  /-- LOAD with its side-band byte stream, absent or finite (R107, R191). -/
  | load (src : Option (List Byte))
  /-- UNLOAD (R193). -/
  | unload
  /-- POWER with its `reset` flag (R194, R196). -/
  | power (r : Bool)
  /-- TICK, the per-tick body `main()` (R164). -/
  | tick
  /-- STEP by `n` coprocessor cycles (R163). -/
  | step (n : Long)
  /-- EXCQ, the pending-exception query (R166). -/
  | excq
  /-- CSTEP by `n` companion cycles (R167). -/
  | cstep (n : Long)
  deriving DecidableEq, Repr

/-- A command as it stands on the CMD channel: the 68-bit word and, beside it, the byte stream of LOAD (R100, R107, R220). -/
structure Cmd where
  word : CmdWord
  src : Option (List Byte)
  deriving DecidableEq, Repr

/-- A bus transaction record `(rw, u, l, a, d)` (R63, R108). `write` is `rw`. -/
structure BusTxn where
  write : Bool
  upper : Bool
  lower : Bool
  addr : Addr
  data : Word
  deriving DecidableEq, Repr

/-- A bus write that has been issued: the entry `(u, l, a, d)` of the posted-event FIFO (R33, R211). -/
structure Posted where
  upper : Bool
  lower : Bool
  addr : Addr
  data : Word
  deriving DecidableEq, Repr

/-- The two execution contexts (R249): C, the coprocessor, and M, the companion. -/
inductive Context where
  | c | m
  deriving DecidableEq, Repr

/-- The agents that issue operations (R11). Q, the FIFO, issues none: its DRAIN is a turn of its own. -/
inductive Agent where
  | c | m | host
  deriving DecidableEq, Repr

/-- A transaction the shared bus has performed, with the context it came from. -/
structure BusEvent where
  issuer : Context
  txn : BusTxn
  deriving DecidableEq, Repr

/-- What one coprocessor instruction does, as an interaction with the adapter (R165). Being inductive, every interaction is
finite. A written value is given as a long, of which a narrower access takes the low bits (R103). -/
inductive Prog where
  /-- The instruction ends with these values of PC, SP and the other registers. -/
  | done (pc sp : Long) (regs : Regs)
  /-- Read at `a` and go on with the exactly `w.bits` bits read. -/
  | read (w : Width) (a : Addr) (k : BitVec w.bits → Prog)
  /-- Write at `a` and go on. -/
  | write (w : Width) (a : Addr) (v : Long) (k : Prog)
  /-- Ask whether an exception is pending and go on with the answer. -/
  | excq (k : Bool → Prog)
  deriving Inhabited

end Sys2Proof
end

