-- ==== Sys2Proof/Config.lean ====
section
/-!
DEFINITION. The parameters of R6. Those that are plain data are the fields of `Config`, which `State` carries as a field that
no step changes, so that a statement about every state is a statement about every choice of parameters. Those that are
functions (the ExecutionUnit EXEC and what a device behind the bus answers) are opaque constants: nothing can evaluate them,
and what is proved holds whatever they are.
-/

namespace Sys2Proof

/-- SCHED_POLICY of R172, with FIRST_ACTIVE where it exists. -/
inductive Policy where
  /-- The default, which the spec calls `open`: any enabled step may be next. -/
  | anyEnabled
  /-- `coroutine`: one context runs until it waits; `first` is FIRST_ACTIVE. -/
  | coroutine (first : Context)
  deriving DecidableEq, Repr

/-- A window `base ≤ a < base + size` of bus addresses. -/
structure Region where
  base : Nat
  size : Nat
  deriving DecidableEq, Repr

/-- The parameters of R6 that are plain data. -/
structure Config where
  /-- F_C, the coprocessor's native frequency in Hz; OPEN, positive. -/
  freqC : Nat
  /-- F_M, the companion's frequency in Hz; OPEN, positive. -/
  freqM : Nat
  /-- QUOTA in time-base ticks; `none` is the default of R6 and R162, one coprocessor cycle. -/
  quota : Option Nat
  /-- EVQ_DEPTH, the depth of the posted-event FIFO. -/
  evqDepth : Nat
  /-- SYNC_FIFO_DEPTH, the depth of each clock-view channel of R219. -/
  syncDepth : Nat
  /-- BOOT_CELLS, at least 4. -/
  bootCells : Nat
  /-- SCHED_POLICY and FIRST_ACTIVE. -/
  policy : Policy
  /-- REGS_RESET, the value POWER gives the implementation-defined registers; OPEN. -/
  regsReset : Regs
  /-- BUS: the windows of the shared bus that are not plain storage used by C and M alone. Outside them the bus is storage
  that obeys the selects (R65); inside them a read answers a free value. With no window and `wholeCells` the bus is BUSRAM (R72);
  with one window over all of it, any bus. -/
  devices : List Region
  /-- BUS: whether plain storage answers a read with all 16 bits of the cell whatever the selects, as BUSRAM does (R72). If not,
  a lane whose select is 0 carries a free value (R64). -/
  wholeCells : Bool
  deriving DecidableEq, Repr

/-- FREE VALUE. F_C less one: R6 leaves F_C open and says only that it is positive. -/
opaque Config.freqCLessOne : Nat

/-- FREE VALUE. F_M less one (R6). -/
opaque Config.freqMLessOne : Nat

/-- FREE VALUE. REGS_RESET (R6, R26). -/
opaque Config.regsResetValue : Regs

/-- FREE VALUE. Which windows of the shared bus are devices (R6 BUS). -/
opaque Config.deviceWindows : List Region

/-- FREE VALUE. Whether plain storage answers whole cells (R64, R72). -/
opaque Config.wholeCellsValue : Bool

/-- FREE VALUE. EXEC of R6 and R165: what the one instruction does that the ExecutionUnit executes at this PC, SP and REGS.
DESIGN CHOICE, safe (log entry 7). -/
opaque Config.execUnit : Long → Long → Regs → Prog

/-- FREE VALUE. What the bus answers to a read of a device window, given every transaction performed on the bus so far, oldest
first (R64, R241). A device's state is a function of that history, and time only adds to it, so every device is some value of
this constant. -/
opaque Config.deviceAnswer : List BusEvent → BusTxn → Word

/-- FREE VALUE. What plain storage puts on the lanes that a read does not select, given every transaction performed on the bus so
far, oldest first (R64, U7: "any value"). -/
opaque Config.unselectedLanes : List BusEvent → BusTxn → Word

/-- The parameters of the machine whose reset state is `State.reset`: every default that R6 gives, and a free value for every
parameter that R6 leaves OPEN. DESIGN CHOICE, safe (log entry 6). -/
def Config.machine : Config where
  freqC := Config.freqCLessOne + 1
  freqM := Config.freqMLessOne + 1
  quota := none
  evqDepth := 0
  syncDepth := 0
  bootCells := 1024
  policy := .anyEnabled
  regsReset := Config.regsResetValue
  devices := Config.deviceWindows
  wholeCells := Config.wholeCellsValue

end Sys2Proof
end

