-- ==== Sys2Proof/WellFormed.lean ====
section
/-!
DEFINITION. Well-formedness of what has an ill-formed value: the parameters (R6), bus transactions and posted writes (R62, R63,
R109). An operation has no ill-formed value (R106). The canonical form of a command word is `Cmd.canonical` in Decode.lean.
-/

namespace Sys2Proof

/-- R6: F_C and F_M are positive integers and BOOT_CELLS is at least 4. -/
def Config.wf (c : Config) : Bool :=
  decide (0 < c.freqC) && decide (0 < c.freqM) && decide (4 ≤ c.bootCells)

/-- R62, R63: the address of a transaction is even, and (R108) a read carries no data. -/
def BusTxn.wf (t : BusTxn) : Bool :=
  !t.addr.getLsbD 0 && (t.write || t.data == 0)

/-- R109: the adapter emits the select pairs (1,0), (0,1) and (1,1), never (0,0). -/
def BusTxn.lanesSelected (t : BusTxn) : Bool :=
  t.upper || t.lower

/-- R33, R109: a posted write has an even address and selects a lane. -/
def Posted.wf (w : Posted) : Bool :=
  !w.addr.getLsbD 0 && (w.upper || w.lower)

end Sys2Proof
end

