-- ==== Sys2Proof/Decode.lean ====
section
/-!
DEFINITION. The decoder, total on every command and rejecting the reserved codes by name, and after it the encoder; then the
packed form of a bus transaction record. Rules: R100 to R108, R110, R111.
-/

namespace Sys2Proof

/-- Bits 67:64 of a command word (R101). -/
def opField (w : CmdWord) : BitVec 4 := w.extractLsb' 64 4

/-- Bits 63:32 of a command word (R101). -/
def aField (w : CmdWord) : Addr := w.extractLsb' 32 32

/-- Bits 31:0 of a command word (R101). -/
def dField (w : CmdWord) : Long := w.extractLsb' 0 32

/-- The opcode map of R102, from code to operation; `none` for the reserved codes 0x3, 0x7 and 0xF (R106). -/
def Op.ofCode (code : BitVec 4) : Option Op :=
  match code.toNat with
  | 0x0 => some .rdb
  | 0x1 => some .rdw
  | 0x2 => some .rdl
  | 0x4 => some .wrb
  | 0x5 => some .wrw
  | 0x6 => some .wrl
  | 0x8 => some .load
  | 0x9 => some .unload
  | 0xA => some .power
  | 0xB => some .tick
  | 0xC => some .step
  | 0xD => some .excq
  | 0xE => some .cstep
  | _ => none

/-- The agent column of R102. -/
def Op.owner : Op → Agent
  | .rdb | .rdw | .rdl | .wrb | .wrw | .wrl | .tick | .step | .excq => .c
  | .cstep => .m
  | .load | .unload | .power => .host

/-- Operand assembly (R103): no extension, no scaling; the bits an operation does not list are ignored. A side-band beside a word
that is not LOAD's is ignored too: R107 gives only LOAD one and says nothing of others. DESIGN CHOICE, unsafe (log entry 22). -/
def Op.assemble (op : Op) (a : Addr) (d : Long) (src : Option (List Byte)) : Instr :=
  match op with
  | .rdb => .rdb a
  | .rdw => .rdw a
  | .rdl => .rdl a
  | .wrb => .wrb a (d.extractLsb' 0 8)
  | .wrw => .wrw a (d.extractLsb' 0 16)
  | .wrl => .wrl a d
  | .load => .load src
  | .unload => .unload
  | .power => .power (d.getLsbD 0)
  | .tick => .tick
  | .step => .step d
  | .excq => .excq
  | .cstep => .cstep d

/-- Why a command does not decode. -/
inductive DecodeError where
  /-- The operation code is reserved (R106). -/
  | reservedOp (code : BitVec 4)
  deriving DecidableEq, Repr

/-- The decoder of R105: look up bits 67:64 and assemble the operands. It does not depend on the state of the block. -/
def decode (c : Cmd) : Except DecodeError Instr :=
  match Op.ofCode (opField c.word) with
  | some op => .ok (op.assemble (aField c.word) (dField c.word) c.src)
  | none => .error (.reservedOp (opField c.word))

/-- The decoder on a word numbered as the opcode table numbers it: one 68-bit word, no side-band. Bits above `nbits` are 0. -/
def decodeTableWord (nbits w : Nat) : Option Instr :=
  match decode ⟨BitVec.ofNat 68 (w % 2 ^ nbits), none⟩ with
  | .ok i => some i
  | .error _ => none

/-! ## The encoder -/

/-- The opcode map of R102, from operation to code. -/
def Op.code : Op → BitVec 4
  | .rdb => 0x0#4
  | .rdw => 0x1#4
  | .rdl => 0x2#4
  | .wrb => 0x4#4
  | .wrw => 0x5#4
  | .wrl => 0x6#4
  | .load => 0x8#4
  | .unload => 0x9#4
  | .power => 0xA#4
  | .tick => 0xB#4
  | .step => 0xC#4
  | .excq => 0xD#4
  | .cstep => 0xE#4

/-- The operation of an instruction. -/
def Instr.op : Instr → Op
  | .rdb _ => .rdb
  | .rdw _ => .rdw
  | .rdl _ => .rdl
  | .wrb _ _ => .wrb
  | .wrw _ _ => .wrw
  | .wrl _ _ => .wrl
  | .load _ => .load
  | .unload => .unload
  | .power _ => .power
  | .tick => .tick
  | .step _ => .step
  | .excq => .excq
  | .cstep _ => .cstep

/-- The mnemonic of R102. -/
def Op.mnemonic : Op → String
  | .rdb => "RDB"
  | .rdw => "RDW"
  | .rdl => "RDL"
  | .wrb => "WRB"
  | .wrw => "WRW"
  | .wrl => "WRL"
  | .load => "LOAD"
  | .unload => "UNLOAD"
  | .power => "POWER"
  | .tick => "TICK"
  | .step => "STEP"
  | .excq => "EXCQ"
  | .cstep => "CSTEP"

/-- Field `a` of an instruction's canonical word: 0 where the operation takes no address (R103). -/
def Instr.aOperand : Instr → Addr
  | .rdb a | .rdw a | .rdl a | .wrb a _ | .wrw a _ | .wrl a _ => a
  | .load _ | .unload | .power _ | .tick | .step _ | .excq | .cstep _ => 0

/-- Field `d` of an instruction's canonical word: every bit the operation ignores is 0 (R103). -/
def Instr.dOperand : Instr → Long
  | .wrb _ v => v.setWidth 32
  | .wrw _ v => v.setWidth 32
  | .wrl _ v => v
  | .power r => if r then 1 else 0
  | .step n | .cstep n => n
  | .rdb _ | .rdw _ | .rdl _ | .load _ | .unload | .tick | .excq => 0

/-- The side-band that stands beside an instruction's word (R107). -/
def Instr.sideBand : Instr → Option (List Byte)
  | .load src => src
  | _ => none

/-- Format CMD (R101): `op` in 67:64, `a` in 63:32, `d` in 31:0. -/
def packCmd (code : BitVec 4) (a : Addr) (d : Long) : CmdWord := code ++ a ++ d

/-- The canonical command of an instruction (R103). -/
def encode (i : Instr) : Cmd :=
  ⟨packCmd i.op.code i.aOperand i.dOperand, i.sideBand⟩

/-- The bits of `d` that an operation uses (R103). -/
def Op.usedDataBits : Op → Long
  | .wrb => 0x000000FF#32
  | .wrw => 0x0000FFFF#32
  | .wrl | .step | .cstep => 0xFFFFFFFF#32
  | .power => 0x00000001#32
  | .rdb | .rdw | .rdl | .load | .unload | .tick | .excq => 0x00000000#32

/-- Whether an operation uses `a` (R103). -/
def Op.usesAddress : Op → Bool
  | .rdb | .rdw | .rdl | .wrb | .wrw | .wrl => true
  | .load | .unload | .power | .tick | .step | .excq | .cstep => false

/-- The canonical form of a command (R103, R107): a defined code, every ignored bit 0, no side-band but for LOAD. -/
def Cmd.canonical (c : Cmd) : Bool :=
  match Op.ofCode (opField c.word) with
  | none => false
  | some op =>
    (op.usesAddress || aField c.word == 0) && (dField c.word &&& ~~~op.usedDataBits) == 0
      && (op == .load || c.src.isNone)

/-! ## The bus transaction record -/

/-- R108: bit 50 `rw`, bit 49 `u`, bit 48 `l`, bits 47:16 `a`, bits 15:0 `d`. -/
def BusTxn.pack (t : BusTxn) : TxnWord :=
  BitVec.ofBool t.write ++ BitVec.ofBool t.upper ++ BitVec.ofBool t.lower ++ t.addr ++ t.data

/-- The record that a packed word of R108 stands for. -/
def BusTxn.unpack (w : TxnWord) : BusTxn where
  write := w.getLsbD 50
  upper := w.getLsbD 49
  lower := w.getLsbD 48
  addr := w.extractLsb' 16 32
  data := w.extractLsb' 0 16

/-! ## Text syntax -/

/-- So many hexadecimal digits of a number, in capitals as the test vectors have them. -/
def hexDigits (digits n : Nat) : String :=
  String.ofList ((List.range digits).reverse.map fun k => (Nat.digitChar (n / 16 ^ k % 16)).toUpper)

/-- A number in C notation, hexadecimal, of the given number of digits (R111). -/
def hexText (digits n : Nat) : String := "0x" ++ hexDigits digits n

/-- LOAD's operand: `none` or a bracketed list of bytes, written as in program 1 of 95_test_vectors.md (R111).
DESIGN CHOICE, safe (log entry 21). -/
def srcText : Option (List Byte) → String
  | none => "none"
  | some bs => "[" ++ " ".intercalate (bs.map fun b => hexDigits 2 b.toNat) ++ "]"

/-- One operation per line: the mnemonic, then the operands separated by commas (R111). -/
def Instr.text (i : Instr) : String :=
  match i with
  | .rdb a | .rdw a | .rdl a => i.op.mnemonic ++ " " ++ hexText 8 a.toNat
  | .wrb a v => i.op.mnemonic ++ " " ++ hexText 8 a.toNat ++ ", " ++ hexText 2 v.toNat
  | .wrw a v => i.op.mnemonic ++ " " ++ hexText 8 a.toNat ++ ", " ++ hexText 4 v.toNat
  | .wrl a v => i.op.mnemonic ++ " " ++ hexText 8 a.toNat ++ ", " ++ hexText 8 v.toNat
  | .load src => i.op.mnemonic ++ " " ++ srcText src
  | .power r => i.op.mnemonic ++ (if r then " 1" else " 0")
  | .step n | .cstep n => i.op.mnemonic ++ " " ++ toString n.toNat
  | .unload | .tick | .excq => i.op.mnemonic

end Sys2Proof
end

