-- ==== Sys2Proof/Machine/State.lean ====
section
/-!
DEFINITION. The state of the machine as plain data: the block's tuple of R20, the environment's BUSSTATE (R36), the clock-view
channels of R219, the logical ports of R220, and the order in which the agents are tried (R172). Why a step stops. The state
after hardware reset (R270, R271).
-/

namespace Sys2Proof.Machine

/-- SCHED (R22). -/
inductive Sched where
  | unstarted | running | halted
  deriving DecidableEq, Repr

/-- CTX, the coprocessor's execution context (R23 to R27). -/
structure Ctx where
  /-- CTX.PC (R24). -/
  pc : Long
  /-- CTX.SP (R25). -/
  sp : Long
  /-- CTX.REGS (R26). -/
  regs : Regs
  /-- CTX.CYC_C, the coprocessor's virtual clock (R27). -/
  cycC : Nat
  deriving DecidableEq, Repr

/-- One side's view of the other side's time, and the channel of advance events on its way to it (R219). An advance event is
the sender's time after the advance; the oldest stands first. -/
structure SyncLink where
  view : Nat
  chan : List Nat
  deriving DecidableEq, Repr

/-- What the last operation answered to its issuer (R104, R220 RSP), or that it had no step (R10). DESIGN CHOICE,
safe (log entry 18). -/
inductive Response where
  /-- It completed and returns nothing. -/
  | none
  /-- It was not enabled: it had no step and its agent waits (R10, R160). -/
  | waits
  /-- RDB's 8 bits. -/
  | byte (v : Byte)
  /-- RDW's 16 bits. -/
  | word (v : Word)
  /-- RDL's 32 bits. -/
  | long (v : Long)
  /-- EXCQ's bit. -/
  | bit (b : Bool)
  /-- What the shared bus answered to a read of the companion's own (R173). -/
  | companion (v : Word)
  deriving DecidableEq, Repr

/-- Something an agent asks for: a command on the CMD channel (R220), a bus transaction of the companion's own (R173), or
external tooling attaching or detaching the hook (R197). DESIGN CHOICE, safe (log entry 1). -/
inductive Input where
  | command (c : Cmd)
  | companionBus (t : BusTxn)
  | hook (attach : Bool)
  deriving DecidableEq, Repr

/-- Whose step is tried next: an agent's oldest input, Q's DRAIN (R215), or the delivery of an advance event (R219).
DESIGN CHOICE, safe (log entry 2). -/
inductive Turn where
  | agent (a : Agent)
  | drain
  | deliverToC
  | deliverToM
  deriving DecidableEq, Repr

/-- The BUSRAM part of the shared bus: the bytes that differ from the byte an unlisted address reads as, by rising address. -/
abbrev Memory := List Host.Cell

/-- The state of the machine. -/
structure State where
  /-- The parameters of R6; no step changes them. -/
  cfg : Config
  /-- BOOT (R21): absent, or the cells of the boot image. -/
  boot : Option (List Word)
  /-- SCHED (R22). -/
  sched : Sched
  /-- CTX (R23): present when SCHED is Running. -/
  ctx : Option Ctx
  /-- CYC_M, the companion's virtual clock (R29). -/
  cycM : Nat
  /-- EVQ, the posted-event FIFO, oldest first (R33). -/
  evq : List Posted
  /-- HOOK_ATTACHED (R34). -/
  hookAttached : Bool
  /-- DBG_NODE (R34). -/
  dbgNode : Bool
  /-- ACTIVE (R35): present under the coroutine policy only. -/
  active : Option Context
  /-- VIEW_M on C's side and the channel that carries the companion's advances (R219). -/
  toC : SyncLink
  /-- VIEW_C on M's side and the channel that carries the coprocessor's advances (R219). -/
  toM : SyncLink
  /-- BUSSTATE, plain storage: the RAM of BUSRAM (R36, R72). -/
  mem : Memory
  /-- BUSSTATE, the rest: every transaction the shared bus has performed, oldest first (R36, R220 BUS). -/
  trace : List BusEvent
  /-- The RSP channel: the answer of the last operation (R104, R220). -/
  rsp : Response
  /-- The HOOKIF channel: the contexts the hook was shown, oldest first (R174, R220). -/
  hookOut : List Ctx
  /-- What the agents have asked for and not yet been given, oldest first (R220 CMD, R173, R197). -/
  inputs : List Input
  /-- The order in which the agents are tried (R172): the schedule still ahead. -/
  turns : List Turn
  deriving DecidableEq, Repr

/-- Why the machine stops with a fault. "There are no fatal error paths within this core": the spec gives the block no fault
outcome (R240, R252), so this type has no constructor and no step can answer with a fault. Safe: there is none to raise. -/
inductive Fault where
  deriving DecidableEq, Repr

/-- The refusals of R10 and R198: the operation has no step and the run ends there with this mark. All are safe: they err
toward unprovable. DEDUCED: the mark of R252 is this outcome (log entry 10). -/
inductive Refusal where
  /-- An instruction without a meaning. Raised by an arm of `exec` that has none; no arm is left so. Safe. -/
  | notModelled (mnemonic : String)
  /-- A reserved operation code (R106, R198 d). Raised by the step that takes such a command. Safe. -/
  | reservedOpcode (code : BitVec 4)
  /-- LOAD while BOOT is present (R198 a). Raised by LOAD. Safe. -/
  | loadWhileLoaded
  /-- POWER while BOOT is absent (R198 b). Raised by POWER. Safe. -/
  | powerWhileUnloaded
  /-- Boot cells 0 to 3 do not all exist (R61), which no state with BOOT_CELLS ≥ 4 allows. Raised by POWER. Safe.
  DEDUCED (log entry 20). -/
  | bootIndexOutside
  /-- TICK while SCHED is not Running (R198 c). Raised by TICK. Safe. -/
  | tickNotRunning
  /-- STEP while SCHED is not Running (R198 c). Raised by STEP. Safe. -/
  | stepNotRunning
  deriving DecidableEq, Repr

/-- ACTIVE after hardware reset and after POWER (R35): FIRST_ACTIVE, which exists under the coroutine policy only. -/
def firstActive (c : Config) : Option Context :=
  match c.policy with
  | .anyEnabled => none
  | .coroutine first => some first

/-- The machine right after hardware reset (R270, R271), for given parameters and a given schedule of the outside world. -/
def State.resetWith (cfg : Config) : State where
  cfg := cfg
  boot := none
  sched := .unstarted
  ctx := none
  cycM := 0
  evq := []
  hookAttached := false
  dbgNode := false
  active := firstActive cfg
  toC := ⟨0, []⟩
  toM := ⟨0, []⟩
  mem := []
  trace := []
  rsp := .none
  hookOut := []
  inputs := []
  turns := []

/-- The machine right after hardware reset (R270, R271). -/
def State.reset : State := State.resetWith Config.machine

end Sys2Proof.Machine
end

