-- ==== Sys2Proof/Machine/Flags.lean ====
section
/-!
DEFINITION. The block's condition predicates: the two times on the common time base, BLOCKED_C and BLOCKED_M, the waits under
the clock views, the enabling conditions of the agents, and EXC_PENDING. Rules: R30 to R32, R160 to R162, R172, R219.
-/

namespace Sys2Proof.Machine

/-- P_C = F_M / gcd(F_C, F_M), time-base ticks per coprocessor cycle (R6). -/
def periodC (c : Config) : Nat := c.freqM / Nat.gcd c.freqC c.freqM

/-- P_M = F_C / gcd(F_C, F_M), time-base ticks per companion cycle (R6). -/
def periodM (c : Config) : Nat := c.freqC / Nat.gcd c.freqC c.freqM

/-- QUOTA in time-base ticks, by default P_C (R6, R162). -/
def quotaTicks (c : Config) : Nat := c.quota.getD (periodC c)

/-- T_C (R30). It is defined while CTX is present; without one it is 0 here and nothing reads it. DEDUCED, safe (log entry
19). -/
def timeC (s : State) : Nat :=
  match s.ctx with
  | some c => c.cycC * periodC s.cfg
  | none => 0

/-- T_M (R30). -/
def timeM (s : State) : Nat := s.cycM * periodM s.cfg

/-- SCHED = Running. -/
def isRunning (s : State) : Bool := s.sched == .running

/-- BLOCKED_C (R31): the coprocessor is ahead of the companion by more than the quota. -/
def blockedC (s : State) : Bool :=
  isRunning s && decide (timeC s > timeM s + quotaTicks s.cfg)

/-- BLOCKED_M (R31): the companion is ahead of the coprocessor by more than the quota. -/
def blockedM (s : State) : Bool :=
  isRunning s && decide (timeM s > timeC s + quotaTicks s.cfg)

/-- VIEW_M, what C's side knows of T_M (R219): T_M itself when SYNC_FIFO_DEPTH is 0. -/
def viewOfM (s : State) : Nat :=
  if s.cfg.syncDepth = 0 then timeM s else s.toC.view

/-- VIEW_C, what M's side knows of T_C (R219): T_C itself when SYNC_FIFO_DEPTH is 0. -/
def viewOfC (s : State) : Nat :=
  if s.cfg.syncDepth = 0 then timeC s else s.toM.view

/-- C waits (R219): it is ahead of its view of the companion by more than the quota. This is BLOCKED_C when SYNC_FIFO_DEPTH is
0, and includes it whenever the view is not ahead of the truth. -/
def waitsC (s : State) : Bool :=
  isRunning s && decide (timeC s > viewOfM s + quotaTicks s.cfg)

/-- M waits (R219). -/
def waitsM (s : State) : Bool :=
  isRunning s && decide (timeM s > viewOfC s + quotaTicks s.cfg)

/-- The extra condition of the coroutine policy (R172): while Running only the active context takes steps. While not Running there
are no two contexts to interleave: the adapter works in every value of SCHED (R130, R251, D32), and CSTEP and the companion's
transactions are always enabled there (R167, D31). DEDUCED, safe (log entry 12). -/
def mayRun (x : Context) (s : State) : Bool :=
  match s.cfg.policy with
  | .anyEnabled => true
  | .coroutine _ => !isRunning s || s.active == some x

/-- An operation of agent C may step (R160, R172, R219). TICK and STEP need SCHED = Running in addition. -/
def enabledC (s : State) : Bool := !waitsC s && mayRun .c s

/-- An operation of agent M may step (R160, R172, R219). -/
def enabledM (s : State) : Bool := !waitsM s && mayRun .m s

/-- EXC_PENDING (R32): the constant 0. UNVERIFIED of the real device, unsafe (log entry 13, U4). -/
def excPending (_s : State) : Bool := false

end Sys2Proof.Machine
end

