-- ==== Sys2Proof/Machine/Operands.lean ====
section
/-!
DEFINITION. The operand forms of the bus-width adapter: address masking, lane selection, byte duplication, splitting and
big-endian composition. Rules: R62, R67, R109, R137, R139.
-/

namespace Sys2Proof.Machine

/-- `A & ~1`, the address of the cell that holds byte `A` (R62, R67). -/
def cellAddr (a : Addr) : Addr := a &&& ~~~1#32

/-- `A & ~3`, the address of the aligned group of four bytes that holds byte `A` (R67). -/
def groupAddr (a : Addr) : Addr := a &&& ~~~3#32

/-- `(A & ~3) + 2`, the second word address of a long access (R68, R137). -/
def groupAddr2 (a : Addr) : Addr := groupAddr a + 2#32

/-- Whether a byte access at `a` selects the upper lane: at an even address (R139). -/
def upperSelect (a : Addr) : Bool := !a.getLsbD 0

/-- Whether a byte access at `a` selects the lower lane: at an odd address (R139). -/
def lowerSelect (a : Addr) : Bool := a.getLsbD 0

/-- The upper lane, bits 15:8 (R7). -/
def upperLane (d : Word) : Byte := d.extractLsb' 8 8

/-- The lower lane, bits 7:0 (R7). -/
def lowerLane (d : Word) : Byte := d.extractLsb' 0 8

/-- `{a, b}` for two bytes, the first in bits 15:8 (R7, R137). -/
def joinBytes (hi lo : Byte) : Word := hi ++ lo

/-- `{h, l}` for two words, big-endian composition (R73 c, R137). -/
def joinWords (hi lo : Word) : Long := hi ++ lo

/-- `{V, V}`: a byte on both halves of the data bus (R134, R137). -/
def duplicate (v : Byte) : Word := joinBytes v v

/-- `V[31:16]` (R7). -/
def highWord (v : Long) : Word := v.extractLsb' 16 16

/-- `V[15:0]` (R7). -/
def lowWord (v : Long) : Word := v.extractLsb' 0 16

/-- The byte a byte read at `a` takes from the 16 bits the bus answered (R139). -/
def selectLane (a : Addr) (r : Word) : Byte :=
  if a.getLsbD 0 then lowerLane r else upperLane r

/-- The byte a byte write takes from a data operand, `d[7:0]` (R103). -/
def byteOf (d : Long) : Byte := d.extractLsb' 0 8

end Sys2Proof.Machine
end

