-- ==== Sys2Proof/Machine/Ops.lean ====
section
/-!
DEFINITION. The shared operations over memory, the bus, the posted-event FIFO, the clocks and the context. Rules: R9, R61 to
R66, R71, R72, R163, R165, R167, R172, R174, R192, R212 to R216, R219. The block has no trap mechanism (R240, R244, R245): there
is no operation that takes an exception and none that returns from one.
-/

namespace Sys2Proof.Machine

/-! ## Memory -/

/-- What an unlisted address reads as: BUSRAM's cells are 0 at the start (R72). DESIGN CHOICE, unsafe (log
entry 4). -/
def Memory.unlisted : Byte := 0

/-- The byte at an address. -/
def Memory.read : Memory → Nat → Byte
  | [], _ => Memory.unlisted
  | (k, v) :: rest, n => if k = n then v else Memory.read rest n

/-- Memory with one byte changed; the canonical form is kept. -/
def Memory.write : Memory → Nat → Byte → Memory
  | [], n, b => if b = Memory.unlisted then [] else [(n, b)]
  | (k, v) :: rest, n, b =>
    if n < k then (if b = Memory.unlisted then (k, v) :: rest else (n, b) :: (k, v) :: rest)
    else if n = k then (if b = Memory.unlisted then rest else (n, b) :: rest)
    else (k, v) :: Memory.write rest n b

/-- The canonical form from an address on: addresses strictly rising and inside the 2^32 bytes of the bus (R62), no entry equal
to what an unlisted address reads as. -/
def Memory.wfFrom : Nat → Memory → Bool
  | _, [] => true
  | lo, (k, v) :: rest =>
    decide (lo ≤ k) && decide (k < 2 ^ 32) && (v != Memory.unlisted) && Memory.wfFrom (k + 1) rest

/-- The canonical form of memory. -/
def Memory.wf (m : Memory) : Bool := Memory.wfFrom 0 m

/-- The 16-bit cell at an even address: the even byte on the upper lane, the odd byte on the lower (R62). -/
def Memory.cell (m : Memory) (a : Addr) : Word :=
  joinBytes (m.read a.toNat) (m.read (a.toNat + 1))

/-- BUSRAM's `BusWrite`: each selected lane takes its byte, an unselected lane keeps its own (R65, R72). -/
def Memory.store (m : Memory) (t : BusTxn) : Memory :=
  let m1 := if t.upper then m.write t.addr.toNat (upperLane t.data) else m
  if t.lower then m1.write (t.addr.toNat + 1) (lowerLane t.data) else m1

/-! ## The shared bus -/

/-- Whether a cell of the bus lies in a device window (R6 BUS). DESIGN CHOICE, unsafe where a claim takes a cell for plain
storage (log entry 5). -/
def isDevice (c : Config) (a : Addr) : Bool :=
  c.devices.any fun r => decide (r.base ≤ a.toNat) && decide (a.toNat < r.base + r.size)

/-- The read transaction `(0, u, l, a, -)`, its data field 0 (R63, R108). -/
def readTxn (u l : Bool) (a : Addr) : BusTxn := ⟨false, u, l, a, 0⟩

/-- The transaction of a posted write, `rw` = 1 (R211). -/
def postedTxn (w : Posted) : BusTxn := ⟨true, w.upper, w.lower, w.addr, w.data⟩

/-- What plain storage answers to a read of a cell: on a selected lane the cell's byte (R64); on an unselected one the cell's byte
too if it answers whole cells (R72), else a byte of the free value. -/
def storageAnswer (wholeCells : Bool) (cell free : Word) (t : BusTxn) : Word :=
  joinBytes (if t.upper || wholeCells then upperLane cell else upperLane free)
    (if t.lower || wholeCells then lowerLane cell else lowerLane free)

/-- What the bus answers to a read: a device window a free value, plain storage its cell (R64, R72). -/
def busAnswer (s : State) (t : BusTxn) : Word :=
  if isDevice s.cfg t.addr then Config.deviceAnswer s.trace t
  else storageAnswer s.cfg.wholeCells (s.mem.cell t.addr) (Config.unselectedLanes s.trace t) t

/-- The storage after a transaction: a write outside the device windows is stored, nothing else changes it (R65, R72). -/
def storageAfter (c : Config) (m : Memory) (t : BusTxn) : Memory :=
  if t.write && !isDevice c t.addr then m.store t else m

/-- `BusRead(u, l, a)` on behalf of a context (R64, R173): the answer, and the bus having performed the read. -/
def busRead (x : Context) (u l : Bool) (a : Addr) (s : State) : State × Word :=
  ({ s with trace := s.trace ++ [⟨x, readTxn u l a⟩] }, busAnswer s (readTxn u l a))

/-- `BusWrite(u, l, a, d)` on behalf of a context (R65, R173). -/
def busWrite (x : Context) (t : BusTxn) (s : State) : State :=
  { s with mem := storageAfter s.cfg s.mem t, trace := s.trace ++ [⟨x, t⟩] }

/-! ## The posted-event FIFO -/

/-- `Perform(u, l, a, d)` (R212). -/
def performPosted (w : Posted) (s : State) : State := busWrite .c (postedTxn w) s

/-- Take the oldest posted write off the FIFO and perform it: the body of DRAIN (R215) and of `DrainAll`'s loop (R216). With
an empty FIFO there is nothing to do. -/
def drainOne (s : State) : State :=
  match s.evq with
  | [] => s
  | h :: rest => performPosted h { s with evq := rest }

/-- `drainOne`, so many times. -/
def drainTimes : Nat → State → State
  | 0, s => s
  | n + 1, s => drainTimes n (drainOne s)

/-- `DrainAll()` (R216): drain while the FIFO is not empty, which is once for each entry. -/
def drainAll (s : State) : State := drainTimes s.evq.length s

/-- `IssueWrite(u, l, a, d)` (R213). -/
def issueWrite (w : Posted) (s : State) : State :=
  if s.cfg.evqDepth = 0 then performPosted w s
  else
    let s1 := if s.evq.length = s.cfg.evqDepth then drainOne s else s
    { s1 with evq := s1.evq ++ [w] }

/-- `IssueRead(u, l, a)` (R214). -/
def issueRead (u l : Bool) (a : Addr) (s : State) : State × Word :=
  busRead .c u l a (drainAll s)

/-! ## The adapter's accesses, R71's `MemRead` and `MemWrite` -/

/-- The byte access of R131. -/
def readByte (a : Addr) (s : State) : State × Byte :=
  let r := issueRead (upperSelect a) (lowerSelect a) (cellAddr a) s
  (r.1, selectLane a r.2)

/-- The word access of R132. -/
def readWord (a : Addr) (s : State) : State × Word := issueRead true true (cellAddr a) s

/-- The long access of R133: the lower address first. -/
def readLong (a : Addr) (s : State) : State × Long :=
  let h := issueRead true true (groupAddr a) s
  let lo := issueRead true true (groupAddr2 a) h.1
  (lo.1, joinWords h.2 lo.2)

/-- The one transaction of a byte write (R134). -/
def byteWrite (a : Addr) (v : Byte) : Posted := ⟨upperSelect a, lowerSelect a, cellAddr a, duplicate v⟩

/-- The one transaction of a word write (R135). -/
def wordWrite (a : Addr) (v : Word) : Posted := ⟨true, true, cellAddr a, v⟩

/-- The first transaction of a long write (R136). -/
def longWriteHigh (a : Addr) (v : Long) : Posted := ⟨true, true, groupAddr a, highWord v⟩

/-- The second transaction of a long write (R136). -/
def longWriteLow (a : Addr) (v : Long) : Posted := ⟨true, true, groupAddr2 a, lowWord v⟩

/-- The byte access of R134. -/
def writeByte (a : Addr) (v : Byte) (s : State) : State := issueWrite (byteWrite a v) s

/-- The word access of R135. -/
def writeWord (a : Addr) (v : Word) (s : State) : State := issueWrite (wordWrite a v) s

/-- The long access of R136: the high word first. -/
def writeLong (a : Addr) (v : Long) (s : State) : State :=
  issueWrite (longWriteLow a v) (issueWrite (longWriteHigh a v) s)

/-- `MemRead(addr, n)` (R71): exactly the bits of the access, no extension. -/
def memRead (w : Width) (a : Addr) (s : State) : State × BitVec w.bits :=
  match w with
  | .byte => readByte a s
  | .word => readWord a s
  | .long => readLong a s

/-- `MemWrite(addr, n, v)` (R71): the low bits of `v` that the width takes (R103). -/
def memWrite (w : Width) (a : Addr) (v : Long) (s : State) : State :=
  match w with
  | .byte => writeByte a (byteOf v) s
  | .word => writeWord a (lowWord v) s
  | .long => writeLong a v s

/-! ## The ExecutionUnit's interaction -/

/-- PC, SP and REGS as an instruction leaves them. -/
structure Final where
  pc : Long
  sp : Long
  regs : Regs
  deriving DecidableEq, Repr

/-- `Run(p)` (R165): walk an interaction; each access goes through the adapter, each query is answered EXC_PENDING. -/
def runProg : Prog → State → State × Final
  | .done pc sp regs, s => (s, ⟨pc, sp, regs⟩)
  | .read w a k, s => runProg (k (memRead w a s).2) (memRead w a s).1
  | .write w a v k, s => runProg k (memWrite w a v s)
  | .excq k, s => runProg (k (excPending s)) s

/-- `Hook(CTX)` (R174): with a hook attached, tooling is shown the context; nothing else happens. -/
def notifyHook (c : Ctx) (s : State) : State :=
  if s.hookAttached then { s with hookOut := s.hookOut ++ [c] } else s

/-! ## The clocks -/

/-- The receiving end of a channel takes its oldest advance event (R219). A view never decreases. -/
def SyncLink.deliver (k : SyncLink) : SyncLink :=
  match k.chan with
  | [] => k
  | t :: rest => ⟨max k.view t, rest⟩

/-- The sending end puts an advance event into a channel of the given depth (R219). A channel of depth 0 carries nothing, since
the views are then exact. A full channel delivers its oldest event to make room, so that the sender never waits.
DESIGN CHOICE, unsafe (log entry 9). -/
def SyncLink.send (depth t : Nat) (k : SyncLink) : SyncLink :=
  if depth = 0 then k
  else
    let k1 := if k.chan.length = depth then k.deliver else k
    { k1 with chan := k1.chan ++ [t] }

/-- Under the coroutine policy a context that its own synchronisation leaves blocked hands over (R172). -/
def handOver (blocked : Bool) (x : Context) (s : State) : State :=
  match s.cfg.policy with
  | .anyEnabled => s
  | .coroutine _ => if blocked then { s with active := some x } else s

/-- `CTX.CYC_C <- CTX.CYC_C + n` (R163), the advance event to M's side (R219) if there is an advance, and the hand-over (R172). -/
def advanceC (n : Nat) (s : State) : State :=
  match s.ctx with
  | none => s
  | some c =>
    let s1 := { s with ctx := some { c with cycC := c.cycC + n } }
    let s2 := if n = 0 then s1 else { s1 with toM := s1.toM.send s1.cfg.syncDepth (timeC s1) }
    handOver (blockedC s2) .m s2

/-- `CYC_M <- CYC_M + n` (R167), the advance event to C's side (R219) if there is an advance, and the hand-over (R172). -/
def advanceM (n : Nat) (s : State) : State :=
  let s1 := { s with cycM := s.cycM + n }
  let s2 := if n = 0 then s1 else { s1 with toC := s1.toC.send s1.cfg.syncDepth (timeM s1) }
  handOver (blockedM s2) .c s2

/-- The synchronisation of R163: `DrainAll()`, then the advance. The wait is what `waitsC` says afterwards. -/
def synchronise (n : Nat) (s : State) : State := advanceC n (drainAll s)

/-! ## Completion and waiting -/

/-- The operation completes with this answer (R104). -/
def State.answer (r : Response) (s : State) : State := { s with rsp := r }

/-- The operation is not enabled: nothing changes but that its issuer is told to wait (R10). DESIGN CHOICE, safe (log entry
18). -/
def State.waiting (s : State) : State := { s with rsp := .waits }

/-- A line of the text form: the operation and, where it answers a value, that value after `->` (R111).
DESIGN CHOICE, safe (log entry 21). -/
def responseText (i : Instr) (r : Response) : String :=
  match r with
  | .none | .waits => i.text
  | .byte v => i.text ++ " -> " ++ hexText 2 v.toNat
  | .word v | .companion v => i.text ++ " -> " ++ hexText 4 v.toNat
  | .long v => i.text ++ " -> " ++ hexText 8 v.toNat
  | .bit b => i.text ++ (if b then " -> 1" else " -> 0")

/-! ## The boot image -/

/-- `Cells(src)` (R192): so many cells from a byte stream, the earlier byte of each in bits 15:8, zero-padded. -/
def bootCellsFrom : Nat → List Byte → List Word
  | 0, _ => []
  | n + 1, [] => 0 :: bootCellsFrom n []
  | n + 1, [b] => joinBytes b 0 :: bootCellsFrom n []
  | n + 1, b0 :: b1 :: rest => joinBytes b0 b1 :: bootCellsFrom n rest

/-- The first four cells, if they exist: the boot vector's (R61, R195). -/
def bootVector : List Word → Option (Long × Long)
  | c0 :: c1 :: c2 :: c3 :: _ => some (joinWords c0 c1, joinWords c2 c3)
  | _ => none

end Sys2Proof.Machine
end

