-- ==== Sys2Proof/Machine/Adapter.lean ====
section
/-!
DEFINITION. The six operations of the bus-width adapter (40_bus_adapter.md, R130 to R139). Each is enabled when agent C may
step, in every value of SCHED; otherwise it waits. None is refused.
-/

namespace Sys2Proof.Machine

/-- RDB (R131). -/
def execRdb (a : Addr) (s : State) : Host.Outcome State Fault Refusal :=
  .next (if enabledC s then (readByte a s).1.answer (.byte (readByte a s).2) else s.waiting)

/-- RDW (R132). -/
def execRdw (a : Addr) (s : State) : Host.Outcome State Fault Refusal :=
  .next (if enabledC s then (readWord a s).1.answer (.word (readWord a s).2) else s.waiting)

/-- RDL (R133). -/
def execRdl (a : Addr) (s : State) : Host.Outcome State Fault Refusal :=
  .next (if enabledC s then (readLong a s).1.answer (.long (readLong a s).2) else s.waiting)

/-- WRB (R134). -/
def execWrb (a : Addr) (v : Byte) (s : State) : Host.Outcome State Fault Refusal :=
  .next (if enabledC s then (writeByte a v s).answer .none else s.waiting)

/-- WRW (R135). -/
def execWrw (a : Addr) (v : Word) (s : State) : Host.Outcome State Fault Refusal :=
  .next (if enabledC s then (writeWord a v s).answer .none else s.waiting)

/-- WRL (R136). -/
def execWrl (a : Addr) (v : Long) (s : State) : Host.Outcome State Fault Refusal :=
  .next (if enabledC s then (writeLong a v s).answer .none else s.waiting)

end Sys2Proof.Machine
end

