-- ==== Sys2Proof/Machine/Lifecycle.lean ====
section
/-!
DEFINITION. The lifecycle operations of the HOST: LOAD, UNLOAD and POWER (42_lifecycle.md, R190 to R198). They look at no clock.
-/

namespace Sys2Proof.Machine

/-- LOAD (R191): refused while BOOT is present. -/
def execLoad (src : Option (List Byte)) (s : State) : Host.Outcome State Fault Refusal :=
  match s.boot with
  | some _ => .refused .loadWhileLoaded
  | none =>
    .next
      { s with
        boot := some (bootCellsFrom s.cfg.bootCells (src.getD []))
        sched := .unstarted
        dbgNode := true
        rsp := .none }

/-- UNLOAD (R193): in every state. A command of C that was waiting stays among the inputs, here and at POWER, since "nothing is
lost" (R160): DESIGN CHOICE, unsafe (log entry 23). -/
def execUnload (s : State) : Host.Outcome State Fault Refusal :=
  let s1 := drainAll s
  let s2 := { s1 with hookAttached := false, dbgNode := false, boot := none, rsp := .none }
  .next (if isRunning s then { s2 with ctx := none, sched := .halted } else s2)

/-- POWER (R194): refused while BOOT is absent. The flag is handed to the companion's reset sequence, which is outside the block,
and has no effect on the block (R196). What else the companion's reset does is left to agent M: DESIGN CHOICE, unsafe (log entry
14). -/
def execPower (_r : Bool) (s : State) : Host.Outcome State Fault Refusal :=
  match s.boot with
  | none => .refused .powerWhileUnloaded
  | some cells =>
    match bootVector cells with
    | none => .refused .bootIndexOutside
    | some (pc, sp) =>
      .next
        { drainAll s with
          sched := .running
          ctx := some ⟨pc, sp, s.cfg.regsReset, 0⟩
          cycM := 0
          active := firstActive s.cfg
          toC := ⟨0, []⟩
          toM := ⟨0, []⟩
          rsp := .none }

end Sys2Proof.Machine
end

