-- ==== Sys2Proof/Machine/Scheduler.lean ====
section
/-!
DEFINITION. The operations of the cooperative scheduler: TICK, STEP, EXCQ and CSTEP (41_scheduler.md, R160 to R174).
-/

namespace Sys2Proof.Machine

/-- The body of TICK for a given instruction (R164): hook, instruction, then STEP with n = 1. -/
def tickWith (p : Prog) (c : Ctx) (s : State) : State :=
  let r := runProg p (notifyHook c s)
  synchronise 1 { r.1 with ctx := some ⟨r.2.pc, r.2.sp, r.2.regs, c.cycC⟩ }

/-- TICK (R164): refused while SCHED is not Running (DEDUCED, safe, log entry 8), waiting while C may not step. -/
def execTick (s : State) : Host.Outcome State Fault Refusal :=
  match s.sched, s.ctx with
  | .running, some c =>
    .next (if enabledC s then (tickWith (Config.execUnit c.pc c.sp c.regs) c s).answer .none else s.waiting)
  | _, _ => .refused .tickNotRunning

/-- STEP (R163): refused while SCHED is not Running (DEDUCED, safe, log entry 8), waiting while C may not step. -/
def execStep (n : Long) (s : State) : Host.Outcome State Fault Refusal :=
  match s.sched, s.ctx with
  | .running, some _ =>
    .next (if enabledC s then (synchronise n.toNat s).answer .none else s.waiting)
  | _, _ => .refused .stepNotRunning

/-- EXCQ (R166): enabled in every state (DEDUCED, safe, log entry 11), answers EXC_PENDING and changes nothing. -/
def execExcq (s : State) : Host.Outcome State Fault Refusal :=
  .next (s.answer (.bit (excPending s)))

/-- CSTEP (R167): in every value of SCHED, waiting while M may not step. -/
def execCstep (n : Long) (s : State) : Host.Outcome State Fault Refusal :=
  .next (if enabledM s then (advanceM n.toNat s).answer .none else s.waiting)

end Sys2Proof.Machine
end

