-- ==== Sys2Proof/Machine/Dispatch.lean ====
section
/-!
DEFINITION. One arm per operation of the opcode table (R102).
-/

namespace Sys2Proof.Machine

def exec (i : Instr) (s : State) : Host.Outcome State Fault Refusal :=
  match i with
  | .rdb a => Sys2Proof.Machine.execRdb a s
  | .rdw a => Sys2Proof.Machine.execRdw a s
  | .rdl a => Sys2Proof.Machine.execRdl a s
  | .wrb a v => Sys2Proof.Machine.execWrb a v s
  | .wrw a v => Sys2Proof.Machine.execWrw a v s
  | .wrl a v => Sys2Proof.Machine.execWrl a v s
  | .load src => Sys2Proof.Machine.execLoad src s
  | .unload => Sys2Proof.Machine.execUnload s
  | .power r => Sys2Proof.Machine.execPower r s
  | .tick => Sys2Proof.Machine.execTick s
  | .step n => Sys2Proof.Machine.execStep n s
  | .excq => Sys2Proof.Machine.execExcq s
  | .cstep n => Sys2Proof.Machine.execCstep n s

end Sys2Proof.Machine
end

