-- ==== Sys2Proof/Machine/Agents.lean ====
section
/-!
DEFINITION. How an agent's turn is carried out: which of the waiting inputs is the agent's oldest, what carrying it out does, and
when it is done with. Rules: R10, R11, R160, R173, R197, R215, R219, R220.
-/

namespace Sys2Proof.Machine

/-- The agent a command belongs to, by the agent column of R102; a reserved code belongs to none (R106). -/
def commandOwner (c : Cmd) : Option Agent := (Op.ofCode (opField c.word)).map Op.owner

/-- The agent an input belongs to (R11, R173, R197). -/
def Input.owner : Input → Option Agent
  | .command c => commandOwner c
  | .companionBus _ => some .m
  | .hook _ => some .host

/-- Whether an agent's turn reaches this input: its own, or a reserved code, which belongs to none and is refused by the first
turn that reaches it. DESIGN CHOICE, safe (log entry 17). -/
def Input.reachedBy (a : Agent) (x : Input) : Bool :=
  match x.owner with
  | none => true
  | some b => b == a

/-- The oldest input that an agent's turn reaches, and the inputs without it. -/
def takeFirst (a : Agent) : List Input → Option (Input × List Input)
  | [] => none
  | x :: rest =>
    if x.reachedBy a then some (x, rest)
    else
      match takeFirst a rest with
      | none => none
      | some (y, rest') => some (y, x :: rest')

/-- A bus transaction of the companion's own (R173): straight to the bus, enabled when M may step. The address of a transaction
has bit 0 clear (R62). DESIGN CHOICE, safe (log entry 16). -/
def companionBus (t : BusTxn) (s : State) : State :=
  if enabledM s then
    if t.write then (busWrite .m { t with addr := cellAddr t.addr } s).answer .none
    else
      let r := busRead .m t.upper t.lower (cellAddr t.addr) s
      r.1.answer (.companion r.2)
  else s.waiting

/-- External tooling attaches or detaches the hook, at any time between two steps (R197). -/
def setHook (attach : Bool) (s : State) : State := { s with hookAttached := attach, rsp := .none }

/-- Carry out one input. A command is decoded and executed; a reserved code is refused (R106, R198 d). -/
def carryOut (x : Input) (s : State) : Host.Outcome State Fault Refusal :=
  match x with
  | .command c =>
    match decode c with
    | .ok i => exec i s
    | .error (.reservedOp code) => .refused (.reservedOpcode code)
  | .companionBus t => .next (companionBus t s)
  | .hook attach => .next (setHook attach s)

/-- An input that had its step is done with; one that was not enabled stays where it was, since "nothing is lost" (R160). -/
def settle (rest : List Input) (o : Host.Outcome State Fault Refusal) : Host.Outcome State Fault Refusal :=
  match o with
  | .next t => .next (if t.rsp = .waits then t else { t with inputs := rest })
  | .fault r => .fault r
  | .refused r => .refused r

/-- An agent's turn: its oldest input is tried. With none there is nothing to do. -/
def agentTurn (a : Agent) (s : State) : Host.Outcome State Fault Refusal :=
  match takeFirst a s.inputs with
  | none => .next s
  | some (x, rest) => settle rest (carryOut x s)

/-- C's side takes the companion's oldest advance event (R219). -/
def deliverToC (s : State) : State := { s with toC := s.toC.deliver }

/-- M's side takes the coprocessor's oldest advance event (R219). -/
def deliverToM (s : State) : State := { s with toM := s.toM.deliver }

/-- One turn of the schedule (R172). -/
def takeTurn (t : Turn) (s : State) : Host.Outcome State Fault Refusal :=
  match t with
  | .agent a => agentTurn a s
  | .drain => .next (drainOne s)
  | .deliverToC => .next (deliverToC s)
  | .deliverToM => .next (deliverToM s)

/-- A word of the opcode table's numbering as a command without a side-band. -/
def tableCommand (nbits w : Nat) : Cmd := ⟨BitVec.ofNat 68 (w % 2 ^ nbits), none⟩

/-- The agent whose turn carries a command out; any agent's does for a reserved code. -/
def turnFor (c : Cmd) : Turn := .agent ((commandOwner c).getD .host)

end Sys2Proof.Machine
end

