-- ==== Sys2Proof/Machine/Step.lean ====
section
/-!
DEFINITION. One step of the machine: the next turn of the schedule is taken. Rules: R5, R10, R172, R243.
-/

namespace Sys2Proof.Machine

/-- One step (R10): the next turn of the schedule, R172's interleaving; every turn is atomic. With no turn ahead nothing moves:
the block acts only when an agent does. -/
def step (s : State) : Host.Outcome State Fault Refusal :=
  match s.turns with
  | [] => .next s
  | t :: rest => takeTurn t { s with turns := rest }

/-- `s` with that command word put first on the CMD channel and its agent's turn put first in the schedule, so that the next step
carries it out. DESIGN CHOICE, safe (log entry 3). -/
def State.withFetchWord (s : State) (nbits w : Nat) : State :=
  { s with
    inputs := .command (tableCommand nbits w) :: s.inputs
    turns := turnFor (tableCommand nbits w) :: s.turns }

end Sys2Proof.Machine
end

