-- ==== Sys2Proof/Safety.lean ====
section
/-!
DEFINITION. The terms in which claims about the machine are stated: what the bus has performed and what C has issued, which
bytes a transaction stores, the invariant of the machine, the skew bound, and runs.
-/

namespace Sys2Proof.Machine

/-! ## What has happened on the bus -/

/-- The bytes a transaction stores to: the even byte if the upper lane is selected, the odd byte if the lower is (R65). -/
def storesByte (t : BusTxn) (n : Nat) : Bool :=
  t.write && ((t.upper && t.addr.toNat == n) || (t.lower && t.addr.toNat + 1 == n))

/-- The bus event of a posted write when it is performed (R212). -/
def postedEvent (w : Posted) : BusEvent := ⟨.c, postedTxn w⟩

/-- The write transactions of context C among some bus events, in their order. -/
def writesOfC (es : List BusEvent) : List BusTxn :=
  (es.filter fun e => e.issuer == .c && e.txn.write).map BusEvent.txn

/-- The writes of context C that the bus has performed, oldest first (R217 a, d). -/
def performedByC (s : State) : List BusTxn := writesOfC s.trace

/-- The writes that context C has issued, oldest first: those performed, then those still posted (R217 a, d). -/
def issuedByC (s : State) : List BusTxn := performedByC s ++ s.evq.map postedTxn

/-- The bus writes that an operation issues as a command of its own, oldest first (R134, R135, R136). -/
def writesOf : Instr → List Posted
  | .wrb a v => [byteWrite a v]
  | .wrw a v => [wordWrite a v]
  | .wrl a v => [longWriteHigh a v, longWriteLow a v]
  | _ => []

/-- Storage after some posted writes have been performed in their order (R216). -/
def storeAll (c : Config) (m : Memory) (ws : List Posted) : Memory :=
  ws.foldl (fun m w => storageAfter c m (postedTxn w)) m

/-- Storage after some bus events, in their order. -/
def storeEvents (c : Config) (m : Memory) (es : List BusEvent) : Memory :=
  es.foldl (fun m e => storageAfter c m e.txn) m

/-! ## The invariant -/

/-- A clock-view link of R219 when the sender's time is `now`: the view and the events on their way never decrease and are never
ahead of the truth, the channel holds no more than its depth, and the newest of them is the truth. -/
structure SyncLink.Ok (depth now : Nat) (k : SyncLink) : Prop where
  inOrder : (k.view :: k.chan).Pairwise (· ≤ ·)
  notAhead : ∀ t ∈ k.view :: k.chan, t ≤ now
  fits : k.chan.length ≤ depth
  newest : depth ≠ 0 → k.chan.getLastD k.view = now

/-- What every state that can be reached from reset satisfies. -/
structure State.Inv (s : State) : Prop where
  /-- The parameters are legal (R6). -/
  parameters : s.cfg.wf = true
  /-- The storage of the bus is in canonical form. -/
  memory : s.mem.wf = true
  /-- CTX is present exactly when SCHED = Running (R20, R23). -/
  context : s.ctx.isSome = isRunning s
  /-- BOOT is present while Running (R190). -/
  runningLoaded : s.sched = .running → s.boot.isSome = true
  /-- BOOT is absent while Halted (R190). -/
  haltedUnloaded : s.sched = .halted → s.boot = none
  /-- A present BOOT has BOOT_CELLS cells (R21). -/
  bootLength : ∀ cells, s.boot = some cells → cells.length = s.cfg.bootCells
  /-- DBG_NODE is registered exactly between LOAD and UNLOAD (R34). -/
  debugNode : s.dbgNode = s.boot.isSome
  /-- The FIFO holds at most EVQ_DEPTH entries (R33). -/
  fifoFits : s.evq.length ≤ s.cfg.evqDepth
  /-- Every posted write has an even address and selects a lane (R62, R109). -/
  fifoEntries : ∀ w ∈ s.evq, w.wf = true
  /-- While C waits the FIFO is empty (R216, R217 b). -/
  waitingDrained : waitsC s = true → s.evq = []
  /-- ACTIVE exists exactly under the coroutine policy (R35). -/
  activeExists : s.active.isSome = (firstActive s.cfg).isSome
  /-- The active context is not blocked: a context that its own synchronisation blocks hands over (R172). -/
  activeNotBlocked : (s.active = some .c → blockedC s = false) ∧ (s.active = some .m → blockedM s = false)
  /-- C's view of the companion's time (R219). -/
  viewOfCompanion : s.toC.Ok s.cfg.syncDepth (timeM s)
  /-- M's view of the coprocessor's time (R219), while there is one. -/
  viewOfCoprocessor : s.sched = .running → s.toM.Ok s.cfg.syncDepth (timeC s)
  /-- Every transaction on the bus has an even address, and a read carries no data (R62, R108). -/
  transactions : ∀ e ∈ s.trace, e.txn.wf = true
  /-- Context C never emits the select pair (0,0) (R109). -/
  lanes : ∀ e ∈ s.trace, e.issuer = .c → e.txn.lanesSelected = true

/-! ## The skew -/

/-- R169 (c): neither time is ahead of the other by more than the quota and the given numbers of cycles. -/
def SkewWithin (nC nM : Nat) (s : State) : Prop :=
  timeC s ≤ timeM s + quotaTicks s.cfg + nC * periodC s.cfg ∧
    timeM s ≤ timeC s + quotaTicks s.cfg + nM * periodM s.cfg

/-- The number of cycles by which an operation advances C's clock. -/
def cyclesC : Instr → Nat
  | .tick => 1
  | .step n => n.toNat
  | _ => 0

/-- The number of cycles by which an operation advances M's clock. -/
def cyclesM : Instr → Nat
  | .cstep n => n.toNat
  | _ => 0

/-- Every command that has been asked for advances C's clock by at most `nC` and M's by at most `nM` cycles. -/
def AdvancesWithin (nC nM : Nat) (s : State) : Prop :=
  ∀ x ∈ s.inputs, ∀ c i, x = .command c → decode c = .ok i → cyclesC i ≤ nC ∧ cyclesM i ≤ nM

/-! ## Runs -/

/-- `k` steps, as a relation: the run goes on to `t` without being refused. -/
inductive Runs : Nat → State → State → Prop where
  | refl (s : State) : Runs 0 s s
  | next {k : Nat} {s u t : State} (first : step s = .next u) (rest : Runs k u t) : Runs (k + 1) s t

/-- The same operation executed so many times in a row, from outcome to outcome. -/
def execTimes (i : Instr) : Nat → State → Host.Outcome State Fault Refusal
  | 0, s => .next s
  | k + 1, s =>
    match exec i s with
    | .next t => execTimes i k t
    | .fault r => .fault r
    | .refused r => .refused r

/-! ## Comparing machines -/

/-- What an outcome becomes when its next state is looked at through a function. -/
def mapNext (f : State → State) : Host.Outcome State Fault Refusal → Host.Outcome State Fault Refusal
  | .next t => .next (f t)
  | .fault r => .fault r
  | .refused r => .refused r

/-- The state of the direct implementation, EVQ_DEPTH = 0, that has performed every write this one has issued (R217 c). -/
def direct (s : State) : State := { drainAll s with cfg := { s.cfg with evqDepth := 0 } }

/-- The state of the normative model, SYNC_FIFO_DEPTH = 0, that reads both clocks exactly (R218, R219). -/
def exactViews (s : State) : State :=
  { s with cfg := { s.cfg with syncDepth := 0 }, toC := ⟨0, []⟩, toM := ⟨0, []⟩ }

/-- Everything of a state but the debug features: HOOK_ATTACHED and what was shown on HOOKIF (R174). -/
def withoutHook (s : State) : State := { s with hookAttached := false, hookOut := [] }

end Sys2Proof.Machine
end

