-- ==== Sys2Proof/Certificates/Slice0/Obligations.lean ====
section
/-!
DEFINITION. What is claimed of the machine, from the spec's numbered rules. Where a clause rests on a choice of the model's own,
the docstring names the log entry.
-/

open Sys2Proof Sys2Proof.Machine

/-! ## Encoding -/

/-- R101 and R102 with R103's operands, in numbers: `op` is bits 67:64, `a` bits 63:32, `d` bits 31:0; each defined code
decodes to its operation with its operands and each reserved code is rejected by name, whatever the ignored bits are. (That a
byte stream beside a word that is not LOAD's is ignored is the model's choice, log entry 22.) -/
def Obligations.WordsDecodeByTheOpcodeMap : Prop :=
  ∀ (a : Addr) (d : Long) (src : Option (List Byte)),
    let word : Nat → Cmd := fun op => ⟨BitVec.ofNat 68 (op * 2 ^ 64 + a.toNat * 2 ^ 32 + d.toNat), src⟩
    decode (word 0x0) = .ok (.rdb a) ∧ decode (word 0x1) = .ok (.rdw a) ∧ decode (word 0x2) = .ok (.rdl a) ∧
    decode (word 0x3) = .error (.reservedOp 0x3#4) ∧
    decode (word 0x4) = .ok (.wrb a (BitVec.ofNat 8 (d.toNat % 256))) ∧
    decode (word 0x5) = .ok (.wrw a (BitVec.ofNat 16 (d.toNat % 65536))) ∧
    decode (word 0x6) = .ok (.wrl a d) ∧ decode (word 0x7) = .error (.reservedOp 0x7#4) ∧
    decode (word 0x8) = .ok (.load src) ∧ decode (word 0x9) = .ok .unload ∧
    decode (word 0xA) = .ok (.power (decide (d.toNat % 2 = 1))) ∧ decode (word 0xB) = .ok .tick ∧
    decode (word 0xC) = .ok (.step d) ∧ decode (word 0xD) = .ok .excq ∧ decode (word 0xE) = .ok (.cstep d) ∧
    decode (word 0xF) = .error (.reservedOp 0xF#4)

/-- Decoding the canonical command of any operation gives the operation back with every operand (R103, R105). -/
def Obligations.DecodeOfEncodeIsTheInstruction : Prop := ∀ i : Instr, decode (encode i) = .ok i

/-- Encoding gives canonical commands, and a canonical command is what its decoding encodes to (R103, R105). -/
def Obligations.EncodeOfDecodeIsTheCanonicalCommand : Prop :=
  (∀ i : Instr, (encode i).canonical = true) ∧
    ∀ c : Cmd, c.canonical = true → ∃ i, decode c = .ok i ∧ encode i = c

/-- R106 at the decoder and at the step: the codes 0x3, 0x7 and 0xF, and no others, are rejected, and the turn that takes
such a command is refused. (That any agent's turn takes one is the model's choice, log entry 17, and so is that a byte stream
beside a word that is not LOAD's is ignored and not rejected, log entry 22.) -/
def Obligations.ReservedCodesAreRefused : Prop :=
  ∀ c : Cmd,
    let code := c.word.toNat / 2 ^ 64
    ((code = 0x3 ∨ code = 0x7 ∨ code = 0xF) ↔ decode c = .error (.reservedOp (BitVec.ofNat 4 code))) ∧
    (¬ (code = 0x3 ∨ code = 0x7 ∨ code = 0xF) → ∃ i, decode c = .ok i) ∧
    ((code = 0x3 ∨ code = 0x7 ∨ code = 0xF) →
      ∀ (s : State) (a : Agent) (later : List Turn) (rest : List Input),
        s.turns = .agent a :: later → takeFirst a s.inputs = some (.command c, rest) →
        step s = .refused (.reservedOpcode (BitVec.ofNat 4 code)))

/-- R108: the packed record has `rw`, `u`, `l`, `a`, `d` at bits 50, 49, 48, 47:16 and 15:0, and packing loses nothing. -/
def Obligations.TransactionRecordsPack : Prop :=
  (∀ t : BusTxn, BusTxn.unpack t.pack = t ∧
    t.pack.toNat = t.write.toNat * 2 ^ 50 + t.upper.toNat * 2 ^ 49 + t.lower.toNat * 2 ^ 48
      + t.addr.toNat * 2 ^ 16 + t.data.toNat ∧
    (t.wf = true → t.pack.getLsbD 16 = false ∧ (t.write = false → t.pack.toNat % 2 ^ 16 = 0))) ∧
  ∀ w : TxnWord, (BusTxn.unpack w).pack = w

/-- A few words written out from the encoding decode to what they stand for (examples of R131 to R194). -/
def Obligations.WrittenOutWordsDecode : Prop :=
  decodeTableWord 72 0x00000100100000000 = some (.rdb 0x00001001#32) ∧
  decodeTableWord 72 0x400001001000000CD = some (.wrb 0x00001001#32 0xCD#8) ∧
  decodeTableWord 72 0xA0000000000000001 = some (.power true) ∧
  decodeTableWord 72 0xC0000000000000001 = some (.step 1#32) ∧
  decodeTableWord 72 0x30000000000000000 = none

/-! ## The step -/

/-- A turn runs the decoded command: when the next turn is agent `a`'s and the oldest input it reaches is a command that
decodes to `i`, the step is `exec i` with that turn used up. If `i` had its step the command is done with, and if `i` waits
it stays: "nothing is lost" (R160). The queue of inputs and the schedule are the model's (log entries 1 and 2). -/
def Obligations.StepRunsTheDecodedInstruction : Prop :=
  ∀ (s : State) (a : Agent) (later : List Turn) (c : Cmd) (rest : List Input) (i : Instr),
    s.turns = .agent a :: later → takeFirst a s.inputs = some (.command c, rest) → decode c = .ok i →
    (∀ t, exec i { s with turns := later } = .next t → t.rsp ≠ .waits → step s = .next { t with inputs := rest }) ∧
    (∀ t, exec i { s with turns := later } = .next t → t.rsp = .waits → step s = .next t ∧ t.inputs = s.inputs) ∧
    (∀ r, exec i { s with turns := later } = .refused r → step s = .refused r)

/-- R11 and the agent column of R102: a turn of C reaches the six adapter operations, TICK, STEP and EXCQ, a turn of M CSTEP
and the companion's own transactions (R173), a turn of HOST LOAD, UNLOAD, POWER and the hook requests (R197). An agent's
inputs are taken in their order: the input a turn takes is the first in the list that the turn reaches, and the others keep
their order. (The order of inputs, and that a reserved code is reached by every agent, are the model's, log entries 1 and
17.) -/
def Obligations.AgentsTakeTheirInputsInOrder : Prop :=
  (∀ (a : Agent) (xs rest : List Input) (x : Input),
    takeFirst a xs = some (x, rest) ↔
      ∃ before after, xs = before ++ x :: after ∧ rest = before ++ after ∧
        x.reachedBy a = true ∧ ∀ y ∈ before, y.reachedBy a = false) ∧
  ∀ (a : Agent) (c : Cmd) (b : BusTxn) (attach : Bool),
    let code := c.word.toNat / 2 ^ 64
    (Input.reachedBy a (.command c) = true ↔
      (code ∈ [0x0, 0x1, 0x2, 0x4, 0x5, 0x6, 0xB, 0xC, 0xD] ∧ a = .c) ∨ (code = 0xE ∧ a = .m) ∨
      (code ∈ [0x8, 0x9, 0xA] ∧ a = .host) ∨ code ∈ [0x3, 0x7, 0xF]) ∧
    (Input.reachedBy a (.companionBus b) = true ↔ a = .m) ∧
    (Input.reachedBy a (.hook attach) = true ↔ a = .host)

/-! ## The adapter -/

/-- R131, whole: encoding, pseudocode and corner cases. Posted writes are performed first; then one transaction with one lane
selected; the answer is the byte that the bus gives on that lane, whatever the other carries; nothing else changes. What the
bus gives is the model's choice: plain storage outside the device windows, a free value inside (log entries 4 and 5); so is that a
byte stream beside the word is ignored (log entry 22). -/
def Obligations.ByteReadResult : Prop :=
  ∀ (a : Addr) (d : Long) (src : Option (List Byte)) (s : State),
    decode ⟨BitVec.ofNat 68 (0x0 * 2 ^ 64 + a.toNat * 2 ^ 32 + d.toNat), src⟩ = .ok (.rdb a) ∧
    (enabledC s = true →
      let cell : Addr := BitVec.ofNat 32 (a.toNat / 2 * 2)
      let txn : BusTxn := ⟨false, decide (a.toNat % 2 = 0), decide (a.toNat % 2 = 1), cell, 0⟩
      let before := s.trace ++ s.evq.map postedEvent
      let mem := storeAll s.cfg s.mem s.evq
      let r := (Config.deviceAnswer before txn).toNat
      exec (.rdb a) s = .next
        { s with
          evq := []
          mem := mem
          trace := before ++ [⟨.c, txn⟩]
          rsp := .byte
            (if isDevice s.cfg cell then BitVec.ofNat 8 (if a.toNat % 2 = 1 then r % 256 else r / 256)
              else mem.read a.toNat) })

/-- R132, whole: as R131 with both lanes selected and the whole 16 bits returned, unrotated at an odd address. What the bus
gives is the model's choice (log entries 4 and 5); so is that a byte stream beside the word is ignored (log entry 22). -/
def Obligations.WordReadResult : Prop :=
  ∀ (a : Addr) (d : Long) (src : Option (List Byte)) (s : State),
    decode ⟨BitVec.ofNat 68 (0x1 * 2 ^ 64 + a.toNat * 2 ^ 32 + d.toNat), src⟩ = .ok (.rdw a) ∧
    (enabledC s = true →
      let cell := a.toNat / 2 * 2
      let txn : BusTxn := ⟨false, true, true, BitVec.ofNat 32 cell, 0⟩
      let before := s.trace ++ s.evq.map postedEvent
      let mem := storeAll s.cfg s.mem s.evq
      let r := if isDevice s.cfg (BitVec.ofNat 32 cell) then (Config.deviceAnswer before txn).toNat
        else (mem.read cell).toNat * 256 + (mem.read (cell + 1)).toNat
      exec (.rdw a) s = .next
        { s with
          evq := []
          mem := mem
          trace := before ++ [⟨.c, txn⟩]
          rsp := .word (BitVec.ofNat 16 r) })

/-- R133, whole: two word transactions, the lower address first, composed big-endian; the low two address bits are dropped.
What the bus gives is the model's choice (log entries 4 and 5); so is that a byte stream beside the word is ignored (log entry
22). -/
def Obligations.LongReadResult : Prop :=
  ∀ (a : Addr) (d : Long) (src : Option (List Byte)) (s : State),
    decode ⟨BitVec.ofNat 68 (0x2 * 2 ^ 64 + a.toNat * 2 ^ 32 + d.toNat), src⟩ = .ok (.rdl a) ∧
    (enabledC s = true →
      let b := a.toNat / 4 * 4
      let txn1 : BusTxn := ⟨false, true, true, BitVec.ofNat 32 b, 0⟩
      let txn2 : BusTxn := ⟨false, true, true, BitVec.ofNat 32 (b + 2), 0⟩
      let before := s.trace ++ s.evq.map postedEvent
      let mem := storeAll s.cfg s.mem s.evq
      let h := if isDevice s.cfg (BitVec.ofNat 32 b) then (Config.deviceAnswer before txn1).toNat
        else (mem.read b).toNat * 256 + (mem.read (b + 1)).toNat
      let lo := if isDevice s.cfg (BitVec.ofNat 32 (b + 2)) then
          (Config.deviceAnswer (before ++ [⟨.c, txn1⟩]) txn2).toNat
        else (mem.read (b + 2)).toNat * 256 + (mem.read (b + 3)).toNat
      exec (.rdl a) s = .next
        { s with
          evq := []
          mem := mem
          trace := before ++ [⟨.c, txn1⟩, ⟨.c, txn2⟩]
          rsp := .long (BitVec.ofNat 32 (h * 65536 + lo)) })

/-- R134, whole: one transaction, the byte on both halves of the data, one lane selected by the parity of the address; the
bits of `d` above the byte do not reach the bus. -/
def Obligations.ByteWriteResult : Prop :=
  ∀ (a : Addr) (d : Long) (s : State),
    let v := BitVec.ofNat 8 (d.toNat % 256)
    let w : Posted := ⟨decide (a.toNat % 2 = 0), decide (a.toNat % 2 = 1), BitVec.ofNat 32 (a.toNat / 2 * 2),
      BitVec.ofNat 16 (d.toNat % 256 * 256 + d.toNat % 256)⟩
    decode ⟨BitVec.ofNat 68 (0x4 * 2 ^ 64 + a.toNat * 2 ^ 32 + d.toNat), none⟩ = .ok (.wrb a v) ∧
    (enabledC s = true → exec (.wrb a v) s = .next { issueWrite w s with rsp := .none })

/-- R135, whole: one transaction with both lanes selected, at the cell below an odd address. -/
def Obligations.WordWriteResult : Prop :=
  ∀ (a : Addr) (d : Long) (s : State),
    let v := BitVec.ofNat 16 (d.toNat % 65536)
    let w : Posted := ⟨true, true, BitVec.ofNat 32 (a.toNat / 2 * 2), v⟩
    decode ⟨BitVec.ofNat 68 (0x5 * 2 ^ 64 + a.toNat * 2 ^ 32 + d.toNat), none⟩ = .ok (.wrw a v) ∧
    (enabledC s = true → exec (.wrw a v) s = .next { issueWrite w s with rsp := .none })

/-- R136, whole: two word transactions, the high word at the lower address first. -/
def Obligations.LongWriteResult : Prop :=
  ∀ (a : Addr) (v : Long) (s : State),
    let w1 : Posted := ⟨true, true, BitVec.ofNat 32 (a.toNat / 4 * 4), BitVec.ofNat 16 (v.toNat / 65536)⟩
    let w2 : Posted := ⟨true, true, BitVec.ofNat 32 (a.toNat / 4 * 4 + 2), BitVec.ofNat 16 (v.toNat % 65536)⟩
    decode ⟨BitVec.ofNat 68 (0x6 * 2 ^ 64 + a.toNat * 2 ^ 32 + v.toNat), none⟩ = .ok (.wrl a v) ∧
    (enabledC s = true → exec (.wrl a v) s = .next { issueWrite w2 (issueWrite w1 s) with rsp := .none })

/-- R138: the three round trips and the two compositions, on plain storage, at every depth of the FIFO and every alignment.
(Which cells are plain storage is the model's choice, log entry 5.) -/
def Obligations.AccessesRoundTrip : Prop :=
  ∀ s : State, s.Inv → enabledC s = true →
    (∀ a v, isDevice s.cfg (cellAddr a) = false →
      ∃ t u, exec (.wrw a v) s = .next t ∧ exec (.rdw a) t = .next u ∧ u.rsp = .word v) ∧
    (∀ a v, isDevice s.cfg (cellAddr a) = false →
      ∃ t u before after, exec (.wrb a v) s = .next t ∧ exec (.rdb a) t = .next u ∧ u.rsp = .byte v ∧
        exec (.rdb (a ^^^ 1#32)) s = .next before ∧ exec (.rdb (a ^^^ 1#32)) t = .next after ∧ after.rsp = before.rsp) ∧
    (∀ a v, isDevice s.cfg (groupAddr a) = false → isDevice s.cfg (groupAddr2 a) = false →
      ∃ t u, exec (.wrl a v) s = .next t ∧ exec (.rdl a) t = .next u ∧ u.rsp = .long v) ∧
    (∀ a, isDevice s.cfg (groupAddr a) = false → isDevice s.cfg (groupAddr2 a) = false →
      ∃ t h lo, exec (.rdl a) s = .next t ∧
        (∃ u, exec (.rdw (groupAddr a)) s = .next u ∧ u.rsp = .word h) ∧
        (∃ u, exec (.rdw (groupAddr2 a)) s = .next u ∧ u.rsp = .word lo) ∧ t.rsp = .long (h ++ lo)) ∧
    (∀ a, isDevice s.cfg (cellAddr a) = false →
      ∃ t hi lo, exec (.rdw a) s = .next t ∧
        (∃ u, exec (.rdb (cellAddr a)) s = .next u ∧ u.rsp = .byte hi) ∧
        (∃ u, exec (.rdb (cellAddr a + 1#32)) s = .next u ∧ u.rsp = .byte lo) ∧ t.rsp = .word (hi ++ lo))

/-- R73's mixed-width view: after a long write at a multiple of four, byte reads at the four addresses give the value's bytes
from the most significant the most significant on, and word reads its two halves. (Which cells are plain storage: log entry
5.) -/
def Obligations.MixedWidthViewIsBigEndian : Prop :=
  ∀ (s t : State) (a : Addr) (v : Long), s.Inv → enabledC s = true → a.toNat % 4 = 0 →
    isDevice s.cfg a = false → isDevice s.cfg (a + 2#32) = false → exec (.wrl a v) s = .next t →
    (∀ k < 4, ∃ u, exec (.rdb (a + BitVec.ofNat 32 k)) t = .next u ∧
      u.rsp = .byte (BitVec.ofNat 8 (v.toNat / 256 ^ (3 - k) % 256))) ∧
    (∃ u, exec (.rdw a) t = .next u ∧ u.rsp = .word (BitVec.ofNat 16 (v.toNat / 65536))) ∧
    ∃ u, exec (.rdw (a + 2#32)) t = .next u ∧ u.rsp = .word (BitVec.ofNat 16 (v.toNat % 65536))

/-- R137's laws of the adapter's arithmetic. Addresses: the masks, that `(A & ~3) + 2` never carries, and that no adapter
address leaves the aligned group of four bytes or the cell that holds `A`. Data: duplication, composition and splitting. -/
def Obligations.AdapterArithmeticLaws : Prop :=
  (∀ a : Addr,
    (cellAddr a).toNat = a.toNat - a.toNat % 2 ∧ (groupAddr a).toNat = a.toNat - a.toNat % 4 ∧
    (groupAddr2 a).toNat = (groupAddr a).toNat + 2 ∧ (groupAddr2 a).toNat + 1 < 2 ^ 32 ∧
    (cellAddr a).toNat ≤ a.toNat ∧ a.toNat ≤ (cellAddr a).toNat + 1 ∧
    (groupAddr a).toNat ≤ a.toNat ∧ a.toNat ≤ (groupAddr a).toNat + 3) ∧
  (cellAddr 0xFFFFFFFF#32 = 0xFFFFFFFE#32 ∧ groupAddr 0xFFFFFFFF#32 = 0xFFFFFFFC#32 ∧
    groupAddr2 0xFFFFFFFF#32 = 0xFFFFFFFE#32) ∧
  (∀ v : Byte, (duplicate v).toNat = v.toNat * 256 + v.toNat) ∧
  (∀ h lo : Word, (joinWords h lo).toNat = h.toNat * 65536 + lo.toNat) ∧
  ∀ v : Long, (highWord v).toNat = v.toNat / 65536 ∧ (lowWord v).toNat = v.toNat % 65536 ∧
    joinWords (highWord v) (lowWord v) = v

/-- The frame of the three reads: whatever they do, PC, SP, REGS, both clocks, BOOT, SCHED, ACTIVE, the debug bits, the links
and the queues stay; when they complete, only bytes that a posted write stores to can change; when they wait, no byte
changes. -/
def Obligations.ReadsLeaveTheRestAlone : Prop :=
  ∀ (i : Instr) (a : Addr) (s t : State), i = .rdb a ∨ i = .rdw a ∨ i = .rdl a → exec i s = .next t →
    t = { s with evq := t.evq, mem := t.mem, trace := t.trace, rsp := t.rsp } ∧
    (∀ n, (∀ w ∈ s.evq, storesByte (postedTxn w) n = false) → t.mem.read n = s.mem.read n) ∧
    (t.rsp = .waits → ∀ n, t.mem.read n = s.mem.read n)

/-- The frame of the three writes. The transactions are the ones the operation issues (R134, R135, R136); of the FIFO
followed by them, the oldest in excess of EVQ_DEPTH are performed and the rest stays posted (R213); every byte outside those
performed reads as before. -/
def Obligations.WritesLeaveTheRestAlone : Prop :=
  ∀ (i : Instr) (ws : List Posted) (s t : State),
    ((∃ a v, i = .wrb a v ∧ ws = [byteWrite a v]) ∨ (∃ a v, i = .wrw a v ∧ ws = [wordWrite a v]) ∨
      ∃ a v, i = .wrl a v ∧ ws = [longWriteHigh a v, longWriteLow a v]) →
    s.evq.length ≤ s.cfg.evqDepth → exec i s = .next t →
    t = { s with evq := t.evq, mem := t.mem, trace := t.trace, rsp := t.rsp } ∧
    (t.rsp = .waits → t.evq = s.evq ∧ t.trace = s.trace ∧ ∀ n, t.mem.read n = s.mem.read n) ∧
    (t.rsp ≠ .waits →
      let performed := (s.evq ++ ws).take ((s.evq ++ ws).length - s.cfg.evqDepth)
      t.evq = (s.evq ++ ws).drop ((s.evq ++ ws).length - s.cfg.evqDepth) ∧
      t.trace = s.trace ++ performed.map postedEvent ∧
      ∀ n, (∀ w ∈ performed, storesByte (postedTxn w) n = false) → t.mem.read n = s.mem.read n)

/-! ## The bus -/

/-- R65 on plain storage, byte by byte: a selected lane takes its byte, every other byte keeps its value; a device window's
bytes are not storage, which is the model's choice (log entry 5). -/
def Obligations.BusWriteStoresTheSelectedLanes : Prop :=
  ∀ (x : Context) (t : BusTxn) (s : State) (n : Nat), s.mem.wf = true → t.addr.toNat % 2 = 0 → t.write = true →
    (busWrite x t s).trace = s.trace ++ [⟨x, t⟩] ∧
    (busWrite x t s).mem.read n =
      if isDevice s.cfg t.addr = false ∧ t.upper = true ∧ n = t.addr.toNat then BitVec.ofNat 8 (t.data.toNat / 256)
      else if isDevice s.cfg t.addr = false ∧ t.lower = true ∧ n = t.addr.toNat + 1 then
        BitVec.ofNat 8 (t.data.toNat % 256)
      else s.mem.read n

/-- R173: the companion's own transactions go straight to the bus, past the FIFO, when M may step, and wait otherwise. The
address of a transaction is even (R62); that an odd one asked for has its bit 0 cleared is the model's choice (log entry 16),
and so is what a read is answered; on a lane it does not select plain storage answers its byte or a free value (log entry 5).
-/
def Obligations.CompanionBusResult : Prop :=
  ∀ (s : State) (later : List Turn) (asked : BusTxn) (rest : List Input),
    let b : BusTxn := { asked with addr := BitVec.ofNat 32 (asked.addr.toNat / 2 * 2) }
    let free := Config.unselectedLanes s.trace { b with data := 0 }
    s.turns = .agent .m :: later → takeFirst .m s.inputs = some (.companionBus asked, rest) →
    (enabledM s = true → b.write = true →
      step s = .next
        { s with
          turns := later
          inputs := rest
          mem := storageAfter s.cfg s.mem b
          trace := s.trace ++ [⟨.m, b⟩]
          rsp := .none }) ∧
    (enabledM s = true → b.write = false →
      step s = .next
        { s with
          turns := later
          inputs := rest
          trace := s.trace ++ [⟨.m, { b with data := 0 }⟩]
          rsp := .companion
            (if isDevice s.cfg b.addr then Config.deviceAnswer s.trace { b with data := 0 }
              else (if b.upper = true ∨ s.cfg.wholeCells = true then s.mem.read b.addr.toNat
                  else BitVec.ofNat 8 (free.toNat / 256)) ++
                if b.lower = true ∨ s.cfg.wholeCells = true then s.mem.read (b.addr.toNat + 1)
                else BitVec.ofNat 8 (free.toNat % 256)) }) ∧
    (enabledM s = false → step s = .next { s with turns := later, rsp := .waits })

/-- Storage is at every moment what the transactions performed on the bus have made it, and the bus forgets none of them.
(That the bus is such storage and device windows is the model's choice, log entry 5.) -/
def Obligations.MemoryIsTheReplayOfTheBus : Prop :=
  ∀ (k : Nat) (s t : State), s.evq.length ≤ s.cfg.evqDepth → Runs k s t →
    ∃ es, t.trace = s.trace ++ es ∧ t.mem = storeEvents s.cfg s.mem es ∧ t.cfg = s.cfg

/-! ## The posted-event FIFO -/

/-- R213, with R212's `Perform`: the three cases of `IssueWrite`. -/
def Obligations.IssueWriteResult : Prop :=
  ∀ (w : Posted) (s : State),
    (s.cfg.evqDepth = 0 → issueWrite w s =
      { s with mem := storageAfter s.cfg s.mem (postedTxn w), trace := s.trace ++ [postedEvent w] }) ∧
    (s.cfg.evqDepth ≠ 0 → s.evq.length ≠ s.cfg.evqDepth → issueWrite w s = { s with evq := s.evq ++ [w] }) ∧
    (∀ h rest, s.cfg.evqDepth ≠ 0 → s.evq.length = s.cfg.evqDepth → s.evq = h :: rest → issueWrite w s =
      { s with
        evq := rest ++ [w]
        mem := storageAfter s.cfg s.mem (postedTxn h)
        trace := s.trace ++ [postedEvent h] })

/-- R215: the turn of agent Q performs the oldest posted write, whether or not a context is blocked; with nothing posted
nothing happens (log entry 2). -/
def Obligations.DrainPerformsTheOldest : Prop :=
  ∀ (s : State) (later : List Turn), s.turns = .drain :: later →
    (s.evq = [] → step s = .next { s with turns := later }) ∧
    ∀ h rest, s.evq = h :: rest → step s = .next
      { s with
        turns := later
        evq := rest
        mem := storageAfter s.cfg s.mem (postedTxn h)
        trace := s.trace ++ [postedEvent h] }

/-- R216 and R217 (b): the operations that synchronise or read leave the FIFO empty, having performed what was posted. -/
def Obligations.SynchronisingOperationsEmptyTheFifo : Prop :=
  ∀ (i : Instr) (s t : State), i.op ∈ [Op.rdb, .rdw, .rdl, .tick, .step, .power, .unload] → exec i s = .next t →
    t.rsp ≠ .waits →
    t.evq = [] ∧ (i ≠ .tick → performedByC t = issuedByC s)

/-- R217 (a) and (d). Every write is issued once: WRB, WRW and WRL add exactly their transactions to what is issued, a TICK
adds what its instruction adds, and every other operation and turn (DRAIN, a delivery, the companion, the hook) leaves it as
it is, so that a posted write that is performed is no longer posted. Along every run issued writes are never lost or
reordered, and those performed are the oldest of them. -/
def Obligations.IssueOrderIsKept : Prop :=
  (∀ (i : Instr) (s t : State), s.evq.length ≤ s.cfg.evqDepth → exec i s = .next t → i ≠ .tick →
    issuedByC t = issuedByC s ++ if t.rsp = .waits then [] else (writesOf i).map postedTxn) ∧
  (∀ (s t : State) (c : Ctx), s.evq.length ≤ s.cfg.evqDepth → s.ctx = some c → exec .tick s = .next t →
    issuedByC t = if t.rsp = .waits then issuedByC s
      else issuedByC (runProg (Config.execUnit c.pc c.sp c.regs) s).1) ∧
  (∀ s t : State,
    (∀ a later, s.turns = .agent a :: later → ∀ c rest, takeFirst a s.inputs ≠ some (.command c, rest)) →
    step s = .next t → issuedByC t = issuedByC s) ∧
  ∀ (k : Nat) (s t : State), s.evq.length ≤ s.cfg.evqDepth → Runs k s t →
    issuedByC s <+: issuedByC t ∧ performedByC s <+: performedByC t ∧ performedByC t <+: issuedByC t

/-- R217 (c): looked at after performing everything issued, every operation does with any EVQ_DEPTH what it does with
EVQ_DEPTH = 0. So context C cannot tell the depth. (Nothing is said of what the companion sees meanwhile: a larger depth has
runs in which it sees a write later.) -/
def Obligations.FifoDepthIsInvisibleToTheCoprocessor : Prop :=
  ∀ (i : Instr) (s : State), s.evq.length ≤ s.cfg.evqDepth → exec i (direct s) = mapNext direct (exec i s)

/-! ## The scheduler -/

/-- R163: the posted writes are performed, the clock advances by `n` even beyond the quota, and under the coroutine policy a
STEP that leaves C blocked hands over. Refused while not Running (log entry 8); waiting while C may not step. With
SYNC_FIFO_DEPTH > 0 an advance event is sent (R219; how a full channel behaves is the model's choice, log entry 9). (That a byte
stream beside the word is ignored is the model's choice, log entry 22.) -/
def Obligations.StepResult : Prop :=
  ∀ (n a : Long) (src : Option (List Byte)) (s : State),
    decode ⟨BitVec.ofNat 68 (0xC * 2 ^ 64 + a.toNat * 2 ^ 32 + n.toNat), src⟩ = .ok (.step n) ∧
    (∀ c, s.sched = .running → s.ctx = some c → enabledC s = true →
      let late := decide ((c.cycC + n.toNat) * periodC s.cfg > timeM s + quotaTicks s.cfg)
      exec (.step n) s = .next
        { s with
          evq := []
          mem := storeAll s.cfg s.mem s.evq
          trace := s.trace ++ s.evq.map postedEvent
          ctx := some { c with cycC := c.cycC + n.toNat }
          toM := if n = 0 then s.toM else s.toM.send s.cfg.syncDepth ((c.cycC + n.toNat) * periodC s.cfg)
          active := if s.cfg.policy ≠ .anyEnabled ∧ late = true then some .m else s.active
          rsp := .none }) ∧
    (s.sched = .running → s.ctx ≠ none → enabledC s = false → exec (.step n) s = .next { s with rsp := .waits }) ∧
    (s.sched ≠ .running → exec (.step n) s = .refused .stepNotRunning)

/-- R164 and R165: TICK shows the hook the context, runs the one instruction through the adapter, and is then STEP with n = 1
from the state the instruction left: PC, SP and REGS as the instruction says, the clock not yet moved. What the instruction
does is a free function (log entry 7); refused while not Running (log entry 8). (That a byte stream
beside the word is ignored is the model's choice, log entry 22.) -/
def Obligations.TickResult : Prop :=
  ∀ (a d : Long) (src : Option (List Byte)) (s : State),
    decode ⟨BitVec.ofNat 68 (0xB * 2 ^ 64 + a.toNat * 2 ^ 32 + d.toNat), src⟩ = .ok .tick ∧
    (∀ c, s.sched = .running → s.ctx = some c → enabledC s = true →
      let shown := { s with hookOut := s.hookOut ++ if s.hookAttached then [c] else [] }
      let ran := runProg (Config.execUnit c.pc c.sp c.regs) shown
      let after := { ran.1 with ctx := some ⟨ran.2.pc, ran.2.sp, ran.2.regs, c.cycC⟩ }
      exec .tick s = exec (.step 1) after ∧
      ∃ t, exec .tick s = .next t ∧ t.ctx = some ⟨ran.2.pc, ran.2.sp, ran.2.regs, c.cycC + 1⟩ ∧ t.evq = [] ∧
        t.hookOut = shown.hookOut ∧ t.rsp = .none) ∧
    (s.sched = .running → s.ctx ≠ none → enabledC s = false → exec .tick s = .next { s with rsp := .waits }) ∧
    (s.sched ≠ .running → exec .tick s = .refused .tickNotRunning)

/-- R165. `Run`: an instruction that is done leaves its PC, SP and REGS; each read or write of it is what RDB, RDW, RDL, WRB,
WRW or WRL does at that address, and it goes on with the value that operation answers; its query goes on with 0. So an
instruction reaches the FIFO, storage and the bus's history through the adapter, and no other state (log entry 7): not the
clocks, not SCHED, not BOOT; and what it does depends on no other state. -/
def Obligations.InstructionReachesOnlyTheBus : Prop :=
  (∀ (pc sp : Long) (regs : Regs) (s : State), runProg (.done pc sp regs) s = (s, ⟨pc, sp, regs⟩)) ∧
  (∀ (k : Bool → Prog) (s : State), runProg (.excq k) s = runProg (k false) s) ∧
  (∀ (a : Addr) (s : State), enabledC s = true →
    (∀ k : Byte → Prog, ∃ t v, exec (.rdb a) s = .next t ∧ t.rsp = .byte v ∧
      runProg (.read .byte a k) s = runProg (k v) { t with rsp := s.rsp }) ∧
    (∀ k : Word → Prog, ∃ t v, exec (.rdw a) s = .next t ∧ t.rsp = .word v ∧
      runProg (.read .word a k) s = runProg (k v) { t with rsp := s.rsp }) ∧
    (∀ k : Long → Prog, ∃ t v, exec (.rdl a) s = .next t ∧ t.rsp = .long v ∧
      runProg (.read .long a k) s = runProg (k v) { t with rsp := s.rsp }) ∧
    ∀ (v : Long) (k : Prog),
      (∃ t, exec (.wrb a (BitVec.ofNat 8 (v.toNat % 256))) s = .next t ∧
        runProg (.write .byte a v k) s = runProg k { t with rsp := s.rsp }) ∧
      (∃ t, exec (.wrw a (BitVec.ofNat 16 (v.toNat % 65536))) s = .next t ∧
        runProg (.write .word a v k) s = runProg k { t with rsp := s.rsp }) ∧
      ∃ t, exec (.wrl a v) s = .next t ∧ runProg (.write .long a v k) s = runProg k { t with rsp := s.rsp }) ∧
  ∀ (p : Prog) (s s' : State),
    (runProg p s).1 =
        { s with evq := (runProg p s).1.evq, mem := (runProg p s).1.mem, trace := (runProg p s).1.trace } ∧
    (s'.cfg = s.cfg → s'.evq = s.evq → s'.mem = s.mem → s'.trace = s.trace →
      (runProg p s').2 = (runProg p s).2 ∧ (runProg p s').1.evq = (runProg p s).1.evq ∧
        (runProg p s').1.mem = (runProg p s).1.mem ∧ (runProg p s').1.trace = (runProg p s).1.trace)

/-- R166: EXCQ answers 0 in every state and changes nothing else. (That the query of a context that is not ACTIVE does not wait
is the model's reading, log entry 11; that a byte stream beside the word is ignored is its choice, log entry 22.) -/
def Obligations.ExceptionQueryAnswersZero : Prop :=
  ∀ (a d : Long) (src : Option (List Byte)) (s : State),
    decode ⟨BitVec.ofNat 68 (0xD * 2 ^ 64 + a.toNat * 2 ^ 32 + d.toNat), src⟩ = .ok .excq ∧
    exec .excq s = .next { s with rsp := .bit false }

/-- R167: CSTEP in every value of SCHED; with M waiting it waits. With SYNC_FIFO_DEPTH > 0 an advance event is sent (R219;
log entry 9). (That a byte stream beside the word is ignored is the model's choice, log entry 22.) -/
def Obligations.CompanionStepResult : Prop :=
  ∀ (n a : Long) (src : Option (List Byte)) (s : State),
    decode ⟨BitVec.ofNat 68 (0xE * 2 ^ 64 + a.toNat * 2 ^ 32 + n.toNat), src⟩ = .ok (.cstep n) ∧
    (enabledM s = true →
      let late := isRunning s && decide ((s.cycM + n.toNat) * periodM s.cfg > timeC s + quotaTicks s.cfg)
      exec (.cstep n) s = .next
        { s with
          cycM := s.cycM + n.toNat
          toC := if n = 0 then s.toC else s.toC.send s.cfg.syncDepth ((s.cycM + n.toNat) * periodM s.cfg)
          active := if s.cfg.policy ≠ .anyEnabled ∧ late = true then some .c else s.active
          rsp := .none }) ∧
    (enabledM s = false → exec (.cstep n) s = .next { s with rsp := .waits })

/-- R160: which operations wait, and that waiting changes nothing but the answer: C's six adapter operations, TICK and STEP
exactly while C may not step, CSTEP exactly while M may not; EXCQ, LOAD, UNLOAD and POWER never (EXCQ under the coroutine
policy: log entry 11). While Running a context may step exactly when it is ahead of its view of the other by no more than the
quota (R219; the view is the other's own time with SYNC_FIFO_DEPTH = 0) and, under the coroutine policy, is the active one
(R172). While SCHED is not Running both may always step (R130, R167, R251; under the coroutine policy: log entry 12). A context
is blocked exactly while Running and ahead of the other's own time by more than the quota (R31), and with exact views and the
default policy it may step exactly while it is not blocked. -/
def Obligations.OperationsWaitWhileNotEnabled : Prop :=
  (∀ (i : Instr) (s t : State), exec i s = .next t →
    (t.rsp = .waits ↔
      (i.op ∈ [Op.rdb, .rdw, .rdl, .wrb, .wrw, .wrl, .tick, .step] ∧ enabledC s = false) ∨
      (i.op = .cstep ∧ enabledM s = false)) ∧
    (t.rsp = .waits → t = { s with rsp := .waits })) ∧
  (∀ s : State, s.cfg.syncDepth = 0 → s.cfg.policy = .anyEnabled →
    enabledC s = !blockedC s ∧ enabledM s = !blockedM s) ∧
  (∀ s : State, s.sched ≠ .running → enabledC s = true ∧ enabledM s = true) ∧
  (∀ s : State, s.sched = .running →
    (enabledC s = true ↔
      timeC s ≤ (if s.cfg.syncDepth = 0 then timeM s else s.toC.view) + quotaTicks s.cfg ∧
      (s.cfg.policy = .anyEnabled ∨ s.active = some .c)) ∧
    (enabledM s = true ↔
      timeM s ≤ (if s.cfg.syncDepth = 0 then timeC s else s.toM.view) + quotaTicks s.cfg ∧
      (s.cfg.policy = .anyEnabled ∨ s.active = some .m))) ∧
  ∀ s : State,
    (blockedC s = true ↔ s.sched = .running ∧ timeC s > timeM s + quotaTicks s.cfg) ∧
    (blockedM s = true ↔ s.sched = .running ∧ timeM s > timeC s + quotaTicks s.cfg)

/-- R170: never are both contexts blocked, and with exact views some context may step in every Running state, under either
policy. -/
def Obligations.NoDeadlockBetweenTheContexts : Prop :=
  ∀ s : State, ¬ (blockedC s = true ∧ blockedM s = true) ∧
    (s.Inv → s.sched = .running → s.cfg.syncDepth = 0 → enabledC s = true ∨ enabledM s = true)

/-- R169. (a) A context that may step is at most the quota ahead. (b) When neither is blocked the skew is at most the quota.
(c) Along every run the skew stays within the quota and the largest advance of the context that is ahead. -/
def Obligations.SkewIsBounded : Prop :=
  (∀ s : State, s.Inv → s.sched = .running →
    (enabledC s = true → timeC s ≤ timeM s + quotaTicks s.cfg) ∧
    (enabledM s = true → timeM s ≤ timeC s + quotaTicks s.cfg) ∧
    (blockedC s = false → blockedM s = false →
      timeC s ≤ timeM s + quotaTicks s.cfg ∧ timeM s ≤ timeC s + quotaTicks s.cfg)) ∧
  ∀ (k nC nM : Nat) (s t : State), s.Inv → AdvancesWithin nC nM s → (s.sched = .running → SkewWithin nC nM s) →
    Runs k s t → t.sched = .running → SkewWithin nC nM t

/-- R171: from equal times, with nobody advancing the companion, C runs `floor(QUOTA / P_C)` TICKs unblocked, the next one
leaves it blocked, and the one after that has no step. -/
def Obligations.LoneCoprocessorBlocks : Prop :=
  ∀ s : State, s.cfg.wf = true → s.cfg.syncDepth = 0 → s.sched = .running → s.ctx ≠ none → mayRun .c s = true →
    timeC s = timeM s →
    (∀ k ≤ quotaTicks s.cfg / periodC s.cfg, ∃ t, execTimes .tick k s = .next t ∧ blockedC t = false ∧
      timeC t = timeC s + k * periodC s.cfg) ∧
    ∃ t, execTimes .tick (quotaTicks s.cfg / periodC s.cfg + 1) s = .next t ∧ blockedC t = true ∧
      exec .tick t = .next { t with rsp := .waits }

/-- R172: ACTIVE changes only at POWER, and at a synchronisation that leaves its own context blocked under the coroutine
policy. -/
def Obligations.ActiveChangesOnlyAtSynchronisation : Prop :=
  ∀ (i : Instr) (s t : State), exec i s = .next t → t.active =
    if i.op = .power then firstActive s.cfg
    else if s.cfg.policy = .anyEnabled ∨ t.rsp = .waits then s.active
    else if (i.op = .tick ∨ i.op = .step) ∧ blockedC t = true then some .m
    else if i.op = .cstep ∧ blockedM t = true then some .c
    else s.active

/-- R30: comparing the two times on the time base is comparing the elapsed seconds as rational numbers; and R162: the default
quota is one coprocessor cycle. -/
def Obligations.TimesCompareAsSeconds : Prop :=
  ∀ c : Config, c.wf = true →
    (∀ x y : Nat, x * periodC c ≤ y * periodM c ↔ (x : ℚ) / (c.freqC : ℚ) ≤ (y : ℚ) / (c.freqM : ℚ)) ∧
    0 < periodC c ∧ 0 < periodM c ∧ (c.quota = none → quotaTicks c = periodC c)

/-- R27 and R29: who writes the clocks. Outside POWER and UNLOAD the coprocessor's clock moves by exactly what TICK and STEP
say, and outside POWER the companion's by exactly what CSTEP says; an operation that waits moves neither. -/
def Obligations.ClocksAdvanceOnlyBySteps : Prop :=
  ∀ (i : Instr) (s t : State), exec i s = .next t →
    (i.op ≠ .power → i.op ≠ .unload → ∀ c, s.ctx = some c →
      ∃ c', t.ctx = some c' ∧ c'.cycC = c.cycC + if t.rsp = .waits then 0 else cyclesC i) ∧
    (i.op ≠ .power → t.cycM = s.cycM + if t.rsp = .waits then 0 else cyclesM i)

/-- R168: a blocked coprocessor is released by the companion's CSTEP or by the HOST's POWER or UNLOAD, and by no other
operation. -/
def Obligations.OnlyTheOthersReleaseTheCoprocessor : Prop :=
  ∀ (i : Instr) (s t : State), s.Inv → exec i s = .next t → blockedC s = true → blockedC t = false →
    i.op = .cstep ∨ i.op = .power ∨ i.op = .unload

/-- R79, from C to M: what C had issued at the coprocessor time `timeC s` has been performed, in order, wherever later the
companion may step at a time of its own more than the quota beyond it. -/
def Obligations.WritesAreVisibleWithinTheQuota : Prop :=
  ∀ (k : Nat) (s t : State), s.Inv → s.sched = .running → Runs k s t → t.sched = .running → enabledM t = true →
    timeM t > timeC s + quotaTicks s.cfg → issuedByC s <+: performedByC t

/-- R174 and R250: attaching the hook changes nothing but what is shown on HOOKIF: the step of a state and the step of the
state without the hook agree on everything else. -/
def Obligations.HookHasNoEffect : Prop :=
  ∀ s : State, mapNext withoutHook (step s) = mapNext withoutHook (step (withoutHook s))

/-- R174: the hook is shown the context once by each TICK that takes its step, before the instruction, and by nothing else.
-/
def Obligations.HookFiresOncePerTick : Prop :=
  ∀ (i : Instr) (s t : State), exec i s = .next t → t.hookOut = s.hookOut ++
    if i.op = .tick ∧ t.rsp ≠ .waits ∧ s.hookAttached = true then s.ctx.toList else []

/-- R219: under the clock views every operation that takes its step takes the same step in the normative model with exact
views, and every refusal is one there; so the refined block only waits longer. (How the channels behave is the model's
choice, log entry 9.) -/
def Obligations.ClockViewsRefineTheNormativeModel : Prop :=
  ∀ (i : Instr) (s : State), s.Inv →
    (∀ t, exec i s = .next t → t.rsp ≠ .waits → exec i (exactViews s) = .next (exactViews t)) ∧
    ∀ r, exec i s = .refused r → exec i (exactViews s) = .refused r

/-- R219's channels. An advance sent into a channel of depth 0 goes nowhere; into a channel with room it stands behind the
others; into a full one it makes room by delivering the oldest. A delivery takes the oldest event out of its channel and
raises the view to it; in the invariant the view becomes that event's time, and is never ahead of the truth. (How a full
channel behaves is the model's choice, log entry 9, and that a delivery from an empty channel does nothing, log entry 2.) -/
def Obligations.DeliveryRaisesTheViews : Prop :=
  (∀ (depth now : Nat) (k : SyncLink),
    (depth = 0 → k.send depth now = k) ∧
    (depth ≠ 0 → k.chan.length ≠ depth → k.send depth now = ⟨k.view, k.chan ++ [now]⟩) ∧
    ∀ e rest, k.chan.length = depth → k.chan = e :: rest → k.send depth now = ⟨max k.view e, rest ++ [now]⟩) ∧
  (∀ (s : State) (later : List Turn), s.turns = .deliverToC :: later →
    (s.toC.chan = [] → step s = .next { s with turns := later }) ∧
    ∀ e rest, s.toC.chan = e :: rest →
      step s = .next { s with turns := later, toC := ⟨max s.toC.view e, rest⟩ } ∧
      (s.Inv → max s.toC.view e = e ∧ e ≤ timeM s)) ∧
  ∀ (s : State) (later : List Turn), s.turns = .deliverToM :: later →
    (s.toM.chan = [] → step s = .next { s with turns := later }) ∧
    ∀ e rest, s.toM.chan = e :: rest →
      step s = .next { s with turns := later, toM := ⟨max s.toM.view e, rest⟩ } ∧
      (s.Inv → s.sched = .running → max s.toM.view e = e ∧ e ≤ timeC s)

/-- The frame of TICK, STEP, EXCQ and CSTEP. EXCQ changes its answer only. CSTEP changes CYC_M, ACTIVE and C's view's
channel. STEP and TICK change CTX, ACTIVE, M's view's channel, the FIFO, storage and the bus's history, and TICK what the
hook was shown. A byte changes only if a transaction performed in this very step stores to it. -/
def Obligations.SchedulerOperationsLeaveTheRestAlone : Prop :=
  ∀ (i : Instr) (s t : State), i.op ∈ [Op.tick, .step, .excq, .cstep] → s.evq.length ≤ s.cfg.evqDepth →
    exec i s = .next t →
    t =
      { s with
        ctx := if i.op = .tick ∨ i.op = .step then t.ctx else s.ctx
        evq := if i.op = .tick ∨ i.op = .step then t.evq else s.evq
        mem := if i.op = .tick ∨ i.op = .step then t.mem else s.mem
        trace := if i.op = .tick ∨ i.op = .step then t.trace else s.trace
        toM := if i.op = .tick ∨ i.op = .step then t.toM else s.toM
        active := if i.op = .excq then s.active else t.active
        cycM := if i.op = .cstep then t.cycM else s.cycM
        toC := if i.op = .cstep then t.toC else s.toC
        hookOut := if i.op = .tick then t.hookOut else s.hookOut
        rsp := t.rsp } ∧
    (i.op ≠ .tick → ∀ c, s.ctx = some c → ∃ c', t.ctx = some c' ∧ c'.pc = c.pc ∧ c'.sp = c.sp ∧ c'.regs = c.regs) ∧
    ∀ n, (∀ e ∈ t.trace.drop s.trace.length, storesByte e.txn n = false) → t.mem.read n = s.mem.read n

/-! ## The lifecycle -/

/-- R191 with R107: LOAD while BOOT is absent makes the cells of R192, sets Unstarted and registers the debug node, and
changes nothing else; with BOOT present it is refused. (That LOAD leaves the views and their channels is the model's choice,
log entry 9.) -/
def Obligations.LoadResult : Prop :=
  ∀ (a d : Long) (src : Option (List Byte)) (s : State),
    decode ⟨BitVec.ofNat 68 (0x8 * 2 ^ 64 + a.toNat * 2 ^ 32 + d.toNat), src⟩ = .ok (.load src) ∧
    (s.boot = none → exec (.load src) s = .next
      { s with
        boot := some (bootCellsFrom s.cfg.bootCells (src.getD []))
        sched := .unstarted
        dbgNode := true
        rsp := .none }) ∧
    ∀ cells, s.boot = some cells → exec (.load src) s = .refused .loadWhileLoaded

/-- R192, cell by cell: `{b[2i], b[2i+1]}` while both bytes exist, `{b[2i], 0}` for a last half, 0 beyond; never more than
the capacity. -/
def Obligations.BootCellsFollowTheByteStream : Prop :=
  ∀ (cells : Nat) (bytes : List Byte),
    (bootCellsFrom cells bytes).length = cells ∧
    ∀ i < cells, (bootCellsFrom cells bytes)[i]? = some
      (if 2 * i + 1 < bytes.length then BitVec.ofNat 16 ((bytes.getD (2 * i) 0).toNat * 256 + (bytes.getD (2 * i + 1) 0).toNat)
        else if 2 * i + 1 = bytes.length then BitVec.ofNat 16 ((bytes.getD (2 * i) 0).toNat * 256)
        else 0)

/-- R194: POWER with a boot image performs what is posted, creates the context from cells 0 to 3, and zeroes both clocks
(R194; log entry 14) and both views (log entry 9), whatever SCHED was and whether or not C was blocked; without one it is
refused. (A command of C that waits stays among the inputs: the model's choice, log entry 23. That a byte stream beside the
word is ignored: log entry 22.) -/
def Obligations.PowerResult : Prop :=
  ∀ (a d : Long) (src : Option (List Byte)) (s : State),
    let r := decide (d.toNat % 2 = 1)
    decode ⟨BitVec.ofNat 68 (0xA * 2 ^ 64 + a.toNat * 2 ^ 32 + d.toNat), src⟩ = .ok (.power r) ∧
    (∀ c0 c1 c2 c3 more, s.boot = some (c0 :: c1 :: c2 :: c3 :: more) → exec (.power r) s = .next
      { s with
        evq := []
        mem := storeAll s.cfg s.mem s.evq
        trace := s.trace ++ s.evq.map postedEvent
        sched := .running
        ctx := some ⟨BitVec.ofNat 32 (c0.toNat * 65536 + c1.toNat), BitVec.ofNat 32 (c2.toNat * 65536 + c3.toNat),
          s.cfg.regsReset, 0⟩
        cycM := 0
        active := firstActive s.cfg
        toC := ⟨0, []⟩
        toM := ⟨0, []⟩
        rsp := .none }) ∧
    (s.boot = none → exec (.power r) s = .refused .powerWhileUnloaded)

/-- R195: after LOAD of a stream of at least eight bytes and POWER, PC is bytes 0 to 3 and SP bytes 4 to 7, most significant
first; after LOAD with no stream both are 0. -/
def Obligations.BootVectorComesFromTheByteStream : Prop :=
  ∀ (s : State) (r : Bool), s.boot = none → 4 ≤ s.cfg.bootCells →
    (∀ b0 b1 b2 b3 b4 b5 b6 b7 more,
      ∃ t u, exec (.load (some (b0 :: b1 :: b2 :: b3 :: b4 :: b5 :: b6 :: b7 :: more))) s = .next t ∧
        exec (.power r) t = .next u ∧
        u.ctx = some ⟨b0 ++ b1 ++ b2 ++ b3, b4 ++ b5 ++ b6 ++ b7, s.cfg.regsReset, 0⟩) ∧
    ∃ t u, exec (.load none) s = .next t ∧ exec (.power r) t = .next u ∧ u.ctx = some ⟨0, 0, s.cfg.regsReset, 0⟩

/-- R273: a second POWER, with either flag (R196), leaves the state as the first one left it. -/
def Obligations.PowerIsIdempotent : Prop :=
  ∀ (s t : State) (r r' : Bool), exec (.power r) s = .next t →
    exec (.power r') t = .next t ∧ exec (.power r') s = .next t

/-- R193: UNLOAD in every state: posted writes are performed, the debug bits cleared, BOOT released, a running context
discarded; CYC_M and the views (log entry 9) stay; a second UNLOAD changes nothing. (A command of C that waits stays among the
inputs: the model's choice, log entry 23. That a byte stream beside the word is ignored: log entry 22.) -/
def Obligations.UnloadResult : Prop :=
  ∀ (a d : Long) (src : Option (List Byte)) (s : State),
    decode ⟨BitVec.ofNat 68 (0x9 * 2 ^ 64 + a.toNat * 2 ^ 32 + d.toNat), src⟩ = .ok .unload ∧
    ∃ t, exec .unload s = .next t ∧ exec .unload t = .next t ∧ t =
      { s with
        evq := []
        mem := storeAll s.cfg s.mem s.evq
        trace := s.trace ++ s.evq.map postedEvent
        hookAttached := false
        dbgNode := false
        boot := none
        ctx := if s.sched = .running then none else s.ctx
        sched := if s.sched = .running then .halted else s.sched
        rsp := .none }

/-- The frame of LOAD, POWER and UNLOAD, byte by byte: LOAD changes no byte of the bus; POWER and UNLOAD only bytes that a
posted write stores to. The parameters, the queues and what the hook was shown stay; LOAD leaves CTX, both clocks, the FIFO
and the bus's history; POWER leaves BOOT and the debug bits; UNLOAD leaves CYC_M, ACTIVE and the views. (That LOAD and UNLOAD
leave the views and their channels is the model's choice, log entry 9, and so is that a command of C that waits stays among
the inputs at POWER and UNLOAD, log entry 23.) -/
def Obligations.LifecycleOperationsLeaveTheRestAlone : Prop :=
  ∀ (i : Instr) (s t : State), i.op ∈ [Op.load, .power, .unload] → exec i s = .next t →
    (t.cfg = s.cfg ∧ t.inputs = s.inputs ∧ t.turns = s.turns ∧ t.hookOut = s.hookOut) ∧
    (i.op = .load → t.ctx = s.ctx ∧ t.cycM = s.cycM ∧ t.evq = s.evq ∧ t.trace = s.trace ∧ t.active = s.active ∧
      t.hookAttached = s.hookAttached ∧ t.toC = s.toC ∧ t.toM = s.toM ∧ ∀ n, t.mem.read n = s.mem.read n) ∧
    (i.op = .power → t.boot = s.boot ∧ t.dbgNode = s.dbgNode ∧ t.hookAttached = s.hookAttached) ∧
    (i.op = .unload → t.cycM = s.cycM ∧ t.active = s.active ∧ t.toC = s.toC ∧ t.toM = s.toM) ∧
    ∀ n, (∀ w ∈ s.evq, storesByte (postedTxn w) n = false) → t.mem.read n = s.mem.read n

/-- R190: how each operation that has a step moves the pair (BOOT present, SCHED). -/
def Obligations.LifecycleFollowsTheTable : Prop :=
  ∀ (i : Instr) (s t : State), exec i s = .next t → (t.boot.isSome, t.sched) =
    match i with
    | .load _ => (true, .unstarted)
    | .power _ => (true, .running)
    | .unload => (false, if s.sched = .running then .halted else s.sched)
    | _ => (s.boot.isSome, s.sched)

/-- R198 (a) to (c): in a state of the invariant exactly these operations are refused, each by its own name; everything else
is total. (TICK and STEP refused, not waiting, while not Running: log entry 8.) -/
def Obligations.OperationsOutsideTheSessionAreRefused : Prop :=
  ∀ (i : Instr) (s : State) (r : Refusal), s.Inv →
    (exec i s = .refused r ↔
      (i.op = .load ∧ s.boot ≠ none ∧ r = .loadWhileLoaded) ∨
      (i.op = .power ∧ s.boot = none ∧ r = .powerWhileUnloaded) ∨
      (i.op = .tick ∧ s.sched ≠ .running ∧ r = .tickNotRunning) ∨
      (i.op = .step ∧ s.sched ≠ .running ∧ r = .stepNotRunning))

/-- R21: along every run BOOT changes only from absent to an image of BOOT_CELLS cells or from present to absent; a cell of a
present image never changes. -/
def Obligations.BootImageIsReadOnly : Prop :=
  ∀ s t : State, step s = .next t →
    t.boot = s.boot ∨ t.boot = none ∨ (s.boot = none ∧ ∀ cells, t.boot = some cells → cells.length = s.cfg.bootCells)

/-- R197: a turn of the HOST with the tooling's request sets HOOK_ATTACHED, in every state, and changes nothing else. (The
request as an input is the model's, log entry 1.) -/
def Obligations.ToolingAttachesTheHook : Prop :=
  ∀ (s : State) (later : List Turn) (attach : Bool) (rest : List Input),
    s.turns = .agent .host :: later → takeFirst .host s.inputs = some (.hook attach, rest) →
    step s = .next { s with turns := later, inputs := rest, hookAttached := attach, rsp := .none }

/-! ## Reset and the invariant -/

/-- R270 and R271, the column after hardware reset, for any parameters. The queues of the outside world, its links, and the
byte an unlisted address reads as are the model's (log entries 1, 2, 9 and 4). -/
def Obligations.ResetState : Prop :=
  State.reset = State.resetWith Config.machine ∧
  ∀ cfg : Config,
    let s := State.resetWith cfg
    s.boot = none ∧ s.sched = .unstarted ∧ s.ctx = none ∧ s.cycM = 0 ∧ blockedC s = false ∧ blockedM s = false ∧
    excPending s = false ∧ s.evq = [] ∧ s.hookAttached = false ∧ s.dbgNode = false ∧ s.active = firstActive cfg ∧
    ∀ n, s.mem.read n = 0

/-- The invariant holds right after reset, for the machine and for every legal choice of parameters. -/
def Obligations.InvariantHoldsAtReset : Prop :=
  State.reset.Inv ∧ ∀ cfg : Config, cfg.wf = true → (State.resetWith cfg).Inv

/-- Every step keeps the invariant: the canonical form of storage, CTX present exactly while Running, BOOT of BOOT_CELLS
cells, the FIFO within its depth and empty while C waits, the active context not blocked, the views never ahead of the
clocks, and only well-formed transactions on the bus. -/
def Obligations.EveryStepKeepsTheInvariant : Prop :=
  ∀ s t : State, s.Inv → step s = .next t → t.Inv
end

