-- ==== Sys2Proof/Laws/Memory.lean ====
section
/-!
SUPPORT. The laws of memory: read after write, and that every memory operation keeps the canonical form.
-/

namespace Sys2Proof.Machine

theorem Memory.read_nil (n : Nat) : Memory.read [] n = 0 := rfl

/-- A write leaves every other byte alone, whatever the memory. -/
theorem Memory.read_write_other (m : Memory) {n k : Nat} (h : n ≠ k) (b : Byte) :
    (m.write n b).read k = m.read k := by
  induction m with
  | nil =>
    unfold Memory.write
    split
    · rfl
    · simp [Memory.read, h]
  | cons e rest ih =>
    obtain ⟨j, v⟩ := e
    unfold Memory.write
    split_ifs <;> simp_all [Memory.read]

/-- Below its first address a canonical memory lists nothing. -/
theorem Memory.read_below {lo : Nat} {m : Memory} (hm : m.wfFrom lo = true) {n : Nat} (h : n < lo) : m.read n = 0 := by
  induction m generalizing lo with
  | nil => rfl
  | cons e rest ih =>
    obtain ⟨j, v⟩ := e
    simp only [Memory.wfFrom, Bool.and_eq_true, decide_eq_true_eq] at hm
    have hj : j ≠ n := by omega
    simp only [Memory.read, if_neg hj]
    exact ih hm.2 (by omega)

/-- A write to a canonical memory is read back. -/
theorem Memory.read_write_same_from {lo : Nat} {m : Memory} (hm : m.wfFrom lo = true) (n : Nat) (b : Byte) :
    (m.write n b).read n = b := by
  induction m generalizing lo with
  | nil =>
    unfold Memory.write
    split
    · simp_all [Memory.read]
    · simp [Memory.read]
  | cons e rest ih =>
    obtain ⟨j, v⟩ := e
    simp only [Memory.wfFrom, Bool.and_eq_true, decide_eq_true_eq] at hm
    have below : n ≤ j → Memory.read rest n = 0 := fun h => Memory.read_below hm.2 (by omega)
    unfold Memory.write
    split_ifs with h1 h2 h3 h4
    · have hj : j ≠ n := by omega
      simp [Memory.read, hj, below (by omega), h2, Memory.unlisted]
    · simp [Memory.read]
    · simp [below (by omega), h4, Memory.unlisted]
    · simp [Memory.read]
    · have hj : j ≠ n := by omega
      simpa [Memory.read, hj] using ih hm.2

theorem Memory.read_write_same {m : Memory} (hm : m.wf = true) (n : Nat) (b : Byte) : (m.write n b).read n = b :=
  Memory.read_write_same_from hm n b

theorem Memory.wfFrom_mono {lo lo' : Nat} {m : Memory} (h : lo' ≤ lo) (hm : m.wfFrom lo = true) :
    m.wfFrom lo' = true := by
  cases m with
  | nil => rfl
  | cons e rest =>
    obtain ⟨j, v⟩ := e
    simp only [Memory.wfFrom, Bool.and_eq_true, decide_eq_true_eq] at hm ⊢
    exact ⟨⟨⟨by omega, hm.1.1.2⟩, hm.1.2⟩, hm.2⟩

/-- A write inside the address space keeps the canonical form. -/
theorem Memory.wfFrom_write {lo : Nat} {m : Memory} (hm : m.wfFrom lo = true) {n : Nat} (hlo : lo ≤ n)
    (hn : n < 2 ^ 32) (b : Byte) : (m.write n b).wfFrom lo = true := by
  induction m generalizing lo with
  | nil =>
    unfold Memory.write
    split <;> simp_all [Memory.wfFrom]
  | cons e rest ih =>
    obtain ⟨j, v⟩ := e
    have hm' := hm
    simp only [Memory.wfFrom, Bool.and_eq_true, decide_eq_true_eq] at hm
    unfold Memory.write
    split_ifs with h1 h2 h3 h4
    · exact hm'
    · simp only [Memory.wfFrom, Bool.and_eq_true, decide_eq_true_eq]
      exact ⟨⟨⟨hlo, hn⟩, by simpa using h2⟩, ⟨⟨by omega, hm.1.1.2⟩, hm.1.2⟩, hm.2⟩
    · exact Memory.wfFrom_mono (by omega) hm.2
    · simp only [Memory.wfFrom, Bool.and_eq_true, decide_eq_true_eq]
      exact ⟨⟨⟨hlo, hn⟩, by simpa using h4⟩, by simpa [h3] using hm.2⟩
    · simp only [Memory.wfFrom, Bool.and_eq_true, decide_eq_true_eq]
      exact ⟨hm.1, ih hm.2 (by omega)⟩

theorem Memory.wf_write {m : Memory} (hm : m.wf = true) {n : Nat} (hn : n < 2 ^ 32) (b : Byte) :
    (m.write n b).wf = true :=
  Memory.wfFrom_write hm (Nat.zero_le n) hn b

/-- An even address is below the last byte, so the odd byte of its cell exists. -/
theorem even_succ_lt {a : Addr} (h : a.getLsbD 0 = false) : a.toNat + 1 < 2 ^ 32 := by
  have h2 : a.toNat % 2 = 0 := by
    have := BitVec.getLsbD (x := a) (i := 0)
    simp only [BitVec.getLsbD, Nat.testBit_zero, decide_eq_false_iff_not] at h
    omega
  have := a.isLt
  omega

/-- A bus transaction stored at an even address keeps the canonical form. -/
theorem Memory.wf_store {m : Memory} (hm : m.wf = true) {t : BusTxn} (ht : t.addr.getLsbD 0 = false) :
    (m.store t).wf = true := by
  have h1 := even_succ_lt ht
  cases hu : t.upper <;> cases hl : t.lower <;> simp only [Memory.store, hu, hl, if_true, if_false, Bool.false_eq_true]
  · exact hm
  · exact Memory.wf_write hm h1 _
  · exact Memory.wf_write hm (by omega) _
  · exact Memory.wf_write (Memory.wf_write hm (by omega) _) h1 _

/-- A byte that a transaction does not store to keeps its value. -/
theorem Memory.read_store_other (m : Memory) {t : BusTxn} {n : Nat} (hw : t.write = true)
    (h : storesByte t n = false) : (m.store t).read n = m.read n := by
  simp only [storesByte, hw, Bool.true_and, Bool.or_eq_false_iff, Bool.and_eq_false_imp, beq_eq_false_iff_ne] at h
  cases hu : t.upper <;> cases hl : t.lower <;> simp only [Memory.store, hu, hl, if_true, if_false, Bool.false_eq_true]
  · rw [Memory.read_write_other _ (h.2 hl)]
  · rw [Memory.read_write_other _ (h.1 hu)]
  · rw [Memory.read_write_other _ (h.2 hl), Memory.read_write_other _ (h.1 hu)]

theorem Memory.read_storageAfter_other (c : Config) (m : Memory) {t : BusTxn} {n : Nat} (h : storesByte t n = false) :
    (storageAfter c m t).read n = m.read n := by
  unfold storageAfter
  split_ifs with hw
  · exact Memory.read_store_other m (by simpa using (Bool.and_eq_true_iff.mp hw).1) h
  · rfl

theorem Memory.wf_storageAfter {c : Config} {m : Memory} (hm : m.wf = true) {t : BusTxn}
    (ht : t.addr.getLsbD 0 = false) : (storageAfter c m t).wf = true := by
  unfold storageAfter
  split_ifs
  · exact Memory.wf_store hm ht
  · exact hm

/-- The even byte of the cell a transaction stores to. -/
theorem Memory.read_store_upper {m : Memory} (hm : m.wf = true) {t : BusTxn} (hu : t.upper = true) :
    (m.store t).read t.addr.toNat = upperLane t.data := by
  unfold Memory.store
  simp only [hu, if_true]
  split_ifs
  · rw [Memory.read_write_other _ (by omega), Memory.read_write_same hm]
  · rw [Memory.read_write_same hm]

/-- The odd byte of the cell a transaction stores to. -/
theorem Memory.read_store_lower {m : Memory} (hm : m.wf = true) {t : BusTxn} (ht : t.addr.getLsbD 0 = false)
    (hl : t.lower = true) : (m.store t).read (t.addr.toNat + 1) = lowerLane t.data := by
  have h1 := even_succ_lt ht
  unfold Memory.store
  simp only [hl, if_true]
  split_ifs
  · rw [Memory.read_write_same (Memory.wf_write hm (by omega) _)]
  · rw [Memory.read_write_same hm]

end Sys2Proof.Machine
end

