-- ==== Sys2Proof/Laws/State.lean ====
section
/-!
SUPPORT. One lemma per field per update of the state, each true by `rfl`, so that no later proof unfolds a record update.
-/

namespace Sys2Proof.Machine

/-! ## answer -/

@[simp] theorem answer_cfg (r : Response) (s : State) : (s.answer r).cfg = s.cfg := rfl
@[simp] theorem answer_boot (r : Response) (s : State) : (s.answer r).boot = s.boot := rfl
@[simp] theorem answer_sched (r : Response) (s : State) : (s.answer r).sched = s.sched := rfl
@[simp] theorem answer_ctx (r : Response) (s : State) : (s.answer r).ctx = s.ctx := rfl
@[simp] theorem answer_cycM (r : Response) (s : State) : (s.answer r).cycM = s.cycM := rfl
@[simp] theorem answer_evq (r : Response) (s : State) : (s.answer r).evq = s.evq := rfl
@[simp] theorem answer_hookAttached (r : Response) (s : State) : (s.answer r).hookAttached = s.hookAttached := rfl
@[simp] theorem answer_dbgNode (r : Response) (s : State) : (s.answer r).dbgNode = s.dbgNode := rfl
@[simp] theorem answer_active (r : Response) (s : State) : (s.answer r).active = s.active := rfl
@[simp] theorem answer_toC (r : Response) (s : State) : (s.answer r).toC = s.toC := rfl
@[simp] theorem answer_toM (r : Response) (s : State) : (s.answer r).toM = s.toM := rfl
@[simp] theorem answer_mem (r : Response) (s : State) : (s.answer r).mem = s.mem := rfl
@[simp] theorem answer_trace (r : Response) (s : State) : (s.answer r).trace = s.trace := rfl
@[simp] theorem answer_rsp (r : Response) (s : State) : (s.answer r).rsp = r := rfl
@[simp] theorem answer_hookOut (r : Response) (s : State) : (s.answer r).hookOut = s.hookOut := rfl
@[simp] theorem answer_inputs (r : Response) (s : State) : (s.answer r).inputs = s.inputs := rfl
@[simp] theorem answer_turns (r : Response) (s : State) : (s.answer r).turns = s.turns := rfl

/-! ## waiting -/

@[simp] theorem waiting_cfg (s : State) : (s.waiting).cfg = s.cfg := rfl
@[simp] theorem waiting_boot (s : State) : (s.waiting).boot = s.boot := rfl
@[simp] theorem waiting_sched (s : State) : (s.waiting).sched = s.sched := rfl
@[simp] theorem waiting_ctx (s : State) : (s.waiting).ctx = s.ctx := rfl
@[simp] theorem waiting_cycM (s : State) : (s.waiting).cycM = s.cycM := rfl
@[simp] theorem waiting_evq (s : State) : (s.waiting).evq = s.evq := rfl
@[simp] theorem waiting_hookAttached (s : State) : (s.waiting).hookAttached = s.hookAttached := rfl
@[simp] theorem waiting_dbgNode (s : State) : (s.waiting).dbgNode = s.dbgNode := rfl
@[simp] theorem waiting_active (s : State) : (s.waiting).active = s.active := rfl
@[simp] theorem waiting_toC (s : State) : (s.waiting).toC = s.toC := rfl
@[simp] theorem waiting_toM (s : State) : (s.waiting).toM = s.toM := rfl
@[simp] theorem waiting_mem (s : State) : (s.waiting).mem = s.mem := rfl
@[simp] theorem waiting_trace (s : State) : (s.waiting).trace = s.trace := rfl
@[simp] theorem waiting_rsp (s : State) : (s.waiting).rsp = .waits := rfl
@[simp] theorem waiting_hookOut (s : State) : (s.waiting).hookOut = s.hookOut := rfl
@[simp] theorem waiting_inputs (s : State) : (s.waiting).inputs = s.inputs := rfl
@[simp] theorem waiting_turns (s : State) : (s.waiting).turns = s.turns := rfl

/-! ## busWrite -/

@[simp] theorem busWrite_cfg (x : Context) (t : BusTxn) (s : State) : (busWrite x t s).cfg = s.cfg := rfl
@[simp] theorem busWrite_boot (x : Context) (t : BusTxn) (s : State) : (busWrite x t s).boot = s.boot := rfl
@[simp] theorem busWrite_sched (x : Context) (t : BusTxn) (s : State) : (busWrite x t s).sched = s.sched := rfl
@[simp] theorem busWrite_ctx (x : Context) (t : BusTxn) (s : State) : (busWrite x t s).ctx = s.ctx := rfl
@[simp] theorem busWrite_cycM (x : Context) (t : BusTxn) (s : State) : (busWrite x t s).cycM = s.cycM := rfl
@[simp] theorem busWrite_evq (x : Context) (t : BusTxn) (s : State) : (busWrite x t s).evq = s.evq := rfl
@[simp] theorem busWrite_hookAttached (x : Context) (t : BusTxn) (s : State) : (busWrite x t s).hookAttached = s.hookAttached := rfl
@[simp] theorem busWrite_dbgNode (x : Context) (t : BusTxn) (s : State) : (busWrite x t s).dbgNode = s.dbgNode := rfl
@[simp] theorem busWrite_active (x : Context) (t : BusTxn) (s : State) : (busWrite x t s).active = s.active := rfl
@[simp] theorem busWrite_toC (x : Context) (t : BusTxn) (s : State) : (busWrite x t s).toC = s.toC := rfl
@[simp] theorem busWrite_toM (x : Context) (t : BusTxn) (s : State) : (busWrite x t s).toM = s.toM := rfl
@[simp] theorem busWrite_mem (x : Context) (t : BusTxn) (s : State) : (busWrite x t s).mem = storageAfter s.cfg s.mem t := rfl
@[simp] theorem busWrite_trace (x : Context) (t : BusTxn) (s : State) : (busWrite x t s).trace = s.trace ++ [⟨x, t⟩] := rfl
@[simp] theorem busWrite_rsp (x : Context) (t : BusTxn) (s : State) : (busWrite x t s).rsp = s.rsp := rfl
@[simp] theorem busWrite_hookOut (x : Context) (t : BusTxn) (s : State) : (busWrite x t s).hookOut = s.hookOut := rfl
@[simp] theorem busWrite_inputs (x : Context) (t : BusTxn) (s : State) : (busWrite x t s).inputs = s.inputs := rfl
@[simp] theorem busWrite_turns (x : Context) (t : BusTxn) (s : State) : (busWrite x t s).turns = s.turns := rfl

/-! ## busRead -/

@[simp] theorem busRead_cfg (x : Context) (u l : Bool) (a : Addr) (s : State) : (busRead x u l a s).1.cfg = s.cfg := rfl
@[simp] theorem busRead_boot (x : Context) (u l : Bool) (a : Addr) (s : State) : (busRead x u l a s).1.boot = s.boot := rfl
@[simp] theorem busRead_sched (x : Context) (u l : Bool) (a : Addr) (s : State) : (busRead x u l a s).1.sched = s.sched := rfl
@[simp] theorem busRead_ctx (x : Context) (u l : Bool) (a : Addr) (s : State) : (busRead x u l a s).1.ctx = s.ctx := rfl
@[simp] theorem busRead_cycM (x : Context) (u l : Bool) (a : Addr) (s : State) : (busRead x u l a s).1.cycM = s.cycM := rfl
@[simp] theorem busRead_evq (x : Context) (u l : Bool) (a : Addr) (s : State) : (busRead x u l a s).1.evq = s.evq := rfl
@[simp] theorem busRead_hookAttached (x : Context) (u l : Bool) (a : Addr) (s : State) :
    (busRead x u l a s).1.hookAttached = s.hookAttached := rfl
@[simp] theorem busRead_dbgNode (x : Context) (u l : Bool) (a : Addr) (s : State) : (busRead x u l a s).1.dbgNode = s.dbgNode := rfl
@[simp] theorem busRead_active (x : Context) (u l : Bool) (a : Addr) (s : State) : (busRead x u l a s).1.active = s.active := rfl
@[simp] theorem busRead_toC (x : Context) (u l : Bool) (a : Addr) (s : State) : (busRead x u l a s).1.toC = s.toC := rfl
@[simp] theorem busRead_toM (x : Context) (u l : Bool) (a : Addr) (s : State) : (busRead x u l a s).1.toM = s.toM := rfl
@[simp] theorem busRead_mem (x : Context) (u l : Bool) (a : Addr) (s : State) : (busRead x u l a s).1.mem = s.mem := rfl
@[simp] theorem busRead_trace (x : Context) (u l : Bool) (a : Addr) (s : State) :
    (busRead x u l a s).1.trace = s.trace ++ [⟨x, readTxn u l a⟩] := rfl
@[simp] theorem busRead_rsp (x : Context) (u l : Bool) (a : Addr) (s : State) : (busRead x u l a s).1.rsp = s.rsp := rfl
@[simp] theorem busRead_hookOut (x : Context) (u l : Bool) (a : Addr) (s : State) : (busRead x u l a s).1.hookOut = s.hookOut := rfl
@[simp] theorem busRead_inputs (x : Context) (u l : Bool) (a : Addr) (s : State) : (busRead x u l a s).1.inputs = s.inputs := rfl
@[simp] theorem busRead_turns (x : Context) (u l : Bool) (a : Addr) (s : State) : (busRead x u l a s).1.turns = s.turns := rfl

/-! ## performPosted -/

@[simp] theorem performPosted_cfg (w : Posted) (s : State) : (performPosted w s).cfg = s.cfg := rfl
@[simp] theorem performPosted_boot (w : Posted) (s : State) : (performPosted w s).boot = s.boot := rfl
@[simp] theorem performPosted_sched (w : Posted) (s : State) : (performPosted w s).sched = s.sched := rfl
@[simp] theorem performPosted_ctx (w : Posted) (s : State) : (performPosted w s).ctx = s.ctx := rfl
@[simp] theorem performPosted_cycM (w : Posted) (s : State) : (performPosted w s).cycM = s.cycM := rfl
@[simp] theorem performPosted_evq (w : Posted) (s : State) : (performPosted w s).evq = s.evq := rfl
@[simp] theorem performPosted_hookAttached (w : Posted) (s : State) : (performPosted w s).hookAttached = s.hookAttached := rfl
@[simp] theorem performPosted_dbgNode (w : Posted) (s : State) : (performPosted w s).dbgNode = s.dbgNode := rfl
@[simp] theorem performPosted_active (w : Posted) (s : State) : (performPosted w s).active = s.active := rfl
@[simp] theorem performPosted_toC (w : Posted) (s : State) : (performPosted w s).toC = s.toC := rfl
@[simp] theorem performPosted_toM (w : Posted) (s : State) : (performPosted w s).toM = s.toM := rfl
@[simp] theorem performPosted_mem (w : Posted) (s : State) : (performPosted w s).mem = storageAfter s.cfg s.mem (postedTxn w) := rfl
@[simp] theorem performPosted_trace (w : Posted) (s : State) : (performPosted w s).trace = s.trace ++ [postedEvent w] := rfl
@[simp] theorem performPosted_rsp (w : Posted) (s : State) : (performPosted w s).rsp = s.rsp := rfl
@[simp] theorem performPosted_hookOut (w : Posted) (s : State) : (performPosted w s).hookOut = s.hookOut := rfl
@[simp] theorem performPosted_inputs (w : Posted) (s : State) : (performPosted w s).inputs = s.inputs := rfl
@[simp] theorem performPosted_turns (w : Posted) (s : State) : (performPosted w s).turns = s.turns := rfl

/-! ## deliverToC -/

@[simp] theorem deliverToC_cfg (s : State) : (deliverToC s).cfg = s.cfg := rfl
@[simp] theorem deliverToC_boot (s : State) : (deliverToC s).boot = s.boot := rfl
@[simp] theorem deliverToC_sched (s : State) : (deliverToC s).sched = s.sched := rfl
@[simp] theorem deliverToC_ctx (s : State) : (deliverToC s).ctx = s.ctx := rfl
@[simp] theorem deliverToC_cycM (s : State) : (deliverToC s).cycM = s.cycM := rfl
@[simp] theorem deliverToC_evq (s : State) : (deliverToC s).evq = s.evq := rfl
@[simp] theorem deliverToC_hookAttached (s : State) : (deliverToC s).hookAttached = s.hookAttached := rfl
@[simp] theorem deliverToC_dbgNode (s : State) : (deliverToC s).dbgNode = s.dbgNode := rfl
@[simp] theorem deliverToC_active (s : State) : (deliverToC s).active = s.active := rfl
@[simp] theorem deliverToC_toC (s : State) : (deliverToC s).toC = s.toC.deliver := rfl
@[simp] theorem deliverToC_toM (s : State) : (deliverToC s).toM = s.toM := rfl
@[simp] theorem deliverToC_mem (s : State) : (deliverToC s).mem = s.mem := rfl
@[simp] theorem deliverToC_trace (s : State) : (deliverToC s).trace = s.trace := rfl
@[simp] theorem deliverToC_rsp (s : State) : (deliverToC s).rsp = s.rsp := rfl
@[simp] theorem deliverToC_hookOut (s : State) : (deliverToC s).hookOut = s.hookOut := rfl
@[simp] theorem deliverToC_inputs (s : State) : (deliverToC s).inputs = s.inputs := rfl
@[simp] theorem deliverToC_turns (s : State) : (deliverToC s).turns = s.turns := rfl

/-! ## deliverToM -/

@[simp] theorem deliverToM_cfg (s : State) : (deliverToM s).cfg = s.cfg := rfl
@[simp] theorem deliverToM_boot (s : State) : (deliverToM s).boot = s.boot := rfl
@[simp] theorem deliverToM_sched (s : State) : (deliverToM s).sched = s.sched := rfl
@[simp] theorem deliverToM_ctx (s : State) : (deliverToM s).ctx = s.ctx := rfl
@[simp] theorem deliverToM_cycM (s : State) : (deliverToM s).cycM = s.cycM := rfl
@[simp] theorem deliverToM_evq (s : State) : (deliverToM s).evq = s.evq := rfl
@[simp] theorem deliverToM_hookAttached (s : State) : (deliverToM s).hookAttached = s.hookAttached := rfl
@[simp] theorem deliverToM_dbgNode (s : State) : (deliverToM s).dbgNode = s.dbgNode := rfl
@[simp] theorem deliverToM_active (s : State) : (deliverToM s).active = s.active := rfl
@[simp] theorem deliverToM_toC (s : State) : (deliverToM s).toC = s.toC := rfl
@[simp] theorem deliverToM_toM (s : State) : (deliverToM s).toM = s.toM.deliver := rfl
@[simp] theorem deliverToM_mem (s : State) : (deliverToM s).mem = s.mem := rfl
@[simp] theorem deliverToM_trace (s : State) : (deliverToM s).trace = s.trace := rfl
@[simp] theorem deliverToM_rsp (s : State) : (deliverToM s).rsp = s.rsp := rfl
@[simp] theorem deliverToM_hookOut (s : State) : (deliverToM s).hookOut = s.hookOut := rfl
@[simp] theorem deliverToM_inputs (s : State) : (deliverToM s).inputs = s.inputs := rfl
@[simp] theorem deliverToM_turns (s : State) : (deliverToM s).turns = s.turns := rfl

/-! ## setHook -/

@[simp] theorem setHook_cfg (b : Bool) (s : State) : (setHook b s).cfg = s.cfg := rfl
@[simp] theorem setHook_boot (b : Bool) (s : State) : (setHook b s).boot = s.boot := rfl
@[simp] theorem setHook_sched (b : Bool) (s : State) : (setHook b s).sched = s.sched := rfl
@[simp] theorem setHook_ctx (b : Bool) (s : State) : (setHook b s).ctx = s.ctx := rfl
@[simp] theorem setHook_cycM (b : Bool) (s : State) : (setHook b s).cycM = s.cycM := rfl
@[simp] theorem setHook_evq (b : Bool) (s : State) : (setHook b s).evq = s.evq := rfl
@[simp] theorem setHook_hookAttached (b : Bool) (s : State) : (setHook b s).hookAttached = b := rfl
@[simp] theorem setHook_dbgNode (b : Bool) (s : State) : (setHook b s).dbgNode = s.dbgNode := rfl
@[simp] theorem setHook_active (b : Bool) (s : State) : (setHook b s).active = s.active := rfl
@[simp] theorem setHook_toC (b : Bool) (s : State) : (setHook b s).toC = s.toC := rfl
@[simp] theorem setHook_toM (b : Bool) (s : State) : (setHook b s).toM = s.toM := rfl
@[simp] theorem setHook_mem (b : Bool) (s : State) : (setHook b s).mem = s.mem := rfl
@[simp] theorem setHook_trace (b : Bool) (s : State) : (setHook b s).trace = s.trace := rfl
@[simp] theorem setHook_rsp (b : Bool) (s : State) : (setHook b s).rsp = .none := rfl
@[simp] theorem setHook_hookOut (b : Bool) (s : State) : (setHook b s).hookOut = s.hookOut := rfl
@[simp] theorem setHook_inputs (b : Bool) (s : State) : (setHook b s).inputs = s.inputs := rfl
@[simp] theorem setHook_turns (b : Bool) (s : State) : (setHook b s).turns = s.turns := rfl

end Sys2Proof.Machine
end

