-- ==== Sys2Proof/Laws/Fifo.lean ====
section
/-!
SUPPORT. What the posted-event FIFO's operations do, each said once as a record: `drainOne`, `drainAll`, `issueWrite`,
`issueRead`. Later proofs cite these and unfold none of the operations.
-/

namespace Sys2Proof.Machine

theorem storeAll_nil (c : Config) (m : Memory) : storeAll c m [] = m := rfl

theorem storeAll_cons (c : Config) (m : Memory) (w : Posted) (ws : List Posted) :
    storeAll c m (w :: ws) = storeAll c (storageAfter c m (postedTxn w)) ws := rfl

theorem storeAll_append (c : Config) (m : Memory) (ws vs : List Posted) :
    storeAll c m (ws ++ vs) = storeAll c (storeAll c m ws) vs := by
  simp [storeAll]

theorem storeEvents_nil (c : Config) (m : Memory) : storeEvents c m [] = m := rfl

theorem storeEvents_cons (c : Config) (m : Memory) (e : BusEvent) (es : List BusEvent) :
    storeEvents c m (e :: es) = storeEvents c (storageAfter c m e.txn) es := rfl

theorem storeEvents_append (c : Config) (m : Memory) (es fs : List BusEvent) :
    storeEvents c m (es ++ fs) = storeEvents c (storeEvents c m es) fs := by
  simp [storeEvents]

/-- Performing posted writes is what their bus events say. -/
theorem storeEvents_posted (c : Config) (m : Memory) (ws : List Posted) :
    storeEvents c m (ws.map postedEvent) = storeAll c m ws := by
  simp [storeEvents, storeAll, List.foldl_map, postedEvent]

/-- A read stores nothing. -/
@[simp] theorem storageAfter_readTxn (c : Config) (m : Memory) (u l : Bool) (a : Addr) :
    storageAfter c m (readTxn u l a) = m := rfl

/-- Bytes that no posted write of the list stores to keep their values. -/
theorem read_storeAll_other (c : Config) (m : Memory) (ws : List Posted) {n : Nat}
    (h : ∀ w ∈ ws, storesByte (postedTxn w) n = false) : (storeAll c m ws).read n = m.read n := by
  induction ws generalizing m with
  | nil => rfl
  | cons w ws ih =>
    rw [storeAll_cons, ih _ fun v hv => h v (List.mem_cons_of_mem _ hv),
      Memory.read_storageAfter_other c m (h w List.mem_cons_self)]

/-- Bytes that no event of the list stores to keep their values. -/
theorem read_storeEvents_other (c : Config) (m : Memory) (es : List BusEvent) {n : Nat}
    (h : ∀ e ∈ es, storesByte e.txn n = false) : (storeEvents c m es).read n = m.read n := by
  induction es generalizing m with
  | nil => rfl
  | cons e es ih =>
    rw [storeEvents_cons, ih _ fun v hv => h v (List.mem_cons_of_mem _ hv),
      Memory.read_storageAfter_other c m (h e List.mem_cons_self)]

theorem wf_storeAll {c : Config} {m : Memory} (hm : m.wf = true) {ws : List Posted}
    (h : ∀ w ∈ ws, w.wf = true) : (storeAll c m ws).wf = true := by
  induction ws generalizing m with
  | nil => exact hm
  | cons w ws ih =>
    have hw := h w List.mem_cons_self
    simp only [Posted.wf, Bool.and_eq_true, Bool.not_eq_true'] at hw
    exact ih (Memory.wf_storageAfter hm hw.1) fun v hv => h v (List.mem_cons_of_mem _ hv)

/-- `drainOne` on an empty FIFO. -/
theorem drainOne_nil {s : State} (h : s.evq = []) : drainOne s = s := by
  simp [drainOne, h]

/-- `drainOne` performs the oldest entry (R215). -/
theorem drainOne_cons {s : State} {w : Posted} {ws : List Posted} (h : s.evq = w :: ws) :
    drainOne s =
      { s with
        evq := ws
        mem := storageAfter s.cfg s.mem (postedTxn w)
        trace := s.trace ++ [postedEvent w] } := by
  simp only [drainOne, h]
  rfl

theorem drainTimes_eq (ws : List Posted) (s : State) (h : s.evq = ws) :
    drainTimes ws.length s =
      { s with
        evq := []
        mem := storeAll s.cfg s.mem ws
        trace := s.trace ++ ws.map postedEvent } := by
  induction ws generalizing s with
  | nil => cases s; simp_all [drainTimes, storeAll_nil]
  | cons w ws ih =>
    rw [List.length_cons, drainTimes, drainOne_cons h, ih _ rfl]
    simp [storeAll_cons]

/-- `DrainAll()` says once everything it does (R216). -/
theorem drainAll_eq (s : State) :
    drainAll s =
      { s with
        evq := []
        mem := storeAll s.cfg s.mem s.evq
        trace := s.trace ++ s.evq.map postedEvent } :=
  drainTimes_eq s.evq s rfl

theorem drainAll_of_empty {s : State} (h : s.evq = []) : drainAll s = s := by
  simp [drainAll, h, drainTimes]

/-- `IssueWrite` with no FIFO (R213, EVQ_DEPTH = 0). -/
theorem issueWrite_direct {s : State} (h : s.cfg.evqDepth = 0) (w : Posted) :
    issueWrite w s =
      { s with
        mem := storageAfter s.cfg s.mem (postedTxn w)
        trace := s.trace ++ [postedEvent w] } := by
  simp only [issueWrite, if_pos h]
  rfl

/-- `IssueWrite` into a FIFO with room (R213). -/
theorem issueWrite_room {s : State} (h0 : s.cfg.evqDepth ≠ 0) (h : s.evq.length ≠ s.cfg.evqDepth) (w : Posted) :
    issueWrite w s = { s with evq := s.evq ++ [w] } := by
  simp [issueWrite, h0, h]

/-- `IssueWrite` into a full FIFO (R213): the oldest entry is performed to make room. -/
theorem issueWrite_full {s : State} {v : Posted} {vs : List Posted} (hv : s.evq = v :: vs)
    (h : s.evq.length = s.cfg.evqDepth) (w : Posted) :
    issueWrite w s =
      { s with
        evq := vs ++ [w]
        mem := storageAfter s.cfg s.mem (postedTxn v)
        trace := s.trace ++ [postedEvent v] } := by
  have h0 : s.cfg.evqDepth ≠ 0 := by rw [← h, hv]; simp
  simp [issueWrite, h0, h, drainOne_cons hv]

/-- `IssueRead` drains, then reads (R214). -/
theorem issueRead_eq (u l : Bool) (a : Addr) (s : State) :
    issueRead u l a s =
      ({ s with
          evq := []
          mem := storeAll s.cfg s.mem s.evq
          trace := s.trace ++ s.evq.map postedEvent ++ [⟨.c, readTxn u l a⟩] },
        busAnswer (drainAll s) (readTxn u l a)) := by
  simp only [issueRead, busRead, drainAll_eq]

/-! ## The order of issue -/

theorem writesOfC_append (es fs : List BusEvent) : writesOfC (es ++ fs) = writesOfC es ++ writesOfC fs := by
  simp [writesOfC]

theorem writesOfC_posted (ws : List Posted) : writesOfC (ws.map postedEvent) = ws.map postedTxn := by
  induction ws with
  | nil => rfl
  | cons w ws ih =>
    simp only [writesOfC, postedEvent, postedTxn, List.map_cons] at ih ⊢
    simpa using ih

@[simp] theorem writesOfC_read (x : Context) (u l : Bool) (a : Addr) : writesOfC [⟨x, readTxn u l a⟩] = [] := by
  simp [writesOfC, readTxn]

@[simp] theorem writesOfC_companion (t : BusTxn) : writesOfC [⟨.m, t⟩] = [] := by
  simp [writesOfC]

/-- Performing what is posted changes nothing in the sequence of issued writes (R217 a). -/
theorem issuedByC_drainAll (s : State) : issuedByC (drainAll s) = issuedByC s := by
  simp [issuedByC, performedByC, drainAll_eq, writesOfC_append, writesOfC_posted]

theorem issuedByC_drainOne (s : State) : issuedByC (drainOne s) = issuedByC s := by
  cases h : s.evq with
  | nil => rw [drainOne_nil h]
  | cons w ws =>
    have := writesOfC_posted [w]
    simp only [List.map_cons, List.map_nil] at this
    simp [issuedByC, performedByC, drainOne_cons h, writesOfC_append, this, h]

end Sys2Proof.Machine
end

