-- ==== Sys2Proof/Laws/Clock.lean ====
section
/-!
SUPPORT. The clocks and the clock-view links: what an advance and a delivery do, each said once, and that a link stays right.
-/

namespace Sys2Proof.Machine

/-! ## Links -/

theorem SyncLink.Ok.start (depth : Nat) : SyncLink.Ok depth 0 ⟨0, []⟩ :=
  ⟨by simp, by simp, by simp, fun _ => rfl⟩

/-- A delivery from an empty channel leaves the link (R219). -/
theorem SyncLink.deliver_empty {k : SyncLink} (h : k.chan = []) : k.deliver = k := by
  obtain ⟨v, chan⟩ := k
  subst h
  rfl

/-- A delivery moves the oldest event into the view (R219). -/
theorem SyncLink.deliver_cons {k : SyncLink} {t : Nat} {rest : List Nat} (h : k.chan = t :: rest) :
    k.deliver = ⟨max k.view t, rest⟩ := by
  obtain ⟨v, chan⟩ := k
  subst h
  rfl

/-- A channel of depth 0 carries nothing (R219). -/
theorem SyncLink.send_exact (t : Nat) (k : SyncLink) : k.send 0 t = k := rfl

/-- A channel with room takes the event behind the others (R219). -/
theorem SyncLink.send_room {depth : Nat} {k : SyncLink} (hd : depth ≠ 0) (h : k.chan.length ≠ depth) (t : Nat) :
    k.send depth t = ⟨k.view, k.chan ++ [t]⟩ := by
  simp only [SyncLink.send, if_neg hd, if_neg h]

/-- A full channel delivers its oldest event to make room (R219, log entry 9). -/
theorem SyncLink.send_full {depth e : Nat} {k : SyncLink} {rest : List Nat} (h : k.chan.length = depth)
    (hc : k.chan = e :: rest) (t : Nat) : k.send depth t = ⟨max k.view e, rest ++ [t]⟩ := by
  have hd : depth ≠ 0 := by rw [← h, hc]; exact Nat.succ_ne_zero _
  simp only [SyncLink.send, if_neg hd, if_pos h, SyncLink.deliver_cons hc]

/-- Delivery keeps a link right (R219). -/
theorem SyncLink.Ok.deliver {depth now : Nat} {k : SyncLink} (h : k.Ok depth now) : k.deliver.Ok depth now := by
  obtain ⟨v, chan⟩ := k
  cases chan with
  | nil => exact h
  | cons t rest =>
    obtain ⟨ho, hn, hf, hl⟩ := h
    have hvt : v ≤ t := (List.pairwise_cons.mp ho).1 t List.mem_cons_self
    simp only [SyncLink.deliver, Nat.max_eq_right hvt]
    refine ⟨(List.pairwise_cons.mp ho).2, fun x hx => hn x (List.mem_cons_of_mem _ hx), ?_, fun hd => ?_⟩
    · simp only [List.length_cons] at hf
      simp only
      omega
    · have := hl hd
      cases rest <;> simpa [List.getLast?_cons] using this

/-- A delivery never lowers a view (R219). -/
theorem SyncLink.view_le_deliver (k : SyncLink) : k.view ≤ k.deliver.view := by
  obtain ⟨v, chan⟩ := k
  cases chan with
  | nil => exact Nat.le_refl v
  | cons t rest => exact Nat.le_max_left v t

/-- An advance event keeps a link right at the new time (R219). -/
theorem SyncLink.Ok.send {depth now t : Nat} {k : SyncLink} (h : k.Ok depth now) (ht : now ≤ t) :
    (k.send depth t).Ok depth t := by
  by_cases hd : depth = 0
  · subst hd
    simp only [SyncLink.send, if_true]
    exact ⟨h.inOrder, fun x hx => (h.notAhead x hx).trans ht, h.fits, fun h0 => absurd rfl h0⟩
  · have room : ∃ k1 : SyncLink, k1.Ok depth now ∧ k1.chan.length < depth ∧
        k.send depth t = { k1 with chan := k1.chan ++ [t] } := by
      by_cases hf : k.chan.length = depth
      · refine ⟨k.deliver, h.deliver, ?_, by simp [SyncLink.send, hd, hf]⟩
        obtain ⟨v, chan⟩ := k
        cases chan with
        | nil => exact absurd hf.symm hd
        | cons x rest =>
          simp only [List.length_cons] at hf
          simp only [SyncLink.deliver]
          omega
      · exact ⟨k, h, Nat.lt_of_le_of_ne h.fits hf, by simp [SyncLink.send, hd, hf]⟩
    obtain ⟨k1, ok, hroom, hk⟩ := room
    rw [hk]
    refine ⟨?_, ?_, ?_, fun _ => by simp⟩
    · show (k1.view :: (k1.chan ++ [t])).Pairwise (· ≤ ·)
      rw [← List.cons_append, List.pairwise_append]
      exact ⟨ok.inOrder, by simp, fun x hx y hy => by
        obtain rfl := List.mem_singleton.mp hy
        exact (ok.notAhead x hx).trans ht⟩
    · intro x hx
      rw [← List.cons_append] at hx
      rcases List.mem_append.mp hx with hx | hx
      · exact (ok.notAhead x hx).trans ht
      · exact (List.mem_singleton.mp hx).le
    · simp only [List.length_append, List.length_singleton]
      omega

/-! ## Advances -/

/-- ACTIVE after a context's synchronisation (R172). -/
def activeAfter (c : Config) (blocked : Bool) (x : Context) (old : Option Context) : Option Context :=
  match c.policy with
  | .anyEnabled => old
  | .coroutine _ => if blocked then some x else old

theorem handOver_eq (b : Bool) (x : Context) (s : State) :
    handOver b x s = { s with active := activeAfter s.cfg b x s.active } := by
  unfold handOver activeAfter
  cases s.cfg.policy with
  | anyEnabled => rfl
  | coroutine _ => cases b <;> rfl

/-- The advance of C's clock says once everything it does (R163). -/
theorem advanceC_eq {s : State} {c : Ctx} (h : s.ctx = some c) (n : Nat) :
    advanceC n s =
      { s with
        ctx := some { c with cycC := c.cycC + n }
        toM := if n = 0 then s.toM else s.toM.send s.cfg.syncDepth ((c.cycC + n) * periodC s.cfg)
        active := activeAfter s.cfg (blockedC { s with ctx := some { c with cycC := c.cycC + n } }) .m s.active } := by
  simp only [advanceC, h, handOver_eq]
  split_ifs with hn <;> rfl

/-- The advance of M's clock says once everything it does (R167). -/
theorem advanceM_eq (n : Nat) (s : State) :
    advanceM n s =
      { s with
        cycM := s.cycM + n
        toC := if n = 0 then s.toC else s.toC.send s.cfg.syncDepth ((s.cycM + n) * periodM s.cfg)
        active := activeAfter s.cfg (blockedM { s with cycM := s.cycM + n }) .c s.active } := by
  simp only [advanceM, handOver_eq]
  split_ifs with hn <;> rfl

/-- The synchronisation of STEP and TICK says once everything it does (R163). -/
theorem synchronise_eq {s : State} {c : Ctx} (h : s.ctx = some c) (n : Nat) :
    synchronise n s =
      { s with
        evq := []
        mem := storeAll s.cfg s.mem s.evq
        trace := s.trace ++ s.evq.map postedEvent
        ctx := some { c with cycC := c.cycC + n }
        toM := if n = 0 then s.toM else s.toM.send s.cfg.syncDepth ((c.cycC + n) * periodC s.cfg)
        active := activeAfter s.cfg (blockedC { s with ctx := some { c with cycC := c.cycC + n } }) .m s.active } := by
  rw [synchronise, advanceC_eq (s := drainAll s) (c := c) (by rw [drainAll_eq]; exact h), drainAll_eq]
  rfl

/-! ## The predicates -/

/-- Which context the policy lets step (R172): outside Running either, under the default policy either, else the active one. -/
theorem mayRun_iff (x : Context) (s : State) :
    mayRun x s = true ↔ s.sched ≠ .running ∨ s.cfg.policy = .anyEnabled ∨ s.active = some x := by
  cases hp : s.cfg.policy <;> simp [mayRun, isRunning, hp]

/-- BLOCKED_C (R31). -/
theorem blockedC_iff (s : State) : blockedC s = true ↔ s.sched = .running ∧ timeC s > timeM s + quotaTicks s.cfg := by
  simp [blockedC, isRunning]

/-- BLOCKED_M (R31). -/
theorem blockedM_iff (s : State) : blockedM s = true ↔ s.sched = .running ∧ timeM s > timeC s + quotaTicks s.cfg := by
  simp [blockedM, isRunning]

/-- C waits (R219). -/
theorem waitsC_iff (s : State) : waitsC s = true ↔ s.sched = .running ∧ timeC s > viewOfM s + quotaTicks s.cfg := by
  simp [waitsC, isRunning]

/-- M waits (R219). -/
theorem waitsM_iff (s : State) : waitsM s = true ↔ s.sched = .running ∧ timeM s > viewOfC s + quotaTicks s.cfg := by
  simp [waitsM, isRunning]

/-- Never both blocked (R170). -/
theorem not_both_blocked (s : State) : ¬ (blockedC s = true ∧ blockedM s = true) := by
  simp only [blockedC, blockedM, Bool.and_eq_true, decide_eq_true_eq]
  omega

/-- With exact views waiting is being blocked (R219). -/
theorem waitsC_exact {s : State} (h : s.cfg.syncDepth = 0) : waitsC s = blockedC s := by
  simp [waitsC, blockedC, viewOfM, h]

theorem waitsM_exact {s : State} (h : s.cfg.syncDepth = 0) : waitsM s = blockedM s := by
  simp [waitsM, blockedM, viewOfC, h]

/-- A view that is not ahead of the truth makes a blocked context wait (R219). -/
theorem blockedC_waits {s : State} (h : viewOfM s ≤ timeM s) (hb : blockedC s = true) : waitsC s = true := by
  simp only [blockedC, waitsC, Bool.and_eq_true, decide_eq_true_eq] at hb ⊢
  exact ⟨hb.1, by omega⟩

theorem blockedM_waits {s : State} (h : viewOfC s ≤ timeC s) (hb : blockedM s = true) : waitsM s = true := by
  simp only [blockedM, waitsM, Bool.and_eq_true, decide_eq_true_eq] at hb ⊢
  exact ⟨hb.1, by omega⟩

end Sys2Proof.Machine
end

