-- ==== Sys2Proof/Laws/Operands.lean ====
section
/-!
SUPPORT. The operand forms of the adapter as numbers: masking, lanes, splitting and composition (R7, R137).
-/

namespace Sys2Proof.Machine

theorem cellAddr_shift (a : Addr) : cellAddr a = (a >>> 1) <<< 1 := by
  ext i hi
  simp only [cellAddr, BitVec.getElem_and, BitVec.getElem_not, BitVec.getElem_shiftLeft, BitVec.getElem_one]
  rcases Nat.eq_zero_or_pos i with h | h
  · simp [h]
  · have : 1 + (i - 1) = i := by omega
    simp [this, Nat.ne_of_gt h, BitVec.getLsbD_eq_getElem hi, show ¬ i < 1 by omega]

theorem groupAddr_shift (a : Addr) : groupAddr a = (a >>> 2) <<< 2 := by
  ext i hi
  have h3 : (3#32)[i] = decide (i < 2) := by
    have : 3#32 = BitVec.setWidth 32 (BitVec.allOnes 2) := rfl
    rw [this, BitVec.getElem_setWidth, BitVec.getLsbD_allOnes]
  simp only [groupAddr, BitVec.getElem_and, BitVec.getElem_not, BitVec.getElem_shiftLeft, h3]
  by_cases h : i < 2
  · simp [h]
  · have : 2 + (i - 2) = i := by omega
    simp [h, this, BitVec.getLsbD_eq_getElem hi]

/-- `A & ~1` as a number (R137). -/
theorem cellAddr_toNat (a : Addr) : (cellAddr a).toNat = a.toNat / 2 * 2 := by
  have := a.isLt
  rw [cellAddr_shift, BitVec.toNat_shiftLeft, BitVec.toNat_ushiftRight, Nat.shiftLeft_eq, Nat.shiftRight_eq_div_pow]
  omega

/-- `A & ~3` as a number (R137). -/
theorem groupAddr_toNat (a : Addr) : (groupAddr a).toNat = a.toNat / 4 * 4 := by
  have := a.isLt
  rw [groupAddr_shift, BitVec.toNat_shiftLeft, BitVec.toNat_ushiftRight, Nat.shiftLeft_eq, Nat.shiftRight_eq_div_pow]
  omega

/-- `(A & ~3) + 2` as a number: it never carries (R137). -/
theorem groupAddr2_toNat (a : Addr) : (groupAddr2 a).toNat = a.toNat / 4 * 4 + 2 := by
  have := a.isLt
  rw [groupAddr2, BitVec.toNat_add, groupAddr_toNat]
  simp only [BitVec.toNat_ofNat]
  omega

theorem getLsbD_zero_eq (a : Addr) : a.getLsbD 0 = decide (a.toNat % 2 = 1) := by
  simp only [BitVec.getLsbD, Nat.testBit_zero]

theorem getLsbD_zero_of_even {a : Addr} (h : a.toNat % 2 = 0) : a.getLsbD 0 = false := by
  rw [getLsbD_zero_eq, h]; rfl

theorem even_of_getLsbD_zero {a : Addr} (h : a.getLsbD 0 = false) : a.toNat % 2 = 0 := by
  rw [getLsbD_zero_eq] at h
  have := of_decide_eq_false h
  omega

theorem cellAddr_even (a : Addr) : (cellAddr a).getLsbD 0 = false :=
  getLsbD_zero_of_even (by rw [cellAddr_toNat]; omega)

theorem groupAddr_even (a : Addr) : (groupAddr a).getLsbD 0 = false :=
  getLsbD_zero_of_even (by rw [groupAddr_toNat]; omega)

theorem groupAddr2_even (a : Addr) : (groupAddr2 a).getLsbD 0 = false :=
  getLsbD_zero_of_even (by rw [groupAddr2_toNat]; omega)

/-- Masking an even address changes nothing. -/
theorem cellAddr_of_even {a : Addr} (h : a.getLsbD 0 = false) : cellAddr a = a :=
  BitVec.eq_of_toNat_eq (by rw [cellAddr_toNat]; have := even_of_getLsbD_zero h; omega)

@[simp] theorem cellAddr_idem (a : Addr) : cellAddr (cellAddr a) = cellAddr a := cellAddr_of_even (cellAddr_even a)

/-- `{a, b}` of two bytes as a number (R137). -/
theorem joinBytes_toNat (hi lo : Byte) : (joinBytes hi lo).toNat = hi.toNat * 256 + lo.toNat := by
  have := hi.isLt; have := lo.isLt
  simp only [joinBytes, BitVec.toNat_append, Nat.shiftLeft_eq]
  rw [← Nat.shiftLeft_eq, ← Nat.shiftLeft_add_eq_or_of_lt (by omega), Nat.shiftLeft_eq]

/-- `{h, l}` of two words as a number (R137). -/
theorem joinWords_toNat (hi lo : Word) : (joinWords hi lo).toNat = hi.toNat * 65536 + lo.toNat := by
  have := hi.isLt; have := lo.isLt
  simp only [joinWords, BitVec.toNat_append]
  rw [← Nat.shiftLeft_add_eq_or_of_lt (by omega), Nat.shiftLeft_eq]

theorem upperLane_toNat (d : Word) : (upperLane d).toNat = d.toNat / 256 := by
  have := d.isLt
  simp only [upperLane, BitVec.extractLsb'_toNat, Nat.shiftRight_eq_div_pow]
  omega

theorem lowerLane_toNat (d : Word) : (lowerLane d).toNat = d.toNat % 256 := by
  simp only [lowerLane, BitVec.extractLsb'_toNat, Nat.shiftRight_zero]

theorem highWord_toNat (v : Long) : (highWord v).toNat = v.toNat / 65536 := by
  have := v.isLt
  simp only [highWord, BitVec.extractLsb'_toNat, Nat.shiftRight_eq_div_pow]
  omega

theorem lowWord_toNat (v : Long) : (lowWord v).toNat = v.toNat % 65536 := by
  simp only [lowWord, BitVec.extractLsb'_toNat, Nat.shiftRight_zero]

theorem duplicate_toNat (v : Byte) : (duplicate v).toNat = v.toNat * 256 + v.toNat := joinBytes_toNat v v

@[simp] theorem upperLane_joinBytes (hi lo : Byte) : upperLane (joinBytes hi lo) = hi :=
  BitVec.eq_of_toNat_eq (by rw [upperLane_toNat, joinBytes_toNat]; have := lo.isLt; omega)

@[simp] theorem lowerLane_joinBytes (hi lo : Byte) : lowerLane (joinBytes hi lo) = lo :=
  BitVec.eq_of_toNat_eq (by rw [lowerLane_toNat, joinBytes_toNat]; have := lo.isLt; omega)

@[simp] theorem joinBytes_lanes (d : Word) : joinBytes (upperLane d) (lowerLane d) = d :=
  BitVec.eq_of_toNat_eq (by rw [joinBytes_toNat, upperLane_toNat, lowerLane_toNat]; omega)

@[simp] theorem joinWords_halves (v : Long) : joinWords (highWord v) (lowWord v) = v :=
  BitVec.eq_of_toNat_eq (by rw [joinWords_toNat, highWord_toNat, lowWord_toNat]; omega)

@[simp] theorem upperLane_duplicate (v : Byte) : upperLane (duplicate v) = v := upperLane_joinBytes v v

@[simp] theorem lowerLane_duplicate (v : Byte) : lowerLane (duplicate v) = v := lowerLane_joinBytes v v

/-! ## Back from numbers -/

theorem cellAddr_num (a : Addr) : BitVec.ofNat 32 (a.toNat / 2 * 2) = cellAddr a :=
  BitVec.eq_of_toNat_eq (by rw [cellAddr_toNat, BitVec.toNat_ofNat]; have := a.isLt; omega)

theorem groupAddr_num (a : Addr) : BitVec.ofNat 32 (a.toNat / 4 * 4) = groupAddr a :=
  BitVec.eq_of_toNat_eq (by rw [groupAddr_toNat, BitVec.toNat_ofNat]; have := a.isLt; omega)

theorem groupAddr2_num (a : Addr) : BitVec.ofNat 32 (a.toNat / 4 * 4 + 2) = groupAddr2 a :=
  BitVec.eq_of_toNat_eq (by rw [groupAddr2_toNat, BitVec.toNat_ofNat]; have := a.isLt; omega)

theorem upper_num (a : Addr) : decide (a.toNat % 2 = 0) = upperSelect a := by
  rw [upperSelect, getLsbD_zero_eq]; rcases Nat.mod_two_eq_zero_or_one a.toNat with h | h <;> simp [h]

theorem lower_num (a : Addr) : decide (a.toNat % 2 = 1) = lowerSelect a := by
  rw [lowerSelect, getLsbD_zero_eq]

theorem selectLane_num (a : Addr) (r : Word) :
    BitVec.ofNat 8 (if a.toNat % 2 = 1 then r.toNat % 256 else r.toNat / 256) =
      selectLane a r := by
  rw [selectLane, getLsbD_zero_eq]
  have := r.isLt
  apply BitVec.eq_of_toNat_eq
  by_cases h : a.toNat % 2 = 1 <;> simp [h, lowerLane_toNat, upperLane_toNat]
  omega

end Sys2Proof.Machine
end

