-- ==== Sys2Proof/Laws/Progress.lean ====
section
/-!
SUPPORT. What any access of context C does to the state, said once: it moves the bus and the FIFO forward and touches nothing
else. `Progress s t new` composes, so that it holds of a whole instruction; frames, order of issue, canonical form and replay of
memory all follow from it.
-/

namespace Sys2Proof.Machine

/-- `t` differs from `s` in the FIFO, storage and the bus's history at most. -/
def BusOnly (s t : State) : Prop := t = { s with evq := t.evq, mem := t.mem, trace := t.trace }

theorem BusOnly.refl (s : State) : BusOnly s s := rfl

theorem BusOnly.trans {s t u : State} (h1 : BusOnly s t) (h2 : BusOnly t u) : BusOnly s u := by
  unfold BusOnly at *
  rw [h2, h1]

/-- `t` is `s` after context C has issued the writes `new`, and any reads, through the adapter. -/
structure Progress (s t : State) (new : List Posted) : Prop where
  /-- Nothing but the FIFO, storage and the bus's history has changed. -/
  frame : BusOnly s t
  /-- The bus has performed some more transactions of C, and storage is what they made it. Performed and posted together, the
  writes are the old ones and then the new ones. -/
  events : ∃ es, t.trace = s.trace ++ es ∧ t.mem = storeEvents s.cfg s.mem es ∧
    writesOfC es ++ t.evq.map postedTxn = (s.evq ++ new).map postedTxn ∧
    ((∀ w ∈ s.evq ++ new, w.wf = true) →
      (∀ w ∈ t.evq, w.wf = true) ∧
        ∀ e ∈ es, e.issuer = .c ∧ e.txn.wf = true ∧ e.txn.lanesSelected = true)
  /-- The FIFO keeps within its depth. -/
  fits : s.evq.length ≤ s.cfg.evqDepth → t.evq.length ≤ s.cfg.evqDepth

namespace Progress

theorem rfl' (s : State) : Progress s s [] where
  frame := rfl
  events := ⟨[], by simp, rfl, by simp [writesOfC], fun h => ⟨by simpa using h, by simp⟩⟩
  fits := id

theorem cfg {s t : State} {new : List Posted} (h : Progress s t new) : t.cfg = s.cfg := by rw [h.frame]
theorem boot {s t : State} {new : List Posted} (h : Progress s t new) : t.boot = s.boot := by rw [h.frame]
theorem sched {s t : State} {new : List Posted} (h : Progress s t new) : t.sched = s.sched := by rw [h.frame]
theorem ctx {s t : State} {new : List Posted} (h : Progress s t new) : t.ctx = s.ctx := by rw [h.frame]
theorem cycM {s t : State} {new : List Posted} (h : Progress s t new) : t.cycM = s.cycM := by rw [h.frame]
theorem hookAttached {s t : State} {new : List Posted} (h : Progress s t new) : t.hookAttached = s.hookAttached := by
  rw [h.frame]
theorem dbgNode {s t : State} {new : List Posted} (h : Progress s t new) : t.dbgNode = s.dbgNode := by rw [h.frame]
theorem active {s t : State} {new : List Posted} (h : Progress s t new) : t.active = s.active := by rw [h.frame]
theorem toC {s t : State} {new : List Posted} (h : Progress s t new) : t.toC = s.toC := by rw [h.frame]
theorem toM {s t : State} {new : List Posted} (h : Progress s t new) : t.toM = s.toM := by rw [h.frame]
theorem rsp {s t : State} {new : List Posted} (h : Progress s t new) : t.rsp = s.rsp := by rw [h.frame]
theorem hookOut {s t : State} {new : List Posted} (h : Progress s t new) : t.hookOut = s.hookOut := by rw [h.frame]
theorem inputs {s t : State} {new : List Posted} (h : Progress s t new) : t.inputs = s.inputs := by rw [h.frame]
theorem turns {s t : State} {new : List Posted} (h : Progress s t new) : t.turns = s.turns := by rw [h.frame]

theorem trans {s t u : State} {n1 n2 : List Posted} (h1 : Progress s t n1) (h2 : Progress t u n2) :
    Progress s u (n1 ++ n2) where
  frame := h1.frame.trans h2.frame
  events := by
    obtain ⟨es, htr, hmem, hord, hwf⟩ := h1.events
    obtain ⟨fs, htr', hmem', hord', hwf'⟩ := h2.events
    refine ⟨es ++ fs, by rw [htr', htr, List.append_assoc],
      by rw [hmem', hmem, h1.cfg, storeEvents_append], ?_, ?_⟩
    · rw [writesOfC_append, List.append_assoc, hord', List.map_append, ← List.append_assoc, hord]
      simp [List.map_append, List.append_assoc]
    · intro h
      have ha := hwf fun w hw => h w (by
        rcases List.mem_append.mp hw with hw | hw
        · exact List.mem_append_left _ hw
        · exact List.mem_append_right _ (List.mem_append_left _ hw))
      have hb := hwf' fun w hw => by
        rcases List.mem_append.mp hw with hw | hw
        · exact ha.1 w hw
        · exact h w (List.mem_append_right _ (List.mem_append_right _ hw))
      refine ⟨hb.1, fun e he => ?_⟩
      rcases List.mem_append.mp he with he | he
      · exact ha.2 e he
      · exact hb.2 e he
  fits := fun h => by
    have := h2.fits (by rw [h1.cfg]; exact h1.fits h)
    rwa [h1.cfg] at this

/-- Progress is monotone in the sequence of issued writes: the old ones, then the new ones (R217 a). -/
theorem issued {s t : State} {new : List Posted} (h : Progress s t new) :
    issuedByC t = issuedByC s ++ new.map postedTxn := by
  obtain ⟨es, htr, -, hord, -⟩ := h.events
  simp only [issuedByC, performedByC, htr, writesOfC_append, List.append_assoc, hord]
  simp

end Progress

/-- A posted write's transaction is well formed when the entry is. -/
theorem postedTxn_wf {w : Posted} (h : w.wf = true) : (postedTxn w).wf = true ∧ (postedTxn w).lanesSelected = true := by
  simp only [Posted.wf, Bool.and_eq_true] at h
  simp only [BusTxn.wf, BusTxn.lanesSelected, postedTxn]
  exact ⟨by simpa using h.1, h.2⟩

theorem progress_drainOne (s : State) : Progress s (drainOne s) [] := by
  cases h : s.evq with
  | nil => rw [drainOne_nil h]; exact Progress.rfl' s
  | cons w ws =>
    rw [drainOne_cons h]
    refine ⟨rfl, ⟨[postedEvent w], rfl, rfl, ?_, fun hw => ?_⟩, fun hl => ?_⟩
    · have := writesOfC_posted [w]
      simp only [List.map_cons, List.map_nil] at this
      simp [this, h]
    · simp only [h, List.append_nil] at hw
      refine ⟨fun v hv => hw v (List.mem_cons_of_mem _ hv), fun e he => ?_⟩
      obtain rfl := List.mem_singleton.mp he
      exact ⟨rfl, postedTxn_wf (hw w List.mem_cons_self)⟩
    · simp only [h, List.length_cons] at hl
      simp only
      omega

theorem progress_drainTimes (n : Nat) (s : State) : Progress s (drainTimes n s) [] := by
  induction n generalizing s with
  | zero => exact Progress.rfl' s
  | succ n ih => exact (progress_drainOne s).trans (ih (drainOne s))

theorem progress_drainAll (s : State) : Progress s (drainAll s) [] := progress_drainTimes _ s

theorem progress_busRead {s : State} {u l : Bool} {a : Addr} (ha : a.getLsbD 0 = false) (hl : (u || l) = true) :
    Progress s (busRead .c u l a s).1 [] where
  frame := rfl
  events := ⟨[⟨.c, readTxn u l a⟩], rfl, rfl, by simp, fun h => ⟨by simpa using h, fun e he => by
    obtain rfl := List.mem_singleton.mp he
    exact ⟨rfl, by simpa [BusTxn.wf, readTxn] using ha, by simpa [BusTxn.lanesSelected, readTxn] using hl⟩⟩⟩
  fits := id

theorem progress_issueRead {s : State} {u l : Bool} {a : Addr} (ha : a.getLsbD 0 = false) (hl : (u || l) = true) :
    Progress s (issueRead u l a s).1 [] :=
  (progress_drainAll s).trans (progress_busRead ha hl)

/-- Issuing a write, for a FIFO within its depth (R213). -/
theorem progress_issueWrite (w : Posted) {s : State} (hf : s.evq.length ≤ s.cfg.evqDepth) :
    Progress s (issueWrite w s) [w] := by
  have one (v : Posted) : writesOfC [postedEvent v] = [postedTxn v] := writesOfC_posted [v]
  by_cases h0 : s.cfg.evqDepth = 0
  · have he : s.evq = [] := List.length_eq_zero_iff.mp (by omega)
    rw [issueWrite_direct h0]
    refine ⟨rfl, ⟨[postedEvent w], rfl, rfl, by simp [one, he], fun hw => ⟨by simp [he], fun e hm => ?_⟩⟩, id⟩
    obtain rfl := List.mem_singleton.mp hm
    exact ⟨rfl, postedTxn_wf (hw w (by simp))⟩
  by_cases h : s.evq.length = s.cfg.evqDepth
  · cases hv : s.evq with
    | nil => rw [hv] at h; exact absurd h.symm h0
    | cons v vs =>
      rw [issueWrite_full hv h]
      refine ⟨rfl, ⟨[postedEvent v], rfl, rfl, by simp [one, hv], fun hw => ⟨fun x hx => ?_, fun e hm => ?_⟩⟩, fun _ => ?_⟩
      · simp only [List.mem_append, List.mem_singleton] at hx
        exact hw x (by rw [hv]; simp only [List.mem_append, List.mem_cons, List.not_mem_nil]; tauto)
      · obtain rfl := List.mem_singleton.mp hm
        exact ⟨rfl, postedTxn_wf (hw v (by rw [hv]; simp))⟩
      · rw [← h, hv]; simp
  · rw [issueWrite_room h0 h]
    refine ⟨rfl, ⟨[], by simp, rfl, by simp [writesOfC], fun hw => ⟨hw, by simp⟩⟩, fun _ => ?_⟩
    simp only [List.length_append, List.length_singleton]
    omega

theorem byteWrite_wf (a : Addr) (v : Byte) : (byteWrite a v).wf = true := by
  rw [Posted.wf, byteWrite, cellAddr_even]
  cases h : a.getLsbD 0 <;> simp only [upperSelect, lowerSelect, h] <;> rfl

theorem wordWrite_wf (a : Addr) (v : Word) : (wordWrite a v).wf = true := by
  rw [Posted.wf, wordWrite, cellAddr_even]; rfl

theorem longWriteHigh_wf (a : Addr) (v : Long) : (longWriteHigh a v).wf = true := by
  rw [Posted.wf, longWriteHigh, groupAddr_even]; rfl

theorem longWriteLow_wf (a : Addr) (v : Long) : (longWriteLow a v).wf = true := by
  rw [Posted.wf, longWriteLow, groupAddr2_even]; rfl

theorem progress_readByte (a : Addr) (s : State) : Progress s (readByte a s).1 [] :=
  progress_issueRead (cellAddr_even a) (by simp [upperSelect, lowerSelect])

theorem progress_readWord (a : Addr) (s : State) : Progress s (readWord a s).1 [] :=
  progress_issueRead (cellAddr_even a) rfl

theorem progress_readLong (a : Addr) (s : State) : Progress s (readLong a s).1 [] :=
  (progress_issueRead (groupAddr_even a) rfl).trans (progress_issueRead (groupAddr2_even a) rfl)

theorem progress_memRead (w : Width) (a : Addr) (s : State) : Progress s (memRead w a s).1 [] := by
  cases w
  · exact progress_readByte a s
  · exact progress_readWord a s
  · exact progress_readLong a s

theorem progress_writeByte (a : Addr) (v : Byte) {s : State} (hf : s.evq.length ≤ s.cfg.evqDepth) :
    Progress s (writeByte a v s) [byteWrite a v] :=
  progress_issueWrite _ hf

theorem progress_writeWord (a : Addr) (v : Word) {s : State} (hf : s.evq.length ≤ s.cfg.evqDepth) :
    Progress s (writeWord a v s) [wordWrite a v] :=
  progress_issueWrite _ hf

theorem progress_writeLong (a : Addr) (v : Long) {s : State} (hf : s.evq.length ≤ s.cfg.evqDepth) :
    Progress s (writeLong a v s) [longWriteHigh a v, longWriteLow a v] := by
  have h1 := progress_issueWrite (longWriteHigh a v) hf
  exact h1.trans (progress_issueWrite (longWriteLow a v) (by rw [h1.cfg]; exact h1.fits hf))

/-- A write through the adapter issues well-formed transactions (R109). -/
theorem progress_memWrite (w : Width) (a : Addr) (v : Long) {s : State} (hf : s.evq.length ≤ s.cfg.evqDepth) :
    ∃ new, Progress s (memWrite w a v s) new ∧ ∀ x ∈ new, x.wf = true := by
  cases w
  · exact ⟨_, progress_writeByte a _ hf, by simp [byteWrite_wf]⟩
  · exact ⟨_, progress_writeWord a _ hf, by simp [wordWrite_wf]⟩
  · exact ⟨_, progress_writeLong a v hf, by simp [longWriteHigh_wf, longWriteLow_wf]⟩

/-- `Run` of an instruction that is done (R165). -/
theorem runProg_done (pc sp : Long) (regs : Regs) (s : State) : runProg (.done pc sp regs) s = (s, ⟨pc, sp, regs⟩) := rfl

/-- `Run` of a read: the access, then the rest with what it answered (R165). -/
theorem runProg_read (w : Width) (a : Addr) (k : BitVec w.bits → Prog) (s : State) :
    runProg (.read w a k) s = runProg (k (memRead w a s).2) (memRead w a s).1 := rfl

/-- `Run` of a write: the access, then the rest (R165). -/
theorem runProg_write (w : Width) (a : Addr) (v : Long) (k : Prog) (s : State) :
    runProg (.write w a v k) s = runProg k (memWrite w a v s) := rfl

/-- `Run` of a query: the rest with 0 (R165, R32). -/
theorem runProg_excq (k : Bool → Prog) (s : State) : runProg (.excq k) s = runProg (k false) s := rfl

/-- A whole instruction of the ExecutionUnit (R165): it reaches the bus through the adapter and no other state. -/
theorem progress_runProg (p : Prog) {s : State} (hf : s.evq.length ≤ s.cfg.evqDepth) :
    ∃ new, Progress s (runProg p s).1 new ∧ ∀ x ∈ new, x.wf = true := by
  induction p generalizing s with
  | done pc sp regs => exact ⟨[], Progress.rfl' s, by simp⟩
  | read w a k ih =>
    have h1 := progress_memRead w a s
    obtain ⟨new, h2, hw⟩ := ih _ (by rw [h1.cfg]; exact h1.fits hf : (memRead w a s).1.evq.length ≤ _)
    exact ⟨new, h1.trans h2, hw⟩
  | write w a v k ih =>
    obtain ⟨n1, h1, hw1⟩ := progress_memWrite w a v hf
    obtain ⟨n2, h2, hw2⟩ := ih (by rw [h1.cfg]; exact h1.fits hf : (memWrite w a v s).evq.length ≤ _)
    exact ⟨n1 ++ n2, h1.trans h2, fun x hx => (List.mem_append.mp hx).elim (hw1 x) (hw2 x)⟩
  | excq k ih => exact ih _ hf

theorem busOnly_issueWrite (w : Posted) (s : State) : BusOnly s (issueWrite w s) := by
  have hd : BusOnly s (drainOne s) := (progress_drainOne s).frame
  unfold issueWrite
  split_ifs
  · rfl
  · exact hd.trans rfl
  · rfl

theorem busOnly_memWrite (w : Width) (a : Addr) (v : Long) (s : State) : BusOnly s (memWrite w a v s) := by
  cases w
  · exact busOnly_issueWrite _ s
  · exact busOnly_issueWrite _ s
  · exact (busOnly_issueWrite _ s).trans (busOnly_issueWrite _ _)

/-- An instruction changes nothing but the FIFO, storage and the bus's history, in any state (R165). -/
theorem busOnly_runProg (p : Prog) (s : State) : BusOnly s (runProg p s).1 := by
  induction p generalizing s with
  | done pc sp regs => rfl
  | read w a k ih => exact (progress_memRead w a s).frame.trans (ih _ _)
  | write w a v k ih => exact (busOnly_memWrite w a v s).trans (ih _)
  | excq k ih => exact ih _ s

/-- `IssueWrite` in one form: of the FIFO and the new write, the oldest in excess of the depth are performed (R213). -/
theorem issueWrite_eq (w : Posted) {s : State} (hf : s.evq.length ≤ s.cfg.evqDepth) :
   issueWrite w s = { s with
      evq := (s.evq ++ [w]).drop ((s.evq ++ [w]).length - s.cfg.evqDepth)
      mem := storeAll s.cfg s.mem ((s.evq ++ [w]).take ((s.evq ++ [w]).length - s.cfg.evqDepth))
      trace := s.trace ++ ((s.evq ++ [w]).take ((s.evq ++ [w]).length - s.cfg.evqDepth)).map postedEvent } := by
  by_cases h0 : s.cfg.evqDepth = 0
  · have he : s.evq = [] := List.length_eq_zero_iff.mp (by omega)
    rw [issueWrite_direct h0]; simp [he, h0, storeAll_cons, storeAll_nil]
  by_cases h : s.evq.length = s.cfg.evqDepth
  · cases hv : s.evq with
    | nil => rw [hv] at h; exact absurd h.symm h0
    | cons v vs =>
      rw [issueWrite_full hv h]
      have h1 : (v :: vs ++ [w]).length - s.cfg.evqDepth = 1 := by
        rw [← h, hv]; simp
      rw [h1]; simp [storeAll_cons, storeAll_nil]
  · rw [issueWrite_room h0 h]
    have h1 : (s.evq ++ [w]).length - s.cfg.evqDepth = 0 := by simp; omega
    rw [h1]; simp [storeAll_nil]

/-- Performing the excess twice is performing the whole excess once. -/
theorem take_drop_again {α : Type} (q : List α) (w : α) (D : Nat) (ws : List α) (hq : q.length ≤ D) :
   let n1 := (q ++ [w]).length - D
   let q' := (q ++ [w]).drop n1
   let n2 := (q' ++ ws).length - D
   (q ++ [w]).take n1 ++ (q' ++ ws).take n2 = (q ++ w :: ws).take ((q ++ w :: ws).length - D) ∧
    (q' ++ ws).drop n2 = (q ++ w :: ws).drop ((q ++ w :: ws).length - D) := by
  intro n1 q' n2
  have e : (q ++ w :: ws) = (q ++ [w]).take n1 ++ (q' ++ ws) := by
    rw [← List.append_assoc, List.take_append_drop]; simp
  have l1 : ((q ++ [w]).take n1).length = n1 := by simp [n1]
  have e2 : (q ++ w :: ws).length - D = n1 + n2 := by
    simp [n1, n2, q']; omega
  rw [e2, e]
  constructor
  · have := List.take_length_add_append (l₁ := (q ++ [w]).take n1) (l₂ := q' ++ ws) n2
    rw [l1] at this; exact this.symm
  · have := List.drop_length_add_append (l₁ := (q ++ [w]).take n1) (l₂ := q' ++ ws) n2
    rw [l1] at this; exact this.symm

/-- Several writes issued one after the other (R136, R213). -/
theorem issueAll_eq (ws : List Posted) {s : State} (hf : s.evq.length ≤ s.cfg.evqDepth) :
   ws.foldl (fun s w => issueWrite w s) s = { s with
      evq := (s.evq ++ ws).drop ((s.evq ++ ws).length - s.cfg.evqDepth)
      mem := storeAll s.cfg s.mem ((s.evq ++ ws).take ((s.evq ++ ws).length - s.cfg.evqDepth))
      trace := s.trace ++ ((s.evq ++ ws).take ((s.evq ++ ws).length - s.cfg.evqDepth)).map postedEvent } := by
  induction ws generalizing s with
  | nil =>
    have : (s.evq ++ ([] : List Posted)).length - s.cfg.evqDepth = 0 := by simp; omega
    rw [this]; simp [storeAll_nil]
  | cons w ws ih =>
    have hp := progress_issueWrite w hf
    rw [List.foldl_cons, ih (by rw [hp.cfg]; exact hp.fits hf), issueWrite_eq w hf]
    have hx := take_drop_again s.evq w s.cfg.evqDepth ws hf
    simp only at hx
    obtain ⟨h1, h2⟩ := hx
    rw [← h1, ← h2]
    simp only [storeAll_append, List.map_append, List.append_assoc]

end Sys2Proof.Machine
end

