-- ==== Sys2Proof/Laws/Exec.lean ====
section
/-!
SUPPORT. What an operation can answer, said once: `exec_next` lists every way an operation ends in a next state, with its guard,
and `exec_refused` every refusal. Proofs about all operations take these apart and unfold no meaning.
-/

namespace Sys2Proof.Machine

/-- An operation is not enabled: it waits (R10, R160). -/
inductive Waits (s : State) : Instr → Prop where
  | rdb (a : Addr) (h : enabledC s = false) : Waits s (.rdb a)
  | rdw (a : Addr) (h : enabledC s = false) : Waits s (.rdw a)
  | rdl (a : Addr) (h : enabledC s = false) : Waits s (.rdl a)
  | wrb (a : Addr) (v : Byte) (h : enabledC s = false) : Waits s (.wrb a v)
  | wrw (a : Addr) (v : Word) (h : enabledC s = false) : Waits s (.wrw a v)
  | wrl (a : Addr) (v : Long) (h : enabledC s = false) : Waits s (.wrl a v)
  | tick (c : Ctx) (run : s.sched = .running) (ctx : s.ctx = some c) (h : enabledC s = false) : Waits s .tick
  | step (n : Long) (c : Ctx) (run : s.sched = .running) (ctx : s.ctx = some c) (h : enabledC s = false) :
    Waits s (.step n)
  | cstep (n : Long) (h : enabledM s = false) : Waits s (.cstep n)

/-- An operation takes its step and this is the state after it. -/
inductive Completes (s : State) : Instr → State → Prop where
  | rdb (a : Addr) (h : enabledC s = true) :
    Completes s (.rdb a) ((readByte a s).1.answer (.byte (readByte a s).2))
  | rdw (a : Addr) (h : enabledC s = true) :
    Completes s (.rdw a) ((readWord a s).1.answer (.word (readWord a s).2))
  | rdl (a : Addr) (h : enabledC s = true) :
    Completes s (.rdl a) ((readLong a s).1.answer (.long (readLong a s).2))
  | wrb (a : Addr) (v : Byte) (h : enabledC s = true) : Completes s (.wrb a v) ((writeByte a v s).answer .none)
  | wrw (a : Addr) (v : Word) (h : enabledC s = true) : Completes s (.wrw a v) ((writeWord a v s).answer .none)
  | wrl (a : Addr) (v : Long) (h : enabledC s = true) : Completes s (.wrl a v) ((writeLong a v s).answer .none)
  | load (src : Option (List Byte)) (h : s.boot = none) :
    Completes s (.load src)
      { s with
        boot := some (bootCellsFrom s.cfg.bootCells (src.getD []))
        sched := .unstarted
        dbgNode := true
        rsp := .none }
  | unloadRunning (h : s.sched = .running) :
    Completes s .unload
      { drainAll s with
        hookAttached := false
        dbgNode := false
        boot := none
        rsp := .none
        ctx := none
        sched := .halted }
  | unloadIdle (h : s.sched ≠ .running) :
    Completes s .unload
      { drainAll s with
        hookAttached := false
        dbgNode := false
        boot := none
        rsp := .none }
  | power (r : Bool) (cells : List Word) (pc sp : Long) (h : s.boot = some cells)
    (vector : bootVector cells = some (pc, sp)) :
    Completes s (.power r)
      { drainAll s with
        sched := .running
        ctx := some ⟨pc, sp, s.cfg.regsReset, 0⟩
        cycM := 0
        active := firstActive s.cfg
        toC := ⟨0, []⟩
        toM := ⟨0, []⟩
        rsp := .none }
  | tick (c : Ctx) (run : s.sched = .running) (ctx : s.ctx = some c) (h : enabledC s = true) :
    Completes s .tick ((tickWith (Config.execUnit c.pc c.sp c.regs) c s).answer .none)
  | step (n : Long) (c : Ctx) (run : s.sched = .running) (ctx : s.ctx = some c) (h : enabledC s = true) :
    Completes s (.step n) ((synchronise n.toNat s).answer .none)
  | excq : Completes s .excq (s.answer (.bit (excPending s)))
  | cstep (n : Long) (h : enabledM s = true) : Completes s (.cstep n) ((advanceM n.toNat s).answer .none)

/-- A conditional next state, taken apart. -/
theorem next_ite {b : Bool} {x y t : State}
    (h : (Host.Outcome.next (if b then x else y) : Host.Outcome State Fault Refusal) = .next t) :
    (b = true ∧ t = x) ∨ (b = false ∧ t = y) := by
  cases b
  · exact .inr ⟨rfl, (Host.Outcome.next.inj h).symm⟩
  · exact .inl ⟨rfl, (Host.Outcome.next.inj h).symm⟩

/-- Every next state of an operation: it takes its step, or it waits and only the answer says so. -/
theorem exec_next {i : Instr} {s t : State} (h : exec i s = .next t) :
    Completes s i t ∨ (Waits s i ∧ t = s.waiting) := by
  cases i with
  | rdb a => obtain ⟨e, rfl⟩ | ⟨e, rfl⟩ := next_ite h; exacts [.inl (.rdb a e), .inr ⟨.rdb a e, rfl⟩]
  | rdw a => obtain ⟨e, rfl⟩ | ⟨e, rfl⟩ := next_ite h; exacts [.inl (.rdw a e), .inr ⟨.rdw a e, rfl⟩]
  | rdl a => obtain ⟨e, rfl⟩ | ⟨e, rfl⟩ := next_ite h; exacts [.inl (.rdl a e), .inr ⟨.rdl a e, rfl⟩]
  | wrb a v => obtain ⟨e, rfl⟩ | ⟨e, rfl⟩ := next_ite h; exacts [.inl (.wrb a v e), .inr ⟨.wrb a v e, rfl⟩]
  | wrw a v => obtain ⟨e, rfl⟩ | ⟨e, rfl⟩ := next_ite h; exacts [.inl (.wrw a v e), .inr ⟨.wrw a v e, rfl⟩]
  | wrl a v => obtain ⟨e, rfl⟩ | ⟨e, rfl⟩ := next_ite h; exacts [.inl (.wrl a v e), .inr ⟨.wrl a v e, rfl⟩]
  | load src =>
    simp only [exec, execLoad] at h
    split at h
    · cases h
    · exact .inl (Host.Outcome.next.inj h ▸ .load src ‹_›)
  | unload =>
    simp only [exec, execUnload] at h
    split_ifs at h with hr
    · exact .inl (Host.Outcome.next.inj h ▸ .unloadRunning (by simpa [isRunning] using hr))
    · exact .inl (Host.Outcome.next.inj h ▸ .unloadIdle (by simpa [isRunning] using hr))
  | power r =>
    simp only [exec, execPower] at h
    split at h
    · cases h
    · split at h
      · cases h
      · exact .inl (Host.Outcome.next.inj h ▸ .power r _ _ _ ‹_› ‹_›)
  | tick =>
    simp only [exec, execTick] at h
    split at h
    · obtain ⟨e, rfl⟩ | ⟨e, rfl⟩ := next_ite h
      exacts [.inl (.tick _ ‹_› ‹_› e), .inr ⟨.tick _ ‹_› ‹_› e, rfl⟩]
    · cases h
  | step n =>
    simp only [exec, execStep] at h
    split at h
    · obtain ⟨e, rfl⟩ | ⟨e, rfl⟩ := next_ite h
      exacts [.inl (.step n _ ‹_› ‹_› e), .inr ⟨.step n _ ‹_› ‹_› e, rfl⟩]
    · cases h
  | excq => exact .inl (Host.Outcome.next.inj h ▸ .excq)
  | cstep n => obtain ⟨e, rfl⟩ | ⟨e, rfl⟩ := next_ite h; exacts [.inl (.cstep n e), .inr ⟨.cstep n e, rfl⟩]

/-- An operation that is not enabled answers that it waits. -/
theorem exec_waits {i : Instr} {s : State} (h : Waits s i) : exec i s = .next s.waiting := by
  cases h with
  | rdb _ h => simp [exec, execRdb, h]
  | rdw _ h => simp [exec, execRdw, h]
  | rdl _ h => simp [exec, execRdl, h]
  | wrb _ _ h => simp [exec, execWrb, h]
  | wrw _ _ h => simp [exec, execWrw, h]
  | wrl _ _ h => simp [exec, execWrl, h]
  | tick c hr hc h => simp [exec, execTick, hr, hc, h]
  | step n c hr hc h => simp [exec, execStep, hr, hc, h]
  | cstep n h => simp [exec, execCstep, h]

/-- An operation that takes its step answers the state after it. -/
theorem exec_completes {i : Instr} {s t : State} (h : Completes s i t) : exec i s = .next t := by
  cases h with
  | rdb _ h => simp [exec, execRdb, h]
  | rdw _ h => simp [exec, execRdw, h]
  | rdl _ h => simp [exec, execRdl, h]
  | wrb _ _ h => simp [exec, execWrb, h]
  | wrw _ _ h => simp [exec, execWrw, h]
  | wrl _ _ h => simp [exec, execWrl, h]
  | load src h => simp [exec, execLoad, h]
  | unloadRunning h => simp [exec, execUnload, isRunning, h]
  | unloadIdle h => simp [exec, execUnload, isRunning, h]
  | power r cells pc sp h hv => simp [exec, execPower, h, hv]
  | tick c hr hc h => simp [exec, execTick, hr, hc, h]
  | step n c hr hc h => simp [exec, execStep, hr, hc, h]
  | excq => rfl
  | cstep n h => simp [exec, execCstep, h]

/-- An operation that takes its step does not answer that it waits. -/
theorem completes_rsp {i : Instr} {s t : State} (h : Completes s i t) : t.rsp ≠ .waits := by
  cases h <;> simp

/-- An operation that waits does not take its step. -/
theorem waits_rsp (s : State) : s.waiting.rsp = .waits := rfl

/-- A next state whose answer is not `waits` comes from a step taken. -/
theorem exec_took_step {i : Instr} {s t : State} (h : exec i s = .next t) (hr : t.rsp ≠ .waits) : Completes s i t := by
  rcases exec_next h with hc | ⟨-, rfl⟩
  · exact hc
  · exact absurd rfl hr

/-- The six operations of the adapter reach the FIFO, storage, the bus's history and the answer, and nothing else (R130). -/
theorem completes_adapter {i : Instr} {s t : State} (h : Completes s i t)
    (hi : i.op ∈ [Op.rdb, .rdw, .rdl, .wrb, .wrw, .wrl]) :
    t = { s with evq := t.evq, mem := t.mem, trace := t.trace, rsp := t.rsp } := by
  have ans {u : State} (hu : BusOnly s u) (r : Response) :
      u.answer r = { s with evq := u.evq, mem := u.mem, trace := u.trace, rsp := r } := by
    unfold BusOnly at hu
    rw [hu]; rfl
  cases h with
  | rdb a _ => exact ans (progress_readByte a s).frame _
  | rdw a _ => exact ans (progress_readWord a s).frame _
  | rdl a _ => exact ans (progress_readLong a s).frame _
  | wrb a v _ => exact ans (busOnly_issueWrite (byteWrite a v) s) _
  | wrw a v _ => exact ans (busOnly_issueWrite (wordWrite a v) s) _
  | wrl a v _ => exact ans (busOnly_memWrite .long a v s) _
  | _ => simp [Instr.op] at hi

/-- The state TICK leaves, as a record (R163, R164). -/
theorem tickWith_eq (p : Prog) (c : Ctx) (s : State) :
    ∃ q m tr f, runProg p (notifyHook c s) = ({ notifyHook c s with evq := q, mem := m, trace := tr }, f) ∧
      tickWith p c s =
        { s with
          hookOut := s.hookOut ++ if s.hookAttached then [c] else []
          evq := []
          mem := storeAll s.cfg m q
          trace := tr ++ q.map postedEvent
          ctx := some ⟨f.pc, f.sp, f.regs, c.cycC + 1⟩
          toM := s.toM.send s.cfg.syncDepth ((c.cycC + 1) * periodC s.cfg)
          active := activeAfter s.cfg (blockedC { s with ctx := some ⟨f.pc, f.sp, f.regs, c.cycC + 1⟩ }) .m s.active } := by
  have hb := busOnly_runProg p (notifyHook c s)
  have hn : notifyHook c s = { s with hookOut := s.hookOut ++ if s.hookAttached then [c] else [] } := by
    unfold notifyHook
    split_ifs <;> simp
  unfold BusOnly at hb
  refine ⟨_, _, _, (runProg p (notifyHook c s)).2, Prod.ext hb rfl, ?_⟩
  unfold tickWith
  simp only
  rw [synchronise_eq (c := ⟨_, _, _, c.cycC⟩) rfl, hb, hn]
  rfl

/-- Every refusal of an operation (R198 a to c). -/
theorem exec_refused {i : Instr} {s : State} {r : Refusal} (h : exec i s = .refused r) :
    (∃ src cells, i = .load src ∧ s.boot = some cells ∧ r = .loadWhileLoaded) ∨
    (∃ b, i = .power b ∧ s.boot = none ∧ r = .powerWhileUnloaded) ∨
    (∃ b cells, i = .power b ∧ s.boot = some cells ∧ bootVector cells = none ∧ r = .bootIndexOutside) ∨
    (i = .tick ∧ (s.sched ≠ .running ∨ s.ctx = none) ∧ r = .tickNotRunning) ∨
    (∃ n, i = .step n ∧ (s.sched ≠ .running ∨ s.ctx = none) ∧ r = .stepNotRunning) := by
  cases i with
  | rdb | rdw | rdl | wrb | wrw | wrl | excq | cstep => cases h
  | unload => simp [exec, execUnload] at h
  | load src =>
    simp only [exec, execLoad] at h
    split at h
    · exact .inl ⟨src, _, rfl, ‹_›, by simpa using h.symm⟩
    · cases h
  | power b =>
    simp only [exec, execPower] at h
    split at h
    · exact .inr (.inl ⟨b, rfl, ‹_›, by simpa using h.symm⟩)
    · split at h
      · exact .inr (.inr (.inl ⟨b, _, rfl, ‹_›, ‹_›, by simpa using h.symm⟩))
      · cases h
  | tick =>
    simp only [exec, execTick] at h
    split at h
    · cases h
    · refine .inr (.inr (.inr (.inl ⟨rfl, ?_, by simpa using h.symm⟩)))
      rcases hs : s.sched with _ | _ | _ <;> rcases hc : s.ctx with _ | c <;> simp_all
  | step n =>
    simp only [exec, execStep] at h
    split at h
    · cases h
    · refine .inr (.inr (.inr (.inr ⟨n, rfl, ?_, by simpa using h.symm⟩)))
      rcases hs : s.sched with _ | _ | _ <;> rcases hc : s.ctx with _ | c <;> simp_all

/-- No operation answers a fault (R240, R252). -/
theorem exec_not_fault (i : Instr) (s : State) (r : Fault) : exec i s ≠ .fault r := nomatch r

end Sys2Proof.Machine
end

