-- ==== Sys2Proof/Laws/Depth.lean ====
section
/-!
SUPPORT. Looked at after performing everything issued (`direct`), an access of context C does the same at every depth of the FIFO
(R217 c). What a read answers after a drain.
-/

namespace Sys2Proof.Machine

/-- With both lanes selected plain storage answers the cell (R64). -/
@[simp] theorem storageAnswer_both (whole : Bool) (cell free : Word) (a : Addr) :
    storageAnswer whole cell free (readTxn true true a) = cell := by
  simp [storageAnswer, readTxn]

/-- A selected upper lane carries the cell's upper byte, whatever the other lane carries (R64). -/
theorem upperLane_storageAnswer (whole : Bool) (cell free : Word) {t : BusTxn} (h : t.upper = true) :
    upperLane (storageAnswer whole cell free t) = upperLane cell := by
  simp [storageAnswer, h]

/-- A selected lower lane carries the cell's lower byte, whatever the other lane carries (R64). -/
theorem lowerLane_storageAnswer (whole : Bool) (cell free : Word) {t : BusTxn} (h : t.lower = true) :
    lowerLane (storageAnswer whole cell free t) = lowerLane cell := by
  simp [storageAnswer, h]

/-- What a read answers once the FIFO is drained (R64, R72, R214). -/
theorem busAnswer_drained (s : State) (u l : Bool) (a : Addr) :
    busAnswer (drainAll s) (readTxn u l a) =
      if isDevice s.cfg a then Config.deviceAnswer (s.trace ++ s.evq.map postedEvent) (readTxn u l a)
      else storageAnswer s.cfg.wholeCells ((storeAll s.cfg s.mem s.evq).cell a)
        (Config.unselectedLanes (s.trace ++ s.evq.map postedEvent) (readTxn u l a)) (readTxn u l a) := by
  rw [drainAll_eq]
  rfl

/-- What has been issued, performed: a write issued is stored on top of it, at every depth of the FIFO (R213, R217 c). -/

theorem drainAll_issueWrite (w : Posted) {s : State} (hf : s.evq.length ≤ s.cfg.evqDepth) :
    drainAll (issueWrite w s) =
      { drainAll s with
        mem := storageAfter s.cfg (storeAll s.cfg s.mem s.evq) (postedTxn w)
        trace := s.trace ++ s.evq.map postedEvent ++ [postedEvent w] } := by
  by_cases h0 : s.cfg.evqDepth = 0
  · have he : s.evq = [] := List.length_eq_zero_iff.mp (by omega)
    simp [issueWrite_direct h0, drainAll_eq, he, storeAll_nil]
  by_cases h : s.evq.length = s.cfg.evqDepth
  · cases hv : s.evq with
    | nil => rw [hv] at h; exact absurd h.symm h0
    | cons v vs =>
      rw [issueWrite_full hv h]
      simp [drainAll_eq, storeAll_append, storeAll_cons, storeAll_nil, hv]
  · rw [issueWrite_room h0 h]
    simp [drainAll_eq, storeAll_append, storeAll_cons, storeAll_nil]

theorem direct_eq (s : State) : direct s =
   { s with
      evq := []
      mem := storeAll s.cfg s.mem s.evq
      trace := s.trace ++ s.evq.map postedEvent
      cfg := { s.cfg with evqDepth := 0 } } := by
  rw [direct, drainAll_eq]

theorem issueWrite_direct_state (w : Posted) {s : State} (hf : s.evq.length ≤ s.cfg.evqDepth) :
    issueWrite w (direct s) = direct (issueWrite w s) := by
  have h : (direct s).cfg.evqDepth = 0 := rfl
  rw [issueWrite_direct h]
  have hc : (issueWrite w s).cfg = s.cfg := (progress_issueWrite w hf).cfg
  rw [direct, direct, drainAll_issueWrite w hf, hc, drainAll_eq]
  rfl

theorem issueRead_direct_state (u l : Bool) (a : Addr) (s : State) :
    issueRead u l a (direct s) = (direct (issueRead u l a s).1, (issueRead u l a s).2) := by
  have h : drainAll (direct s) = direct s := drainAll_of_empty (by rw [direct_eq])
  rw [issueRead, h, issueRead]
  have h2 : busAnswer (direct s) (readTxn u l a) = busAnswer (drainAll s) (readTxn u l a) := by
    have e1 : isDevice (direct s).cfg (readTxn u l a).addr = isDevice (drainAll s).cfg (readTxn u l a).addr := by
      rw [direct_eq, drainAll_eq]; rfl
    have e2 : (direct s).trace = (drainAll s).trace := rfl
    have e3 : (direct s).mem = (drainAll s).mem := rfl
    have e4 : (direct s).cfg.wholeCells = (drainAll s).cfg.wholeCells := by rw [direct_eq, drainAll_eq]
    unfold busAnswer
    rw [e1, e2, e3, e4]
  rw [busRead, busRead, h2]
  congr 1
  rw [direct_eq, direct_eq, drainAll_eq]
  simp [storeAll_nil]

theorem readByte_direct_state (a : Addr) (s : State) : readByte a (direct s) = (direct (readByte a s).1, (readByte a s).2) := by
  simp only [readByte, issueRead_direct_state]

theorem readWord_direct_state (a : Addr) (s : State) : readWord a (direct s) = (direct (readWord a s).1, (readWord a s).2) := by
  simp only [readWord, issueRead_direct_state]

theorem readLong_direct_state (a : Addr) (s : State) : readLong a (direct s) = (direct (readLong a s).1, (readLong a s).2) := by
  simp only [readLong, issueRead_direct_state]

theorem memRead_direct_state (w : Width) (a : Addr) (s : State) :
    memRead w a (direct s) = (direct (memRead w a s).1, (memRead w a s).2) := by
  cases w
  · exact readByte_direct_state a s
  · exact readWord_direct_state a s
  · exact readLong_direct_state a s

theorem writeLong_direct_state (a : Addr) (v : Long) {s : State} (hf : s.evq.length ≤ s.cfg.evqDepth) :
    writeLong a v (direct s) = direct (writeLong a v s) := by
  have h1 := progress_issueWrite (longWriteHigh a v) hf
  rw [writeLong, issueWrite_direct_state _ hf, issueWrite_direct_state _ (by rw [h1.cfg]; exact h1.fits hf), writeLong]

theorem memWrite_direct_state (w : Width) (a : Addr) (v : Long) {s : State} (hf : s.evq.length ≤ s.cfg.evqDepth) :
    memWrite w a v (direct s) = direct (memWrite w a v s) := by
  cases w
  · exact issueWrite_direct_state _ hf
  · exact issueWrite_direct_state _ hf
  · exact writeLong_direct_state a v hf

theorem runProg_direct_state (p : Prog) {s : State} (hf : s.evq.length ≤ s.cfg.evqDepth) :
    runProg p (direct s) = (direct (runProg p s).1, (runProg p s).2) := by
  induction p generalizing s with
  | done pc sp regs => rfl
  | read w a k ih =>
    have h1 := progress_memRead w a s
    rw [runProg, memRead_direct_state]
    exact ih _ (by rw [h1.cfg]; exact h1.fits hf)
  | write w a v k ih =>
    obtain ⟨n1, h1, hw1⟩ := progress_memWrite w a v hf
    rw [runProg, memWrite_direct_state _ _ _ hf]
    exact ih (by rw [h1.cfg]; exact h1.fits hf)
  | excq k ih => exact ih _ hf

theorem direct_drainAll (s : State) : drainAll (direct s) = direct s := drainAll_of_empty (by rw [direct_eq])

theorem direct_drainAll' (s : State) : direct (drainAll s) = direct s := by
  rw [direct_eq, direct_eq, drainAll_eq]; simp [storeAll_nil]

theorem answer_direct (r : Response) (s : State) : (direct s).answer r = direct (s.answer r) := by
  rw [direct_eq, direct_eq]; rfl

theorem waiting_direct (s : State) : (direct s).waiting = direct s.waiting := by
  rw [direct_eq, direct_eq]; rfl

theorem synchronise_direct {s : State} {c : Ctx} (hc : s.ctx = some c) (n : Nat) :
    synchronise n (direct s) = direct (synchronise n s) := by
  have hc' : (direct s).ctx = some c := by rw [direct_eq]; exact hc
  rw [synchronise_eq hc', synchronise_eq hc, direct_eq, direct_eq]
  simp [storeAll_nil]
  exact ⟨rfl, rfl⟩

theorem advanceM_direct (n : Nat) (s : State) : advanceM n (direct s) = direct (advanceM n s) := by
  rw [advanceM_eq, advanceM_eq, direct_eq, direct_eq]
  rfl

theorem notifyHook_direct (c : Ctx) (s : State) : notifyHook c (direct s) = direct (notifyHook c s) := by
  unfold notifyHook
  have : (direct s).hookAttached = s.hookAttached := by rw [direct_eq]
  rw [this]
  split_ifs
  · rw [direct_eq, direct_eq]
  · rfl

theorem notifyHook_eq (c : Ctx) (s : State) :
    notifyHook c s = { s with hookOut := s.hookOut ++ if s.hookAttached then [c] else [] } := by
  unfold notifyHook; split_ifs <;> simp

theorem tickWith_direct {p : Prog} {c : Ctx} {s : State} (hf : s.evq.length ≤ s.cfg.evqDepth) :
    tickWith p c (direct s) = direct (tickWith p c s) := by
  have hp : (notifyHook c s).evq.length ≤ (notifyHook c s).cfg.evqDepth := by rw [notifyHook_eq]; exact hf
  unfold tickWith
  simp only [notifyHook_direct, runProg_direct_state p hp]
  rw [← synchronise_direct (c := ⟨_, _, _, c.cycC⟩) rfl]
  congr 1
  rw [direct_eq, direct_eq]

end Sys2Proof.Machine
end

