-- ==== Sys2Proof/Laws/Access.lean ====
section
/-!
SUPPORT. Reads and writes of the adapter on plain storage, by bytes and cells: what a read answers from the storage after everything
issued is performed, and what that storage is after a write.
-/

namespace Sys2Proof.Machine

theorem drainAll_cfg (s : State) : (drainAll s).cfg = s.cfg := by rw [drainAll_eq]

/-- What a read is answered by plain storage, from the storage after everything issued is performed. -/
theorem busAnswer_plain {s : State} {u l : Bool} {a : Addr} (hd : isDevice s.cfg a = false) :
    ∃ free, busAnswer (drainAll s) (readTxn u l a) =
      storageAnswer s.cfg.wholeCells ((drainAll s).mem.cell a) free (readTxn u l a) := by
  rw [busAnswer_drained, drainAll_eq, if_neg (by rw [hd]; decide)]
  exact ⟨_, rfl⟩

/-- A read of both lanes of plain storage answers the cell. -/
theorem busAnswer_plain_both {s : State} {a : Addr} (hd : isDevice s.cfg a = false) :
    busAnswer (drainAll s) (readTxn true true a) = (drainAll s).mem.cell a := by
  obtain ⟨free, h⟩ := busAnswer_plain (u := true) (l := true) hd
  rw [h, storageAnswer_both]

theorem issueRead_snd (u l : Bool) (a : Addr) (s : State) : (issueRead u l a s).2 = busAnswer (drainAll s) (readTxn u l a) := rfl

theorem drainAll_issueRead_mem (u l : Bool) (a : Addr) (s : State) : (drainAll (issueRead u l a s).1).mem = (drainAll s).mem := by
  rw [issueRead_eq, drainAll_eq, drainAll_eq]; simp [storeAll_nil]

theorem mem_after_issue (w : Posted) {s : State} (hf : s.evq.length ≤ s.cfg.evqDepth) (hd : isDevice s.cfg w.addr = false) :
    (drainAll (issueWrite w s)).mem = (drainAll s).mem.store (postedTxn w) := by
  rw [drainAll_issueWrite w hf, drainAll_eq]
  simp [storageAfter, postedTxn, hd]

theorem readByte_plain {s : State} {a : Addr} (hd : isDevice s.cfg (cellAddr a) = false) :
    (readByte a s).2 = (drainAll s).mem.read a.toNat := by
  obtain ⟨free, hb⟩ := busAnswer_plain (u := upperSelect a) (l := lowerSelect a) hd
  simp only [readByte, issueRead_snd, hb, selectLane]
  have h := cellAddr_toNat a
  rcases hs : a.getLsbD 0 with _ | _
  · have h2 := even_of_getLsbD_zero hs
    have : (cellAddr a).toNat = a.toNat := by omega
    rw [if_neg (by decide), upperLane_storageAnswer _ _ _ (by simp only [readTxn, upperSelect, hs, Bool.not_false]), Memory.cell,
      upperLane_joinBytes, this]
  · have h2 : a.toNat % 2 = 1 := of_decide_eq_true (getLsbD_zero_eq a ▸ hs)
    have : (cellAddr a).toNat + 1 = a.toNat := by omega
    rw [if_pos rfl, lowerLane_storageAnswer _ _ _ (by simp only [readTxn, lowerSelect, hs]), Memory.cell,
      lowerLane_joinBytes, this]

theorem readWord_plain {s : State} {a : Addr} (hd : isDevice s.cfg (cellAddr a) = false) :
    (readWord a s).2 = (drainAll s).mem.cell (cellAddr a) := by
  simp only [readWord, issueRead_snd, busAnswer_plain_both hd]

theorem readLong_plain {s : State} {a : Addr} (h1 : isDevice s.cfg (groupAddr a) = false)
    (h2 : isDevice s.cfg (groupAddr2 a) = false) :
    (readLong a s).2 = joinWords ((drainAll s).mem.cell (groupAddr a)) ((drainAll s).mem.cell (groupAddr2 a)) := by
  have hc : (issueRead true true (groupAddr a) s).1.cfg = s.cfg := by rw [issueRead_eq]
  simp only [readLong, issueRead_snd, busAnswer_plain_both h1]
  rw [busAnswer_plain_both (by rw [hc]; exact h2), drainAll_issueRead_mem]

theorem byte_stored {m : Memory} (hm : m.wf = true) (a : Addr) (v : Byte) :
    (m.store (postedTxn (byteWrite a v))).read a.toNat = v := by
  have h := cellAddr_toNat a
  rcases Nat.mod_two_eq_zero_or_one a.toNat with h2 | h2
  · have hs : a.getLsbD 0 = false := getLsbD_zero_of_even h2
    have := Memory.read_store_upper hm (t := postedTxn (byteWrite a v)) (by simp only [postedTxn, byteWrite, upperSelect, hs]; rfl)
    rw [show (postedTxn (byteWrite a v)).addr = cellAddr a from rfl, show (cellAddr a).toNat = a.toNat by omega] at this
    rw [this]; exact upperLane_duplicate v
  · have hs : a.getLsbD 0 = true := by rw [getLsbD_zero_eq]; simp [h2]
    have := Memory.read_store_lower hm (t := postedTxn (byteWrite a v)) (cellAddr_even a)
      (by simp only [postedTxn, byteWrite, lowerSelect, hs])
    rw [show (postedTxn (byteWrite a v)).addr = cellAddr a from rfl, show (cellAddr a).toNat + 1 = a.toNat by omega] at this
    rw [this]; exact lowerLane_duplicate v

theorem xor_one (a : Addr) : (a ^^^ 1#32).toNat = if a.toNat % 2 = 0 then a.toNat + 1 else a.toNat - 1 := by
  rw [BitVec.toNat_xor]
  show a.toNat ^^^ 1 = _
  split_ifs with h
  · obtain ⟨k, hk⟩ : ∃ k, a.toNat = 2 * k := ⟨a.toNat / 2, by omega⟩
    rw [hk, Nat.xor_one_of_even ⟨k, by omega⟩]
  · rw [Nat.xor_one_of_odd (Nat.odd_iff.mpr (by omega))]

theorem byte_kept (m : Memory) (a : Addr) (v : Byte) :
    (m.store (postedTxn (byteWrite a v))).read (a ^^^ 1#32).toNat = m.read (a ^^^ 1#32).toNat := by
  have h := cellAddr_toNat a
  refine Memory.read_store_other _ rfl ?_
  rw [xor_one]
  simp only [storesByte, postedTxn, byteWrite, upperSelect, lowerSelect]
  rw [getLsbD_zero_eq]
  rcases Nat.mod_two_eq_zero_or_one a.toNat with h2 | h2 <;> simp [h2] <;> omega

theorem cell_stored {m : Memory} (hm : m.wf = true) {w : Posted} (ha : w.addr.getLsbD 0 = false) (hu : w.upper = true)
    (hl : w.lower = true) :
    (m.store (postedTxn w)).cell w.addr = w.data := by
  have h1 := Memory.read_store_upper hm (t := postedTxn w) hu
  have h2 := Memory.read_store_lower hm (t := postedTxn w) ha hl
  rw [Memory.cell]
  rw [show (postedTxn w).addr = w.addr from rfl, show (postedTxn w).data = w.data from rfl] at h1 h2
  rw [h1, h2, joinBytes_lanes]

theorem cell_kept (m : Memory) {w : Posted} {a : Addr} (h : w.addr.toNat + 1 < a.toNat ∨ a.toNat + 1 < w.addr.toNat) :
    (m.store (postedTxn w)).cell a = m.cell a := by
  rw [Memory.cell, Memory.cell, Memory.read_store_other _ rfl, Memory.read_store_other _ rfl]
  all_goals
    simp only [storesByte, postedTxn, Bool.true_and, Bool.or_eq_false_iff, Bool.and_eq_false_imp, beq_eq_false_iff_ne]
    exact ⟨fun _ => by omega, fun _ => by omega⟩

end Sys2Proof.Machine
end

