-- ==== Sys2Proof/Laws/Decode.lean ====
section
/-!
SUPPORT. The fields of a command word (R101), read from its number and from its packed form, and what the decoder makes of them.
-/

namespace Sys2Proof

/-- A command word from the numbers of its three fields (R101). -/
def numberedWord (op : Nat) (a d : Long) : CmdWord := BitVec.ofNat 68 (op * 2 ^ 64 + a.toNat * 2 ^ 32 + d.toNat)

theorem opField_toNat (w : CmdWord) : (opField w).toNat = w.toNat / 2 ^ 64 := by
  have := w.isLt
  simp only [opField, BitVec.extractLsb'_toNat, Nat.shiftRight_eq_div_pow]
  omega

theorem aField_toNat (w : CmdWord) : (aField w).toNat = w.toNat / 2 ^ 32 % 2 ^ 32 := by
  simp only [aField, BitVec.extractLsb'_toNat, Nat.shiftRight_eq_div_pow]

theorem dField_toNat (w : CmdWord) : (dField w).toNat = w.toNat % 2 ^ 32 := by
  simp only [dField, BitVec.extractLsb'_toNat, Nat.shiftRight_zero]

theorem numberedWord_toNat {op : Nat} (h : op < 16) (a d : Long) :
    (numberedWord op a d).toNat = op * 2 ^ 64 + a.toNat * 2 ^ 32 + d.toNat := by
  have := a.isLt; have := d.isLt
  rw [numberedWord, BitVec.toNat_ofNat]
  exact Nat.mod_eq_of_lt (by omega)

theorem opField_numbered {op : Nat} (h : op < 16) (a d : Long) : opField (numberedWord op a d) = BitVec.ofNat 4 op := by
  have := a.isLt; have := d.isLt
  apply BitVec.eq_of_toNat_eq
  rw [opField_toNat, numberedWord_toNat h, BitVec.toNat_ofNat]
  omega

theorem aField_numbered {op : Nat} (h : op < 16) (a d : Long) : aField (numberedWord op a d) = a := by
  have := a.isLt; have := d.isLt
  apply BitVec.eq_of_toNat_eq
  rw [aField_toNat, numberedWord_toNat h]
  omega

theorem dField_numbered {op : Nat} (h : op < 16) (a d : Long) : dField (numberedWord op a d) = d := by
  have := a.isLt; have := d.isLt
  apply BitVec.eq_of_toNat_eq
  rw [dField_toNat, numberedWord_toNat h]
  omega

theorem packCmd_toNat (code : BitVec 4) (a : Addr) (d : Long) :
    (packCmd code a d).toNat = code.toNat * 2 ^ 64 + a.toNat * 2 ^ 32 + d.toNat := by
  have := a.isLt; have := d.isLt
  rw [packCmd, BitVec.toNat_append, BitVec.toNat_append, ← Nat.shiftLeft_add_eq_or_of_lt (by omega),
    ← Nat.shiftLeft_add_eq_or_of_lt (by omega), Nat.shiftLeft_eq, Nat.shiftLeft_eq]
  omega

/-- The packed form is the numbered one. -/
theorem packCmd_numbered (code : BitVec 4) (a : Addr) (d : Long) : packCmd code a d = numberedWord code.toNat a d :=
  BitVec.eq_of_toNat_eq (by rw [packCmd_toNat, numberedWord_toNat code.isLt])

/-- A word is the packed form of its fields. -/
theorem packCmd_fields (w : CmdWord) : packCmd (opField w) (aField w) (dField w) = w :=
  BitVec.eq_of_toNat_eq (by
    rw [packCmd_toNat, opField_toNat, aField_toNat, dField_toNat]
    have := w.isLt
    omega)

/-- Decoding a defined code (R105). -/
theorem decode_defined {c : Cmd} {o : Op} (h : Op.ofCode (opField c.word) = some o) :
    decode c = .ok (o.assemble (aField c.word) (dField c.word) c.src) := by
  simp only [decode, h]

/-- Decoding a word by the values of its fields (R105). -/
theorem decode_of_fields {w : CmdWord} {code : BitVec 4} {a : Addr} {d : Long} {o : Op} (hc : opField w = code)
    (ha : aField w = a) (hd : dField w = d) (ho : Op.ofCode code = some o) (src : Option (List Byte)) :
    decode ⟨w, src⟩ = .ok (o.assemble a d src) := by
  subst hc ha hd
  exact decode_defined ho

/-- Decoding a numbered word (R105). -/
theorem decode_numbered {op : Nat} (h : op < 16) {o : Op} (ho : Op.ofCode (BitVec.ofNat 4 op) = some o) (a d : Long)
    (src : Option (List Byte)) : decode ⟨numberedWord op a d, src⟩ = .ok (o.assemble a d src) :=
  decode_of_fields (opField_numbered h a d) (aField_numbered h a d) (dField_numbered h a d) ho src

/-- Decoding a reserved code (R106). -/
theorem decode_reserved {c : Cmd} (h : Op.ofCode (opField c.word) = none) :
    decode c = .error (.reservedOp (opField c.word)) := by
  simp only [decode, h]

theorem Op.ofCode_code (o : Op) : Op.ofCode o.code = some o := by cases o <;> rfl

theorem Op.code_of_ofCode {code : BitVec 4} {o : Op} (h : Op.ofCode code = some o) : o.code = code := by
  revert o
  revert code
  decide

/-- The reserved codes are exactly 0x3, 0x7 and 0xF (R106). -/
theorem Op.ofCode_none_iff (code : BitVec 4) :
    Op.ofCode code = none ↔ code.toNat = 0x3 ∨ code.toNat = 0x7 ∨ code.toNat = 0xF := by
  revert code
  decide

theorem decode_ok {c : Cmd} {i : Instr} (h : decode c = .ok i) :
    ∃ o, Op.ofCode (opField c.word) = some o ∧ i = o.assemble (aField c.word) (dField c.word) c.src := by
  unfold decode at h
  split at h
  · exact ⟨_, ‹_›, (Except.ok.inj h).symm⟩
  · cases h

end Sys2Proof
end

