-- ==== Sys2Proof/Laws/Schedule.lean ====
section
/-!
SUPPORT. What a turn of the schedule can do, said once: `step_next` lists every way a step ends in a next state.
-/

namespace Sys2Proof.Machine

/-- A step from a state and where it goes. -/
inductive Goes (s : State) : State → Prop where
  | noTurn (h : s.turns = []) : Goes s s
  | drain (later : List Turn) (h : s.turns = .drain :: later) : Goes s (drainOne { s with turns := later })
  | deliverToC (later : List Turn) (h : s.turns = .deliverToC :: later) :
    Goes s { s with turns := later, toC := s.toC.deliver }
  | deliverToM (later : List Turn) (h : s.turns = .deliverToM :: later) :
    Goes s { s with turns := later, toM := s.toM.deliver }
  | nothingAsked (a : Agent) (later : List Turn) (h : s.turns = .agent a :: later) (none : takeFirst a s.inputs = none) :
    Goes s { s with turns := later }
  | command (a : Agent) (later : List Turn) (c : Cmd) (rest : List Input) (i : Instr) (u : State)
    (h : s.turns = .agent a :: later) (first : takeFirst a s.inputs = some (.command c, rest)) (ok : decode c = .ok i)
    (run : exec i { s with turns := later } = .next u) :
    Goes s (if u.rsp = .waits then u else { u with inputs := rest })
  | companionWrite (a : Agent) (later : List Turn) (b : BusTxn) (rest : List Input) (h : s.turns = .agent a :: later)
    (first : takeFirst a s.inputs = some (.companionBus b, rest)) (en : enabledM s = true) (wr : b.write = true) :
    Goes s
      { s with
        turns := later
        inputs := rest
        mem := storageAfter s.cfg s.mem { b with addr := cellAddr b.addr }
        trace := s.trace ++ [⟨.m, { b with addr := cellAddr b.addr }⟩]
        rsp := .none }
  | companionRead (a : Agent) (later : List Turn) (b : BusTxn) (rest : List Input) (h : s.turns = .agent a :: later)
    (first : takeFirst a s.inputs = some (.companionBus b, rest)) (en : enabledM s = true) (rd : b.write = false) :
    Goes s
      { s with
        turns := later
        inputs := rest
        trace := s.trace ++ [⟨.m, readTxn b.upper b.lower (cellAddr b.addr)⟩]
        rsp := .companion (busAnswer s (readTxn b.upper b.lower (cellAddr b.addr))) }
  | companionWaits (a : Agent) (later : List Turn) (b : BusTxn) (rest : List Input) (h : s.turns = .agent a :: later)
    (first : takeFirst a s.inputs = some (.companionBus b, rest)) (en : enabledM s = false) :
    Goes s { s with turns := later, rsp := .waits }
  | hook (a : Agent) (later : List Turn) (attach : Bool) (rest : List Input) (h : s.turns = .agent a :: later)
    (first : takeFirst a s.inputs = some (.hook attach, rest)) :
    Goes s { s with turns := later, inputs := rest, hookAttached := attach, rsp := .none }

/-- Every next state of a step. -/
theorem step_next {s t : State} (h : step s = .next t) : Goes s t := by
  unfold step at h
  split at h
  · cases h; exact .noTurn ‹_›
  rename_i turn later hs
  cases turn with
  | drain => cases h; exact .drain later hs
  | deliverToC => cases h; exact .deliverToC later hs
  | deliverToM => cases h; exact .deliverToM later hs
  | agent a =>
    simp only [takeTurn, agentTurn] at h
    split at h
    · cases h; exact .nothingAsked a later hs ‹_›
    rename_i x rest hx
    cases x with
    | command c =>
      simp only [carryOut] at h
      split at h
      · rename_i i hi
        cases hu : exec i { s with turns := later } with
        | next u =>
          rw [hu] at h
          exact Host.Outcome.next.inj h ▸ .command a later c rest i u hs hx hi hu
        | fault r => exact nomatch r
        | refused r => rw [hu] at h; cases h
      · cases h
    | companionBus b =>
      have h := Host.Outcome.next.inj h
      have he : enabledM { s with turns := later } = enabledM s := rfl
      by_cases hm : enabledM s = true
      · obtain ⟨w, up, lo, addr, d⟩ := b
        cases w <;> simp only [companionBus, he, hm, if_true, Bool.false_eq_true, if_false, answer_rsp, reduceCtorEq] at h
        · exact h ▸ .companionRead a later _ rest hs hx hm rfl
        · exact h ▸ .companionWrite a later _ rest hs hx hm rfl
      · rw [Bool.not_eq_true] at hm
        simp only [companionBus, he, hm, Bool.false_eq_true, if_false, waiting_rsp, if_true] at h
        exact h ▸ .companionWaits a later b rest hs hx hm
    | hook attach => cases h; exact .hook a later attach rest hs hx

/-- The step of a turn that takes a command which decodes. -/
theorem step_command {s : State} {a : Agent} {later : List Turn} {c : Cmd} {rest : List Input} {i : Instr}
    (h : s.turns = .agent a :: later) (first : takeFirst a s.inputs = some (.command c, rest)) (ok : decode c = .ok i) :
    step s = settle rest (exec i { s with turns := later }) := by
  simp only [step, h, takeTurn, agentTurn, first, carryOut, ok]

/-- The invariant of runs: what every step keeps is kept along every run. -/
theorem Runs.keeps {P : State → Prop} (hstep : ∀ s t, P s → step s = .next t → P t) {k : Nat} {s t : State}
    (h : Runs k s t) (hs : P s) : P t := by
  induction h with
  | refl => exact hs
  | next first rest ih => exact ih (hstep _ _ hs first)

/-- A relation that steps make and that composes holds between the ends of every run. -/
theorem Runs.relates {R : State → State → Prop} (refl : ∀ s, R s s) (trans : ∀ s t u, R s t → R t u → R s u)
    (hstep : ∀ s t, step s = .next t → R s t) {k : Nat} {s t : State} (h : Runs k s t) : R s t := by
  induction h with
  | refl => exact refl _
  | next first rest ih => exact trans _ _ _ (hstep _ _ first) ih

end Sys2Proof.Machine
end

