-- ==== Sys2Proof/Laws/Invariant.lean ====
section
/-!
SUPPORT. The invariant of the machine through each of the shared operations and through every operation of the block.
-/

namespace Sys2Proof.Machine

theorem posted_addr_even {w : Posted} (h : w.wf = true) : w.addr.getLsbD 0 = false := by
  simp only [Posted.wf, Bool.and_eq_true, Bool.not_eq_true'] at h
  exact h.1

theorem wf_storeEvents {c : Config} {m : Memory} (hm : m.wf = true) {es : List BusEvent}
    (h : ∀ e ∈ es, e.txn.wf = true) : (storeEvents c m es).wf = true := by
  induction es generalizing m with
  | nil => exact hm
  | cons e es ih =>
    have he := h e List.mem_cons_self
    simp only [BusTxn.wf, Bool.and_eq_true, Bool.not_eq_true'] at he
    exact ih (Memory.wf_storageAfter hm he.1) fun v hv => h v (List.mem_cons_of_mem _ hv)

/-- What the invariant says of the bus and the FIFO. -/
structure BusInv (s : State) : Prop where
  memory : s.mem.wf = true
  fifoFits : s.evq.length ≤ s.cfg.evqDepth
  fifoEntries : ∀ w ∈ s.evq, w.wf = true
  transactions : ∀ e ∈ s.trace, e.txn.wf = true
  lanes : ∀ e ∈ s.trace, e.issuer = .c → e.txn.lanesSelected = true

theorem State.Inv.bus {s : State} (h : s.Inv) : BusInv s :=
  ⟨h.memory, h.fifoFits, h.fifoEntries, h.transactions, h.lanes⟩

theorem Progress.busInv {s t : State} {new : List Posted} (h : Progress s t new) (hn : ∀ w ∈ new, w.wf = true)
    (b : BusInv s) : BusInv t := by
  obtain ⟨es, htr, hmem, -, hwf⟩ := h.events
  obtain ⟨hq, he⟩ := hwf fun w hw => (List.mem_append.mp hw).elim (b.fifoEntries w) (hn w)
  refine ⟨?_, ?_, hq, ?_, ?_⟩
  · rw [hmem]; exact wf_storeEvents b.memory fun e h => (he e h).2.1
  · rw [h.cfg]; exact h.fits b.fifoFits
  · rw [htr]; exact fun e h => (List.mem_append.mp h).elim (b.transactions e) fun h => (he e h).2.1
  · rw [htr]; exact fun e h => (List.mem_append.mp h).elim (b.lanes e) fun h _ => (he e h).2.2

/-- A state that differs in the bus and FIFO only, and whose bus part is right. -/
theorem State.Inv.busOnly {s t : State} (h : s.Inv) (f : BusOnly s t) (b : BusInv t)
    (hw : waitsC s = true → t.evq = []) : t.Inv := by
  unfold BusOnly at f
  rw [f] at b ⊢
  exact
  { parameters := h.parameters
    memory := b.memory
    context := h.context
    runningLoaded := h.runningLoaded
    haltedUnloaded := h.haltedUnloaded
    bootLength := h.bootLength
    debugNode := h.debugNode
    fifoFits := b.fifoFits
    fifoEntries := b.fifoEntries
    waitingDrained := hw
    activeExists := h.activeExists
    activeNotBlocked := h.activeNotBlocked
    viewOfCompanion := h.viewOfCompanion
    viewOfCoprocessor := h.viewOfCoprocessor
    transactions := b.transactions
    lanes := b.lanes }

/-- fields the invariant does not speak of -/
theorem State.Inv.external {s : State} (h : s.Inv) (r : Response) (ho : List Ctx) (xs : List Input) (ts : List Turn) (hk : Bool) :
    State.Inv { s with rsp := r, hookOut := ho, inputs := xs, turns := ts, hookAttached := hk } :=
  { parameters := h.parameters
    memory := h.memory
    context := h.context
    runningLoaded := h.runningLoaded
    haltedUnloaded := h.haltedUnloaded
    bootLength := h.bootLength
    debugNode := h.debugNode
    fifoFits := h.fifoFits
    fifoEntries := h.fifoEntries
    waitingDrained := h.waitingDrained
    activeExists := h.activeExists
    activeNotBlocked := h.activeNotBlocked
    viewOfCompanion := h.viewOfCompanion
    viewOfCoprocessor := h.viewOfCoprocessor
    transactions := h.transactions
    lanes := h.lanes }

theorem bootCellsFrom_length (n : Nat) (bs : List Byte) : (bootCellsFrom n bs).length = n := by
  induction n, bs using bootCellsFrom.induct <;> simp_all [bootCellsFrom]

theorem enabledC_waits {s : State} (h : enabledC s = true) : waitsC s = false := by
  simp only [enabledC, Bool.and_eq_true, Bool.not_eq_true'] at h; exact h.1


theorem inv_advanceC {s : State} {c : Ctx} (h : s.Inv) (hr : s.sched = .running) (hc : s.ctx = some c) (he : s.evq = [])
    (n : Nat) : (advanceC n s).Inv := by
  rw [advanceC_eq hc]
  have hr' : isRunning s = true := by simp [isRunning, hr]
  have hT : timeC s = c.cycC * periodC s.cfg := by simp [timeC, hc]
  refine
  { parameters := h.parameters
    memory := h.memory
    context := by simp [isRunning, hr]
    runningLoaded := h.runningLoaded
    haltedUnloaded := h.haltedUnloaded
    bootLength := h.bootLength
    debugNode := h.debugNode
    fifoFits := h.fifoFits
    fifoEntries := h.fifoEntries
    waitingDrained := fun _ => he
    activeExists := ?_
    activeNotBlocked := ?_
    viewOfCompanion := h.viewOfCompanion
    viewOfCoprocessor := fun _ => ?_
    transactions := h.transactions
    lanes := h.lanes }
  · have := h.activeExists
    simp only [activeAfter, firstActive] at this ⊢
    split <;> simp_all
    split <;> simp_all
  · have h1 := h.activeNotBlocked
    have h0 := h.activeExists
    simp only [activeAfter, firstActive, blockedC, blockedM, isRunning, hr, timeC, timeM, hc] at h1 h0 ⊢
    split
    · simp_all
    · split
      · simp_all; 
        rename_i h4
        omega
      · simp_all 
        rename_i h4
        intro h5
        have := h1.2 h5
        simp only [Nat.add_mul] at *
        omega
  · show SyncLink.Ok s.cfg.syncDepth ((c.cycC + n) * periodC s.cfg) _
    have := h.viewOfCoprocessor hr
    rw [hT] at this
    simp only
    split_ifs with hn
    · simpa [hn] using this
    · exact this.send (Nat.mul_le_mul_right _ (by omega))

theorem SyncLink.view_le_send (depth t : Nat) (k : SyncLink) : k.view ≤ (k.send depth t).view := by
  unfold SyncLink.send
  split_ifs
  · exact Nat.le_refl _
  · exact k.view_le_deliver
  · exact Nat.le_refl _

theorem viewOfM_mono {s t : State} (hc : t.cfg = s.cfg) (hm : timeM s ≤ timeM t) (hv : s.toC.view ≤ t.toC.view) :
    viewOfM s ≤ viewOfM t := by
  unfold viewOfM
  rw [hc]
  split_ifs <;> assumption

theorem waitsC_antitone {s t : State} (hc : t.cfg = s.cfg) (hs : t.sched = s.sched) (ht : timeC t = timeC s)
    (hm : timeM s ≤ timeM t) (hv : s.toC.view ≤ t.toC.view) (hw : waitsC t = true) : waitsC s = true := by
  have := viewOfM_mono hc hm hv
  simp only [waitsC, isRunning, Bool.and_eq_true, decide_eq_true_eq, hc, hs, ht] at hw ⊢
  exact ⟨hw.1, by omega⟩

theorem waitsC_advanceM {s : State} {n : Nat} (h : waitsC (advanceM n s) = true) : waitsC s = true := by
  refine waitsC_antitone (t := advanceM n s) (by rw [advanceM_eq]) (by rw [advanceM_eq]) (by rw [advanceM_eq]; rfl) ?_ ?_ h
  · rw [advanceM_eq]
    exact Nat.mul_le_mul_right _ (Nat.le_add_right _ _)
  · rw [advanceM_eq]
    show s.toC.view ≤ (if n = 0 then s.toC else _).view
    split_ifs
    · exact Nat.le_refl _
    · exact SyncLink.view_le_send _ _ _

theorem inv_advanceM {s : State} (h : s.Inv) (n : Nat) : (advanceM n s).Inv := by
  have hwd : waitsC (advanceM n s) = true → (advanceM n s).evq = [] := fun hw => by
    have := h.waitingDrained (waitsC_advanceM hw)
    rw [advanceM_eq]; exact this
  have hv := h.viewOfCompanion
  have hlink : SyncLink.Ok s.cfg.syncDepth ((s.cycM + n) * periodM s.cfg)
      (if n = 0 then s.toC else s.toC.send s.cfg.syncDepth ((s.cycM + n) * periodM s.cfg)) := by
    split_ifs with hn
    · simpa [hn, timeM] using hv
    · exact hv.send (Nat.mul_le_mul_right _ (by omega))
  rw [advanceM_eq] at hwd ⊢
  refine
  { parameters := h.parameters
    memory := h.memory
    context := h.context
    runningLoaded := h.runningLoaded
    haltedUnloaded := h.haltedUnloaded
    bootLength := h.bootLength
    debugNode := h.debugNode
    fifoFits := h.fifoFits
    fifoEntries := h.fifoEntries
    waitingDrained := hwd
    activeExists := ?_
    activeNotBlocked := ?_
    viewOfCompanion := hlink
    viewOfCoprocessor := h.viewOfCoprocessor
    transactions := h.transactions
    lanes := h.lanes }
  · have := h.activeExists
    simp only [activeAfter, firstActive] at this ⊢
    split <;> simp_all
    split <;> simp_all
  · have h1 := h.activeNotBlocked
    have h0 := h.activeExists
    have hm : timeM s ≤ (s.cycM + n) * periodM s.cfg := Nat.mul_le_mul_right _ (by omega)
    generalize hT : (s.cycM + n) * periodM s.cfg = T at *
    have e1 : ∀ x y, blockedC { s with cycM := s.cycM + n, toC := x, active := y } =
        (isRunning s && decide (timeC s > T + quotaTicks s.cfg)) := by
      intro x y; rw [← hT]; rfl
    have e2 : ∀ x y, blockedM { s with cycM := s.cycM + n, toC := x, active := y } =
        (isRunning s && decide (T > timeC s + quotaTicks s.cfg)) := by
      intro x y; rw [← hT]; rfl
    rw [e1, e2]
    rw [e2]
    simp only [blockedC, blockedM, activeAfter, firstActive] at *
    generalize isRunning s = R at *
    cases R
    · simp
    · simp only [Bool.true_and, decide_eq_true_eq, decide_eq_false_iff_not] at *
      generalize s.cfg.policy = P at *
      cases P
      · simp_all
      · simp only at *
        split_ifs with hq
        · simp; omega
        · refine ⟨fun a => ?_, fun _ => hq⟩
          have := h1.1 a
          omega

theorem inv_progress {s t : State} {new : List Posted} (h : s.Inv) (p : Progress s t new) (hn : ∀ w ∈ new, w.wf = true)
    (hw : waitsC s = true → t.evq = []) : t.Inv :=
  h.busOnly p.frame (p.busInv hn h.bus) hw

theorem inv_answer {s : State} (h : s.Inv) (r : Response) : (s.answer r).Inv :=
  h.external r s.hookOut s.inputs s.turns s.hookAttached

theorem inv_ctx {s : State} (h : s.Inv) {c : Ctx} (hc : s.ctx = some c) (pc sp : Long) (regs : Regs) :
    State.Inv { s with ctx := some ⟨pc, sp, regs, c.cycC⟩ } := by
  have hT : ∀ x, timeC { s with ctx := some ⟨pc, sp, regs, c.cycC⟩, evq := x } = timeC s := fun x => by simp [timeC, hc]
  refine
  { parameters := h.parameters
    memory := h.memory
    context := by have := h.context; rw [hc] at this; exact this
    runningLoaded := h.runningLoaded
    haltedUnloaded := h.haltedUnloaded
    bootLength := h.bootLength
    debugNode := h.debugNode
    fifoFits := h.fifoFits
    fifoEntries := h.fifoEntries
    waitingDrained := fun hw => h.waitingDrained ?_
    activeExists := h.activeExists
    activeNotBlocked := ?_
    viewOfCompanion := h.viewOfCompanion
    viewOfCoprocessor := ?_
    transactions := h.transactions
    lanes := h.lanes }
  · have := hT s.evq
    simp only [waitsC, this] at hw
    exact hw
  · have := hT s.evq
    have h1 := h.activeNotBlocked
    simp only [blockedC, blockedM, this] at h1 ⊢
    exact h1
  · have := hT s.evq
    rw [this]
    exact h.viewOfCoprocessor

theorem inv_drainAll {s : State} (h : s.Inv) : (drainAll s).Inv :=
  inv_progress h (progress_drainAll s) (by simp) fun _ => by rw [drainAll_eq]

theorem inv_synchronise {s : State} {c : Ctx} (h : s.Inv) (hr : s.sched = .running) (hc : s.ctx = some c)
    (n : Nat) : (synchronise n s).Inv := by
  have he : drainAll s = _ := drainAll_eq s
  exact inv_advanceC (c := c) (inv_drainAll h) (by rw [he]; exact hr) (by rw [he]; exact hc) (by rw [he]) n

theorem inv_start {s : State} (h : s.Inv) (hq : s.evq = []) (hb : s.boot.isSome = true) (pc sp : Long) (regs : Regs) :
    State.Inv
      { s with
        sched := .running
        ctx := some ⟨pc, sp, regs, 0⟩
        cycM := 0
        active := firstActive s.cfg
        toC := ⟨0, []⟩
        toM := ⟨0, []⟩ } :=
  { parameters := h.parameters
    memory := h.memory
    context := rfl
    runningLoaded := fun _ => hb
    haltedUnloaded := fun h => by cases h
    bootLength := h.bootLength
    debugNode := h.debugNode
    fifoFits := h.fifoFits
    fifoEntries := h.fifoEntries
    waitingDrained := fun _ => hq
    activeExists := rfl
    activeNotBlocked := by simp [blockedC, blockedM, timeC, timeM]
    viewOfCompanion := by simpa [timeM] using SyncLink.Ok.start s.cfg.syncDepth
    viewOfCoprocessor := fun _ => by simpa [timeC] using SyncLink.Ok.start s.cfg.syncDepth
    transactions := h.transactions
    lanes := h.lanes }

theorem notRunning_blocked {s : State} (h : s.sched ≠ .running) :
    blockedC s = false ∧ blockedM s = false ∧ waitsC s = false ∧ waitsM s = false := by
  have : isRunning s = false := by simpa [isRunning] using h
  simp [blockedC, blockedM, waitsC, waitsM, this]

theorem inv_completes {i : Instr} {s t : State} (h : s.Inv) (hc : Completes s i t) : t.Inv := by
  have hf := h.fifoFits
  cases hc with
  | rdb a e => exact inv_answer (inv_progress h (progress_readByte a s) (by simp) fun hw => by simp [enabledC_waits e] at hw) _
  | rdw a e => exact inv_answer (inv_progress h (progress_readWord a s) (by simp) fun hw => by simp [enabledC_waits e] at hw) _
  | rdl a e => exact inv_answer (inv_progress h (progress_readLong a s) (by simp) fun hw => by simp [enabledC_waits e] at hw) _
  | wrb a v e =>
    exact inv_answer (inv_progress h (progress_writeByte a v hf) (by simp [byteWrite_wf])
      fun hw => by simp [enabledC_waits e] at hw) _
  | wrw a v e =>
    exact inv_answer (inv_progress h (progress_writeWord a v hf) (by simp [wordWrite_wf])
      fun hw => by simp [enabledC_waits e] at hw) _
  | wrl a v e =>
    exact inv_answer (inv_progress h (progress_writeLong a v hf) (by simp [longWriteHigh_wf, longWriteLow_wf])
      fun hw => by simp [enabledC_waits e] at hw) _
  | load src hb =>
    have hnr : s.sched ≠ .running := fun hr => by have := h.runningLoaded hr; simp [hb] at this
    have hctx : s.ctx = none := by
      have := h.context
      cases hx : s.ctx <;> simp_all [isRunning]
    exact
    { parameters := h.parameters
      memory := h.memory
      context := by simp [hctx, isRunning]
      runningLoaded := fun h => by cases h
      haltedUnloaded := fun h => by cases h
      bootLength := fun cells hc => by cases hc; exact bootCellsFrom_length _ _
      debugNode := rfl
      fifoFits := h.fifoFits
      fifoEntries := h.fifoEntries
      waitingDrained := fun hw => by simp [waitsC, isRunning] at hw
      activeExists := h.activeExists
      activeNotBlocked := by simp [blockedC, blockedM, isRunning]
      viewOfCompanion := h.viewOfCompanion
      viewOfCoprocessor := fun h => by cases h
      transactions := h.transactions
      lanes := h.lanes }
  | unloadRunning hr =>
    have hd := inv_drainAll h
    exact
    { parameters := hd.parameters
      memory := hd.memory
      context := rfl
      runningLoaded := fun h => by cases h
      haltedUnloaded := fun _ => rfl
      bootLength := fun cells hc => by cases hc
      debugNode := rfl
      fifoFits := hd.fifoFits
      fifoEntries := hd.fifoEntries
      waitingDrained := fun hw => by simp [waitsC, isRunning] at hw
      activeExists := hd.activeExists
      activeNotBlocked := by simp [blockedC, blockedM, isRunning]
      viewOfCompanion := hd.viewOfCompanion
      viewOfCoprocessor := fun h => by cases h
      transactions := hd.transactions
      lanes := hd.lanes }
  | unloadIdle hr =>
    have hd := inv_drainAll h
    have hs : (drainAll s).sched = s.sched := by rw [drainAll_eq]
    exact
    { parameters := hd.parameters
      memory := hd.memory
      context := hd.context
      runningLoaded := fun h => by simp [hs, hr] at h
      haltedUnloaded := fun _ => rfl
      bootLength := fun cells hc => by cases hc
      debugNode := rfl
      fifoFits := hd.fifoFits
      fifoEntries := hd.fifoEntries
      waitingDrained := fun hw => by simp [waitsC, isRunning, hs, hr] at hw
      activeExists := hd.activeExists
      activeNotBlocked := by simp [blockedC, blockedM, isRunning, hs, hr]
      viewOfCompanion := hd.viewOfCompanion
      viewOfCoprocessor := fun h => by simp [hs, hr] at h
      transactions := hd.transactions
      lanes := hd.lanes }
  | power r cells pc sp hb hv =>
    have hcfg : (drainAll s).cfg = s.cfg := by rw [drainAll_eq]
    have := inv_start (inv_drainAll h) (by rw [drainAll_eq]) (by rw [drainAll_eq]; simp [hb]) pc sp s.cfg.regsReset
    simp only [hcfg] at this
    have := inv_answer this .none
    simp only [State.answer, hcfg] at this ⊢
    exact this
  | tick c hr hc e =>
    obtain ⟨new, hp, hn⟩ := progress_runProg (Config.execUnit c.pc c.sp c.regs) (s := notifyHook c s)
      (by unfold notifyHook; split_ifs <;> exact hf)
    have h1 : (notifyHook c s).Inv := by
      unfold notifyHook; split_ifs
      · exact h.external s.rsp _ s.inputs s.turns s.hookAttached
      · exact h
    have hw : waitsC (notifyHook c s) = false := by
      have := enabledC_waits e
      unfold notifyHook; split_ifs <;> exact this
    have h2 := inv_progress h1 hp hn fun hw' => by simp [hw] at hw'
    have hctx : (notifyHook c s).ctx = some c := by unfold notifyHook; split_ifs <;> exact hc
    have hsch : (notifyHook c s).sched = .running := by unfold notifyHook; split_ifs <;> exact hr
    exact inv_answer (inv_synchronise (inv_ctx h2 (c := c) (by rw [hp.ctx, hctx]) _ _ _) (by simp only [hp.sched, hsch]) rfl 1) .none
  | step n c hr hc e => exact inv_answer (inv_synchronise h hr hc _) .none
  | excq => exact inv_answer h _
  | cstep n e => exact inv_answer (inv_advanceM h _) .none

theorem inv_exec {i : Instr} {s t : State} (h : s.Inv) (he : exec i s = .next t) : t.Inv := by
  rcases exec_next he with hc | ⟨-, rfl⟩
  · exact inv_completes h hc
  · exact inv_answer h .waits
end Sys2Proof.Machine
end

