-- ==== Sys2Proof/Laws/Local.lean ====
section
/-!
SUPPORT. What an access of context C depends on: the FIFO, storage, the bus's history, EVQ_DEPTH and what the bus is, and no
other part of the state (R130, R165).
-/

namespace Sys2Proof.Machine

/-- Two states that an access cannot tell apart. -/
structure SameBus (s s' : State) : Prop where
  depth : s'.cfg.evqDepth = s.cfg.evqDepth
  devices : s'.cfg.devices = s.cfg.devices
  wholeCells : s'.cfg.wholeCells = s.cfg.wholeCells
  evq : s'.evq = s.evq
  mem : s'.mem = s.mem
  trace : s'.trace = s.trace

theorem isDevice_congr {c c' : Config} (h : c'.devices = c.devices) (a : Addr) : isDevice c' a = isDevice c a := by
  simp only [isDevice, h]

theorem storageAfter_congr {c c' : Config} (h : c'.devices = c.devices) (m : Memory) (t : BusTxn) :
    storageAfter c' m t = storageAfter c m t := by
  simp only [storageAfter, isDevice_congr h]

theorem storeAll_congr {c c' : Config} (h : c'.devices = c.devices) (m : Memory) (ws : List Posted) :
    storeAll c' m ws = storeAll c m ws := by
  induction ws generalizing m with
  | nil => rfl
  | cons w ws ih => rw [storeAll_cons, storeAll_cons, storageAfter_congr h, ih]

theorem SameBus.drainAll {s s' : State} (h : SameBus s s') : SameBus (drainAll s) (drainAll s') := by
  rw [drainAll_eq, drainAll_eq]
  exact ⟨h.depth, h.devices, h.wholeCells, rfl, by simp only [h.mem, h.evq, storeAll_congr h.devices], by simp only [h.trace, h.evq]⟩

theorem SameBus.drainOne {s s' : State} (h : SameBus s s') : SameBus (drainOne s) (drainOne s') := by
  cases hq : s.evq with
  | nil => rw [drainOne_nil hq, drainOne_nil (h.evq.trans hq)]; exact h
  | cons w ws =>
    rw [drainOne_cons hq, drainOne_cons (h.evq.trans hq)]
    exact ⟨h.depth, h.devices, h.wholeCells, rfl, by simp only [h.mem, storageAfter_congr h.devices], by simp only [h.trace]⟩

theorem SameBus.issueRead {s s' : State} (h : SameBus s s') (u l : Bool) (a : Addr) :
    SameBus (issueRead u l a s).1 (issueRead u l a s').1 ∧ (issueRead u l a s').2 = (issueRead u l a s).2 := by
  have d := h.drainAll
  refine ⟨⟨d.depth, d.devices, d.wholeCells, d.evq, d.mem, ?_⟩, ?_⟩
  · simp only [Machine.issueRead, busRead, d.trace]
  · simp only [Machine.issueRead, busRead, busAnswer, isDevice_congr d.devices, d.wholeCells, d.trace, d.mem]

theorem SameBus.issueWrite {s s' : State} (h : SameBus s s') (w : Posted) :
    SameBus (issueWrite w s) (issueWrite w s') := by
  have d := h.drainOne
  unfold Machine.issueWrite
  rw [h.depth, h.evq]
  split_ifs
  · exact ⟨h.depth, h.devices, h.wholeCells, h.evq, by simp only [performPosted, busWrite, h.mem, storageAfter_congr h.devices],
      by simp only [performPosted, busWrite, h.trace]⟩
  · exact ⟨d.depth, d.devices, d.wholeCells, by simp only [d.evq], d.mem, d.trace⟩
  · exact ⟨h.depth, h.devices, h.wholeCells, by simp only [h.evq], h.mem, h.trace⟩

theorem SameBus.memRead {s s' : State} (h : SameBus s s') (w : Width) (a : Addr) :
    SameBus (memRead w a s).1 (memRead w a s').1 ∧ (memRead w a s').2 = (memRead w a s).2 := by
  cases w with
  | byte =>
    have d := h.issueRead (upperSelect a) (lowerSelect a) (cellAddr a)
    exact ⟨d.1, congrArg (selectLane a) d.2⟩
  | word => exact h.issueRead true true (cellAddr a)
  | long =>
    have d := h.issueRead true true (groupAddr a)
    have e := d.1.issueRead true true (groupAddr2 a)
    exact ⟨e.1, congrArg₂ joinWords d.2 e.2⟩

theorem SameBus.memWrite {s s' : State} (h : SameBus s s') (w : Width) (a : Addr) (v : Long) :
    SameBus (memWrite w a v s) (memWrite w a v s') := by
  cases w with
  | byte => exact h.issueWrite _
  | word => exact h.issueWrite _
  | long => exact (h.issueWrite _).issueWrite _

/-- A whole instruction depends on nothing else either (R165). -/
theorem SameBus.runProg {s s' : State} (h : SameBus s s') (p : Prog) :
    SameBus (runProg p s).1 (runProg p s').1 ∧ (runProg p s').2 = (runProg p s).2 := by
  induction p generalizing s s' with
  | done pc sp regs => exact ⟨h, rfl⟩
  | read w a k ih =>
    have d := h.memRead w a
    rw [Machine.runProg, Machine.runProg, d.2]
    exact ih _ d.1
  | write w a v k ih => exact ih (h.memWrite w a v)
  | excq k ih => exact ih _ h

end Sys2Proof.Machine
end

