-- ==== Sys2Proof/Laws/Moves.lean ====
section
/-!
SUPPORT. What any step and any run does to the bus and the posted-event FIFO: `Moves` composes, so that it is shown once for each
shared operation. The order of issue and the replay of memory follow from it.
-/

namespace Sys2Proof.Machine

/-- What a step does to the bus and the FIFO, whatever else it does: some transactions are performed, some writes are issued. -/
structure Moves (s t : State) : Prop where
  cfg : t.cfg = s.cfg
  fits : s.evq.length ≤ s.cfg.evqDepth → t.evq.length ≤ s.cfg.evqDepth
  events : s.evq.length ≤ s.cfg.evqDepth → ∃ es new, t.trace = s.trace ++ es ∧ t.mem = storeEvents s.cfg s.mem es ∧
    writesOfC es ++ t.evq.map postedTxn = s.evq.map postedTxn ++ new

theorem Moves.refl (s : State) : Moves s s := ⟨rfl, id, fun _ => ⟨[], [], by simp, rfl, by simp [writesOfC]⟩⟩

theorem Moves.trans {s t u : State} (h1 : Moves s t) (h2 : Moves t u) : Moves s u where
  cfg := h2.cfg.trans h1.cfg
  fits := fun h => by have := h2.fits (by rw [h1.cfg]; exact h1.fits h); rwa [h1.cfg] at this
  events := fun h => by
    obtain ⟨es, n1, ht, hm, hw⟩ := h1.events h
    obtain ⟨fs, n2, ht', hm', hw'⟩ := h2.events (by rw [h1.cfg]; exact h1.fits h)
    exact ⟨es ++ fs, n1 ++ n2, by rw [ht', ht, List.append_assoc], by rw [hm', hm, h1.cfg, storeEvents_append],
      by rw [writesOfC_append, List.append_assoc, hw', ← List.append_assoc, hw, List.append_assoc]⟩

theorem Progress.moves {s t : State} {new : List Posted} (h : Progress s t new) : Moves s t :=
  ⟨h.cfg, h.fits, fun _ => by
    obtain ⟨es, a, b, c, -⟩ := h.events
    exact ⟨es, new.map postedTxn, a, b, by rw [c, List.map_append]⟩⟩

/-- States that agree on the parameters, the FIFO, storage and the bus's history. -/
theorem Moves.same {s t : State} (h1 : t.cfg = s.cfg) (h2 : t.evq = s.evq) (h3 : t.mem = s.mem)
    (h4 : t.trace = s.trace) : Moves s t :=
  ⟨h1, by rw [h2]; exact id, fun _ => ⟨[], [], by rw [h4]; simp, h3, by rw [h2]; simp [writesOfC]⟩⟩

theorem moves_synchronise {s : State} {c : Ctx} (h : s.ctx = some c) (n : Nat) : Moves s (synchronise n s) :=
  (progress_drainAll s).moves.trans (by rw [synchronise_eq h, drainAll_eq]; exact Moves.same rfl rfl rfl rfl)

theorem moves_completes {i : Instr} {s t : State} (hc : Completes s i t) (hf : s.evq.length ≤ s.cfg.evqDepth) : Moves s t := by
  have ans : ∀ {u : State} {r}, Moves s u → Moves s (u.answer r) := fun h => h.trans (Moves.same rfl rfl rfl rfl)
  cases hc with
  | rdb a e => exact ans (progress_readByte a s).moves
  | rdw a e => exact ans (progress_readWord a s).moves
  | rdl a e => exact ans (progress_readLong a s).moves
  | wrb a v e => exact ans (progress_writeByte a v hf).moves
  | wrw a v e => exact ans (progress_writeWord a v hf).moves
  | wrl a v e => exact ans (progress_writeLong a v hf).moves
  | load src hb => exact Moves.same rfl rfl rfl rfl
  | unloadRunning hr => exact (progress_drainAll s).moves.trans (Moves.same rfl rfl rfl rfl)
  | unloadIdle hr => exact (progress_drainAll s).moves.trans (Moves.same rfl rfl rfl rfl)
  | power r cells pc sp hb hv => exact (progress_drainAll s).moves.trans (Moves.same rfl rfl rfl rfl)
  | tick c hr hc e =>
    have h1 : Moves s (notifyHook c s) := by rw [notifyHook_eq]; exact Moves.same rfl rfl rfl rfl
    obtain ⟨new, hp, -⟩ := progress_runProg (Config.execUnit c.pc c.sp c.regs) (s := notifyHook c s)
      (by rw [notifyHook_eq]; exact hf)
    refine ans ((h1.trans hp.moves).trans (Moves.trans ?_ (moves_synchronise rfl 1)))
    exact Moves.same rfl rfl rfl rfl
  | step n c hr hc e => exact ans (moves_synchronise hc _)
  | excq => exact ans (Moves.refl s)
  | cstep n e => exact ans (by rw [advanceM_eq]; exact Moves.same rfl rfl rfl rfl)

theorem moves_exec {i : Instr} {s t : State} (he : exec i s = .next t) (hf : s.evq.length ≤ s.cfg.evqDepth) : Moves s t := by
  rcases exec_next he with hc | ⟨-, rfl⟩
  · exact moves_completes hc hf
  · exact Moves.same rfl rfl rfl rfl

theorem moves_step {s t : State} (h : step s = .next t) (hf : s.evq.length ≤ s.cfg.evqDepth) : Moves s t := by
  cases step_next h with
  | noTurn _ => exact Moves.refl s
  | drain later _ => exact Moves.trans (t := { s with turns := later }) (Moves.same rfl rfl rfl rfl) (progress_drainOne _).moves
  | command a later c rest i u _ _ _ hu =>
    have h0 : Moves s { s with turns := later } := Moves.same rfl rfl rfl rfl
    have := h0.trans (moves_exec hu hf)
    split_ifs
    · exact this
    · exact this.trans (Moves.same rfl rfl rfl rfl)
  | companionWrite => exact ⟨rfl, id, fun _ => ⟨[_], [], rfl, rfl, by simp⟩⟩
  | companionRead => exact ⟨rfl, id, fun _ => ⟨[_], [], rfl, rfl, by simp⟩⟩
  | _ => exact Moves.same rfl rfl rfl rfl

theorem moves_runs {k : Nat} {s t : State} (h : Runs k s t) (hf : s.evq.length ≤ s.cfg.evqDepth) : Moves s t := by
  induction h with
  | refl => exact Moves.refl _
  | next first rest ih =>
    have h1 := moves_step first hf
    exact h1.trans (ih (by rw [h1.cfg]; exact h1.fits hf))

end Sys2Proof.Machine
end

