-- ==== Sys2Proof/Laws/PerInstr.lean ====
section
/-!
SUPPORT. Statements about every instruction as syntax, one lemma for each constructor. `Fields`: the canonical word of an
instruction carries its code, its address and its data where R101 places them, and no bit that R103 says is ignored.
-/

namespace Sys2Proof.Laws.Fields

/-- The three fields of an instruction's canonical word, the bits of `d` it leaves 0, and its side-band. -/
def Statement (i : Instr) : Prop :=
  opField (encode i).word = i.op.code ∧ aField (encode i).word = i.aOperand ∧ dField (encode i).word = i.dOperand ∧
    i.dOperand &&& ~~~i.op.usedDataBits = 0 ∧ (i.op.usesAddress = false → i.aOperand = 0) ∧ (encode i).src = i.sideBand

/-- The fields of the packed word are read back from it; what is left to show is which bits of `d` are 0. -/
theorem of_unused {i : Instr} (hd : i.dOperand &&& ~~~i.op.usedDataBits = 0)
    (ha : i.op.usesAddress = false → i.aOperand = 0) : Statement i := by
  have hw : (encode i).word = numberedWord i.op.code.toNat i.aOperand i.dOperand := packCmd_numbered _ _ _
  have hlt : i.op.code.toNat < 16 := i.op.code.isLt
  refine ⟨?_, ?_, ?_, hd, ha, rfl⟩
  · rw [hw, opField_numbered hlt, BitVec.ofNat_toNat, BitVec.setWidth_eq]
  · rw [hw, aField_numbered hlt]
  · rw [hw, dField_numbered hlt]

theorem rdb (a : Addr) : Statement (.rdb a) := of_unused (by simp [Instr.dOperand]) nofun
theorem rdw (a : Addr) : Statement (.rdw a) := of_unused (by simp [Instr.dOperand]) nofun
theorem rdl (a : Addr) : Statement (.rdl a) := of_unused (by simp [Instr.dOperand]) nofun

/-- A byte fills no bit above bit 7. -/
theorem wrb (a : Addr) (v : Byte) : Statement (.wrb a v) := by
  refine of_unused ?_ nofun
  ext k hk
  simp only [Instr.dOperand, Instr.op, Op.usedDataBits, BitVec.getElem_and, BitVec.getElem_setWidth, BitVec.getElem_not]
  by_cases h : k < 8
  · interval_cases k <;> simp
  · simp [BitVec.getLsbD_of_ge v k (by omega)]

/-- A word fills no bit above bit 15. -/
theorem wrw (a : Addr) (v : Word) : Statement (.wrw a v) := by
  refine of_unused ?_ nofun
  ext k hk
  simp only [Instr.dOperand, Instr.op, Op.usedDataBits, BitVec.getElem_and, BitVec.getElem_setWidth, BitVec.getElem_not]
  by_cases h : k < 16
  · interval_cases k <;> simp
  · simp [BitVec.getLsbD_of_ge v k (by omega)]

theorem wrl (a : Addr) (v : Long) : Statement (.wrl a v) :=
  of_unused (by simp [Instr.dOperand, Instr.op, Op.usedDataBits]) nofun
theorem load (src : Option (List Byte)) : Statement (.load src) := of_unused (by simp [Instr.dOperand]) fun _ => rfl
theorem unload : Statement .unload := of_unused rfl fun _ => rfl
theorem power (r : Bool) : Statement (.power r) := of_unused (by cases r <;> rfl) fun _ => rfl
theorem tick : Statement .tick := of_unused rfl fun _ => rfl
theorem step (n : Long) : Statement (.step n) :=
  of_unused (by simp [Instr.dOperand, Instr.op, Op.usedDataBits]) fun _ => rfl
theorem excq : Statement .excq := of_unused rfl fun _ => rfl
theorem cstep (n : Long) : Statement (.cstep n) :=
  of_unused (by simp [Instr.dOperand, Instr.op, Op.usedDataBits]) fun _ => rfl

end Sys2Proof.Laws.Fields
end

