-- ==== Sys2Proof/Tests/Slice0.lean ====
section
/-!
SUPPORT. Tests of the model against the spec's own vectors (95_test_vectors.md, named by their ids), written-out words of every
operation, ill-formed terms that the checks refuse, and, for each statement with hypotheses, a state and operands that meet them.
-/

namespace Sys2Proof.Tests

open Sys2Proof Sys2Proof.Machine

/-! ## Small states -/

/-- Section 4.1's parameters: F_C = 3, F_M = 2, so P_C = 2 and P_M = 3; QUOTA by default 2; EVQ_DEPTH = 0; four boot cells. -/
def cfg41 : Config := ⟨3, 2, none, 0, 0, 4, .anyEnabled, [], [], true⟩

/-- The same with SCHED_POLICY = coroutine and FIRST_ACTIVE = C (section 4.4). -/
def cfgCoroutine : Config := { cfg41 with policy := .coroutine .c }

/-- The same with a FIFO of two entries (section 6). -/
def cfgPosted : Config := { cfg41 with evqDepth := 2 }

/-- The same with clock views over channels of one event (R219). -/
def cfgViews : Config := { cfg41 with syncDepth := 1 }

/-- The same with a device window over the cells 0x2000 and 0x2002. -/
def cfgDevice : Config := { cfg41 with devices := [⟨0x2000, 4⟩] }

/-- Right after hardware reset. -/
def idle : State := State.resetWith cfg41

/-- Running, with these clocks and these parameters. -/
def running (cfg : Config) (cycC cycM : Nat) : State :=
  { State.resetWith cfg with
    boot := some [0x0600#16, 0x0140#16, 0x0603#16, 0xF000#16]
    sched := .running
    ctx := some ⟨0x06000140#32, 0x0603F000#32, [], cycC⟩
    cycM := cycM
    dbgNode := true }

/-- Storage from addresses and bytes. -/
def bytes (l : List (Nat × Nat)) : Memory := l.map fun p => (p.1, BitVec.ofNat 8 p.2)

/-- The start of sections 2 and 3. -/
def busram : State :=
  { idle with
    mem := bytes [(0x1000, 0x12), (0x1001, 0x34), (0x1002, 0x56), (0x1003, 0x78), (0xFFFFFFFC, 0xA1), (0xFFFFFFFD, 0xB2),
      (0xFFFFFFFE, 0xC3), (0xFFFFFFFF, 0xD4)] }

/-- The start of section 6. -/
def posted : State :=
  { State.resetWith cfgPosted with
    mem := bytes [(0x4000, 0x11), (0x4001, 0x11), (0x4002, 0x22), (0x4003, 0x22), (0x4004, 0x33), (0x4005, 0x33)] }

/-- Section 6 before Q8: a full FIFO. -/
def postedFull : State :=
  { posted with evq := [⟨true, true, 0x4002#32, 0xBBBB#16⟩, ⟨true, true, 0x4004#32, 0xCCCC#16⟩] }

/-- A bus whose plain storage answers a free value on a lane that a read does not select (R64). -/
def cfgHalfCells : Config := { cfg41 with wholeCells := false }

/-- A running block of the clock views, C's side not yet told that the companion has advanced once. -/
def viewsBehind : State := { running cfgViews 0 1 with toC := ⟨0, [3]⟩ }

/-- The same with M's side not yet told that the coprocessor has advanced once. -/
def viewsBehindM : State := { running cfgViews 1 0 with toM := ⟨0, [2]⟩ }

/-- The next state, looked at through a function. -/
def look {α : Type} (f : State → α) (o : Host.Outcome State Fault Refusal) : Option α :=
  match o with
  | .next t => some (f t)
  | .fault _ => none
  | .refused _ => none

/-- Why an outcome is a refusal. -/
def refusal (o : Host.Outcome State Fault Refusal) : Option Refusal :=
  match o with
  | .refused r => some r
  | _ => none

/-- The transactions on the bus, packed as in R108. -/
def packed (s : State) : List TxnWord := s.trace.map fun e => e.txn.pack

/-- The next turn is this agent's and it has asked for this. -/
def asks (a : Agent) (x : Input) (s : State) : State := { s with turns := [.agent a], inputs := [x] }

/-! ## Ill-formed terms are refused -/

theorem test_wf_config_zero_frequency : Config.wf { cfg41 with freqC := 0 } = false := by decide
theorem test_wf_config_zero_companion_frequency : Config.wf { cfg41 with freqM := 0 } = false := by decide
theorem test_wf_config_three_boot_cells : Config.wf { cfg41 with bootCells := 3 } = false := by decide
theorem test_wf_config : Config.wf cfg41 = true := by decide
theorem test_wf_txn_odd_address : BusTxn.wf ⟨true, true, true, 0x1001#32, 0#16⟩ = false := by decide
theorem test_wf_txn_read_with_data : BusTxn.wf ⟨false, true, true, 0x1000#32, 1#16⟩ = false := by decide
theorem test_wf_txn : BusTxn.wf ⟨true, true, true, 0x1000#32, 1#16⟩ = true := by decide
theorem test_lanes_none_selected : BusTxn.lanesSelected ⟨true, false, false, 0x1000#32, 0#16⟩ = false := by decide
theorem test_wf_posted_no_lane : Posted.wf ⟨false, false, 0x1000#32, 0#16⟩ = false := by decide
theorem test_wf_posted_odd_address : Posted.wf ⟨true, true, 0x1001#32, 0#16⟩ = false := by decide
theorem test_canonical_ignored_bit_set : Cmd.canonical ⟨0x000001000FFFFFFFF#68, none⟩ = false := by decide
theorem test_canonical_side_band_beside_tick : Cmd.canonical ⟨0xB0000000000000000#68, some []⟩ = false := by decide
theorem test_canonical_reserved_code : Cmd.canonical ⟨0x30000000000000000#68, none⟩ = false := by decide
theorem test_canonical : Cmd.canonical ⟨0x400001001000000CD#68, none⟩ = true := by decide

/-- Storage out of order, with a listed 0, or outside the 2^32 bytes is not canonical. -/
theorem test_memory_not_canonical :
    Memory.wf (bytes [(2, 1), (1, 1)]) = false ∧ Memory.wf (bytes [(1, 0)]) = false ∧
      Memory.wf (bytes [(2 ^ 32, 1)]) = false := by decide

/-! ## Words written out from R101, R102 and R103 decode to what they stand for -/

theorem test_decode_rdb : decodeTableWord 72 0x00000100100000000 = some (.rdb 0x00001001#32) := by decide
theorem test_decode_rdb_ignored_bits : decodeTableWord 72 0x000001000FFFFFFFF = some (.rdb 0x00001000#32) := by decide
theorem test_decode_rdw : decodeTableWord 72 0x10000100300000000 = some (.rdw 0x00001003#32) := by decide
theorem test_decode_rdl : decodeTableWord 72 0x20000100200000000 = some (.rdl 0x00001002#32) := by decide
theorem test_decode_wrb : decodeTableWord 72 0x400001002000001EF = some (.wrb 0x00001002#32 0xEF#8) := by decide
theorem test_decode_wrw : decodeTableWord 72 0x5000010030001CAFE = some (.wrw 0x00001003#32 0xCAFE#16) := by decide
theorem test_decode_wrl : decodeTableWord 72 0x60000100301234567 = some (.wrl 0x00001003#32 0x01234567#32) := by decide
theorem test_decode_load : decodeTableWord 72 0x80000000000000000 = some (.load none) := by decide
theorem test_decode_load_side_band :
    (decode ⟨0x80000000000000000#68, some [0xAA#8]⟩).toOption = some (.load (some [0xAA#8])) := by decide
theorem test_decode_unload : decodeTableWord 72 0x90000000000000000 = some .unload := by decide
theorem test_decode_power_1 : decodeTableWord 72 0xA0000000000000001 = some (.power true) := by decide
theorem test_decode_power_0 : decodeTableWord 72 0xA0000000000000000 = some (.power false) := by decide
theorem test_decode_tick : decodeTableWord 72 0xB0000000000000000 = some .tick := by decide
theorem test_decode_step : decodeTableWord 72 0xC0000000000000005 = some (.step 5#32) := by decide
theorem test_decode_excq : decodeTableWord 72 0xD0000000000000000 = some .excq := by decide
theorem test_decode_cstep : decodeTableWord 72 0xE0000000000000003 = some (.cstep 3#32) := by decide
theorem test_decode_reserved :
    decodeTableWord 72 0x30000000000000000 = none ∧ decodeTableWord 72 0x70000100000000000 = none ∧
      decodeTableWord 72 0xF0000000000000000 = none := by decide

/-- R111, as programs 1 and 2 of section 7 write it. -/
theorem test_text :
    (Instr.wrb 0x00FF0002#32 0x5E#8).text = "WRB 0x00FF0002, 0x5E" ∧
      (Instr.load (some [0x06#8, 0xF0#8])).text = "LOAD [06 F0]" ∧
      responseText (.rdl 0x00FF0003#32) (.long 0xA1B25ED4#32) = "RDL 0x00FF0003 -> 0xA1B25ED4" := by decide

/-! ## The adapter (sections 2, 3 and 6) -/

/-- RV13. -/
theorem test_rdb_top_byte : look (fun t => (t.rsp, packed t)) (exec (.rdb 0xFFFFFFFF#32) busram)
    = some (.byte 0xD4#8, [0x1FFFFFFFE0000#51]) := by decide

/-- Q11, from the FIFO of Q8: a read performs everything first. -/
theorem test_rdb_drains_first :
    look (fun t => (t.rsp, packed t, t.evq))
      (exec (.rdb 0x4005#32)
        { posted with evq := [⟨true, true, 0x4004#32, 0xCCCC#16⟩, ⟨false, true, 0x4000#32, 0xDDDD#16⟩] })
    = some (.byte 0xCC#8, [0x700004004CCCC#51, 0x500004000DDDD#51, 0x1000040040000#51], []) := by decide

/-- RV8: the low bit of a word address is dropped and the word is not rotated. -/
theorem test_rdw_odd : look (fun t => (t.rsp, packed t)) (exec (.rdw 0x1003#32) busram)
    = some (.word 0x5678#16, [0x3000010020000#51]) := by decide

/-- RV15. -/
theorem test_rdw_top : look (fun t => (t.rsp, packed t)) (exec (.rdw 0xFFFFFFFF#32) busram)
    = some (.word 0xC3D4#16, [0x3FFFFFFFE0000#51]) := by decide

/-- RV12. -/
theorem test_rdl_unaligned : look (fun t => (t.rsp, packed t)) (exec (.rdl 0x1003#32) busram)
    = some (.long 0x12345678#32, [0x3000010000000#51, 0x3000010020000#51]) := by decide

/-- RV16: the second address of a long access never wraps. -/
theorem test_rdl_top : look (fun t => (t.rsp, packed t)) (exec (.rdl 0xFFFFFFFF#32) busram)
    = some (.long 0xA1B2C3D4#32, [0x3FFFFFFFC0000#51, 0x3FFFFFFFE0000#51]) := by decide

/-- W1: the other byte of the cell survives. -/
theorem test_wrb_upper_lane : look (fun t => (t.mem.cell 0x1000#32, t.mem.cell 0x1002#32, packed t))
    (exec (.wrb 0x1000#32 0xAB#8) busram) = some (0xAB34#16, 0x5678#16, [0x600001000ABAB#51]) := by decide

/-- Q8: with a full FIFO the oldest entry is performed to make room, and the write is posted. -/
theorem test_wrb_full_fifo : look (fun t => (packed t, t.evq)) (exec (.wrb 0x4001#32 0xDD#8) postedFull)
    = some ([0x700004002BBBB#51], [⟨true, true, 0x4004#32, 0xCCCC#16⟩, ⟨false, true, 0x4000#32, 0xDDDD#16⟩]) := by decide

/-- W5: a word write at an odd address goes to the cell below. -/
theorem test_wrw_odd : look (fun t => (t.mem.cell 0x1000#32, t.mem.cell 0x1002#32, packed t))
    (exec (.wrw 0x1003#32 0xCAFE#16) busram) = some (0x1234#16, 0xCAFE#16, [0x700001002CAFE#51]) := by decide

/-- W9: the high word at the lower address, first. -/
theorem test_wrl_top : look (fun t => (t.mem.cell 0xFFFFFFFC#32, t.mem.cell 0xFFFFFFFE#32, packed t))
    (exec (.wrl 0xFFFFFFFD#32 0x0BADF00D#32) busram)
    = some (0x0BAD#16, 0xF00D#16, [0x7FFFFFFFC0BAD#51, 0x7FFFFFFFEF00D#51]) := by decide

/-- Q1: both halves are posted and neither is performed. -/
theorem test_wrl_posted : look (fun t => (t.mem.cell 0x4000#32, packed t, t.evq))
    (exec (.wrl 0x4000#32 0xAAAABBBB#32) posted)
    = some (0x1111#16, [], [⟨true, true, 0x4000#32, 0xAAAA#16⟩, ⟨true, true, 0x4002#32, 0xBBBB#16⟩]) := by decide

/-- Q9: the companion's own read goes past the FIFO. -/
theorem test_companion_read :
    look (fun t => (t.rsp, packed t, t.evq.length))
      (step (asks .m (.companionBus ⟨false, true, true, 0x4002#32, 0#16⟩) postedFull))
    = some (.companion 0x2222#16, [0x3000040020000#51], 2) := by decide

/-- Q4: DRAIN performs the oldest posted write. -/
theorem test_drain :
    look (fun t => (packed t, t.evq, t.mem.cell 0x4000#32))
      (step { posted with
        turns := [.drain]
        evq := [⟨true, true, 0x4000#32, 0xAAAA#16⟩, ⟨true, true, 0x4002#32, 0xBBBB#16⟩] })
    = some ([0x700004000AAAA#51], [⟨true, true, 0x4002#32, 0xBBBB#16⟩], 0xAAAA#16) := by decide

/-- Section 3: the reserved codes are refused by the step. -/
theorem test_step_reserved :
    refusal (step (asks .c (.command ⟨0x70000100000000000#68, none⟩) busram)) = some (.reservedOpcode 0x7#4) := by decide

/-! ## The scheduler (section 4 and program 1) -/

/-- Program 1, line 5, with its instruction given: a long is pushed and the clock advances by one cycle. -/
theorem test_tick_push :
    (fun t => (t.ctx, packed t, blockedC t))
      (tickWith (.write .long 0x0603EFFC#32 0x11223344#32 (.done 0x06000142#32 0x0603EFFC#32 [0]))
        ⟨0x06000140#32, 0x0603F000#32, [0], 0⟩ (running cfg41 0 0))
    = (some ⟨0x06000142#32, 0x0603EFFC#32, [0], 1⟩, [0x70603EFFC1122#51, 0x70603EFFE3344#51], false) := by decide

/-- T3: TICK while C is blocked is not enabled. -/
theorem test_tick_blocked : look (fun t => (t.rsp, t.ctx)) (exec .tick (running cfg41 2 0))
    = some (.waits, (running cfg41 2 0).ctx) := by decide

/-- T12: STEP 5 from T11 leaves C blocked. -/
theorem test_step_5 : look (fun t => (t.ctx.map Ctx.cycC, t.cycM, timeC t, timeM t, blockedC t, blockedM t))
    (exec (.step 5#32) (running cfg41 5 3)) = some (some 10, 3, 20, 9, true, false) := by decide

/-- L10. -/
theorem test_step_not_running : refusal (exec (.step 1#32) idle) = some .stepNotRunning := by decide

/-- L19. -/
theorem test_excq : look State.rsp (exec .excq (running cfg41 2 0)) = some (.bit false) := by decide

/-- T7: CSTEP 1 leaves the companion blocked. -/
theorem test_cstep_blocks : look (fun t => (t.cycM, timeM t, blockedC t, blockedM t)) (exec (.cstep 1#32) (running cfg41 3 2))
    = some (3, 9, false, true) := by decide

/-- K7: under the coroutine policy that CSTEP hands over to C. -/
theorem test_cstep_hands_over :
    look (fun t => (t.cycM, t.active)) (exec (.cstep 1#32) { running cfgCoroutine 2 2 with active := some .m })
    = some (3, some .c) := by decide

/-- R167 and D31, R130 and D32: outside Running the context that is not active may step too. -/
theorem test_coroutine_unstarted :
    look State.rsp (step (asks .m (.companionBus ⟨false, true, true, 0x1000#32, 0#16⟩) (State.resetWith cfgCoroutine)))
        = some (.companion 0#16) ∧
      enabledM (State.resetWith cfgCoroutine) = true ∧
      enabledC { State.resetWith cfgCoroutine with active := some .m } = true ∧
      enabledM (running cfgCoroutine 0 0) = false := by decide

/-- R219: an advance event is sent to C's side, and C's view is raised only by its delivery. -/
theorem test_clock_views :
    look (fun t => t.toC) (exec (.cstep 1#32) (running cfgViews 0 0)) = some ⟨0, [3]⟩ ∧
      look (fun t => t.toC) (step { viewsBehind with turns := [.deliverToC] }) = some ⟨3, []⟩ := by decide

/-! ## The lifecycle (section 5) -/

/-- L6: a stream of odd length. -/
theorem test_load_odd_stream : look (fun t => (t.boot, t.sched, t.dbgNode)) (exec (.load (some [0xAA#8, 0xBB#8, 0xCC#8])) idle)
    = some (some [0xAABB#16, 0xCC00#16, 0#16, 0#16], .unstarted, true) := by decide

/-- L12. -/
theorem test_load_twice : refusal (exec (.load none) (running cfg41 0 0)) = some .loadWhileLoaded := by decide

/-- L13. -/
theorem test_unload_running :
    look (fun t => (t.boot, t.sched, t.ctx, t.hookAttached, t.dbgNode, blockedC t))
      (exec .unload { running cfg41 2 0 with hookAttached := true })
    = some (none, .halted, none, false, false, false) := by decide

/-- L11. -/
theorem test_unload_after_reset : look (fun t => decide (t = idle)) (exec .unload idle) = some true := by decide

/-- L2 and L18: POWER seeds PC and SP from the boot vector and zeroes the clocks, even while C is blocked. -/
theorem test_power_while_blocked :
    look (fun t => (t.ctx, t.cycM, blockedC t)) (exec (.power true) { running cfg41 2 0 with ctx := some ⟨1#32, 2#32, [], 2⟩ })
    = some (some ⟨0x06000140#32, 0x0603F000#32, [], 0⟩, 0, false) := by decide

/-- L9. -/
theorem test_power_unloaded : refusal (exec (.power true) idle) = some .powerWhileUnloaded := by decide

/-! ## States that meet the hypotheses of the statements -/

/-- A link that carries nothing while the sender's time is read exactly. -/
theorem quietLink (now : Nat) : SyncLink.Ok 0 now ⟨0, []⟩ :=
  ⟨by simp, by simp, by simp, fun h => absurd rfl h⟩

theorem idle_inv : idle.Inv where
  parameters := by decide
  memory := by decide
  context := by decide
  runningLoaded := by decide
  haltedUnloaded := by decide
  bootLength := nofun
  debugNode := by decide
  fifoFits := by decide
  fifoEntries := nofun
  waitingDrained := by decide
  activeExists := by decide
  activeNotBlocked := by decide
  viewOfCompanion := quietLink _
  viewOfCoprocessor := fun _ => quietLink _
  transactions := nofun
  lanes := nofun

/-- The invariant holds in a Running state without posted writes, under the default policy and exact views. -/
theorem running_inv (cycC cycM : Nat) : (running cfg41 cycC cycM).Inv where
  parameters := test_wf_config
  memory := rfl
  context := rfl
  runningLoaded := fun _ => rfl
  haltedUnloaded := nofun
  bootLength := fun _ h => Option.some.inj h ▸ rfl
  debugNode := rfl
  fifoFits := Nat.le_refl 0
  fifoEntries := nofun
  waitingDrained := fun _ => rfl
  activeExists := rfl
  activeNotBlocked := ⟨nofun, nofun⟩
  viewOfCompanion := quietLink _
  viewOfCoprocessor := fun _ => quietLink _
  transactions := nofun
  lanes := nofun

/-- The invariant holds with an advance event on its way. -/
theorem viewsBehind_inv : viewsBehind.Inv where
  parameters := by decide
  memory := rfl
  context := rfl
  runningLoaded := fun _ => rfl
  haltedUnloaded := nofun
  bootLength := fun _ h => Option.some.inj h ▸ rfl
  debugNode := rfl
  fifoFits := Nat.le_refl 0
  fifoEntries := nofun
  waitingDrained := fun _ => rfl
  activeExists := rfl
  activeNotBlocked := ⟨nofun, nofun⟩
  viewOfCompanion := ⟨by decide, by decide, by decide, fun _ => by decide⟩
  viewOfCoprocessor := fun _ => ⟨by decide, by decide, by decide, fun _ => by decide⟩
  transactions := nofun
  lanes := nofun

/-- The same on M's side. -/
theorem viewsBehindM_inv : viewsBehindM.Inv where
  parameters := by decide
  memory := rfl
  context := rfl
  runningLoaded := fun _ => rfl
  haltedUnloaded := nofun
  bootLength := fun _ h => Option.some.inj h ▸ rfl
  debugNode := rfl
  fifoFits := Nat.le_refl 0
  fifoEntries := nofun
  waitingDrained := fun _ => rfl
  activeExists := rfl
  activeNotBlocked := ⟨nofun, nofun⟩
  viewOfCompanion := ⟨by decide, by decide, by decide, fun _ => by decide⟩
  viewOfCoprocessor := fun _ => ⟨by decide, by decide, by decide, fun _ => by decide⟩
  transactions := nofun
  lanes := nofun

/-! ### Encoding and the step -/

theorem witness_encodeOfDecode : Cmd.canonical ⟨0x80000000000000000#68, some [0xAA#8]⟩ = true := by decide

theorem witness_reservedCodes :
    ((0x30000000000000000#68).toNat / 2 ^ 64 = 0x3 ∧ (0x7FFFFFFFFFFFFFFFF#68).toNat / 2 ^ 64 = 0x7 ∧
      (0xF0000000000000000#68).toNat / 2 ^ 64 = 0xF) ∧
    (¬ ((0xEFFFFFFFFFFFFFFFF#68).toNat / 2 ^ 64 = 0x3 ∨ (0xEFFFFFFFFFFFFFFFF#68).toNat / 2 ^ 64 = 0x7 ∨
      (0xEFFFFFFFFFFFFFFFF#68).toNat / 2 ^ 64 = 0xF)) ∧
    ∃ (s : State) (a : Agent) (later : List Turn) (rest : List Input), s.turns = .agent a :: later ∧
      takeFirst a s.inputs = some (.command ⟨0x30000000000000000#68, none⟩, rest) ∧ rest ≠ [] :=
  ⟨by decide, by decide,
    { idle with turns := [.agent .c], inputs := [.hook true, .command ⟨0x30000000000000000#68, none⟩] }, .c, [],
    [.hook true], rfl, rfl, by decide⟩

/-- A turn passes over another agent's input; and each row of the agent column, at its boundary codes. -/
theorem witness_agentsTake :
    takeFirst .c [.hook true, .command ⟨0xD0000000000000000#68, none⟩]
        = some (.command ⟨0xD0000000000000000#68, none⟩, [.hook true]) ∧
      Input.reachedBy .c (.command ⟨0x0FFFFFFFFFFFFFFFF#68, none⟩) = true ∧
      Input.reachedBy .c (.command ⟨0xD0000000000000000#68, none⟩) = true ∧
      Input.reachedBy .m (.command ⟨0xE0000000000000000#68, none⟩) = true ∧
      Input.reachedBy .host (.command ⟨0xA0000000000000000#68, none⟩) = true ∧
      Input.reachedBy .host (.command ⟨0xB0000000000000000#68, none⟩) = false ∧
      Input.reachedBy .m (.command ⟨0xF0000000000000000#68, none⟩) = true ∧
      Input.reachedBy .c (.companionBus ⟨true, true, true, 0#32, 0#16⟩) = false := by decide

theorem witness_transactionRecords :
    BusTxn.wf ⟨false, true, true, 0xFFFFFFFE#32, 0#16⟩ = true ∧ BusTxn.wf ⟨true, true, true, 0#32, 0xFFFF#16⟩ = true := by
  decide

/-- The three ways a turn's command can go: it has its step, it waits, it is refused. -/
theorem witness_stepRuns :
    (∃ (s : State) (a : Agent) (later : List Turn) (c : Cmd) (rest : List Input) (i : Instr) (t : State),
      s.turns = .agent a :: later ∧ takeFirst a s.inputs = some (.command c, rest) ∧
      decode c = .ok i ∧ exec i { s with turns := later } = .next t ∧ t.rsp ≠ .waits) ∧
    (∃ (s : State) (a : Agent) (later : List Turn) (c : Cmd) (rest : List Input) (i : Instr) (t : State),
      s.turns = .agent a :: later ∧ takeFirst a s.inputs = some (.command c, rest) ∧
      decode c = .ok i ∧ exec i { s with turns := later } = .next t ∧ t.rsp = .waits) ∧
    ∃ (s : State) (a : Agent) (later : List Turn) (c : Cmd) (rest : List Input) (i : Instr) (r : Refusal),
      s.turns = .agent a :: later ∧ takeFirst a s.inputs = some (.command c, rest) ∧
      decode c = .ok i ∧ exec i { s with turns := later } = .refused r :=
  ⟨⟨asks .c (.command ⟨0xD0000000000000000#68, none⟩) idle, .c, [], ⟨0xD0000000000000000#68, none⟩, [], .excq, _,
      rfl, rfl, rfl, rfl, by decide⟩,
    ⟨asks .c (.command ⟨0xB0000000000000000#68, none⟩) (running cfg41 2 0), .c, [], ⟨0xB0000000000000000#68, none⟩, [], .tick,
      _, rfl, rfl, rfl, rfl, by decide⟩,
    ⟨asks .host (.command ⟨0xA0000000000000001#68, none⟩) idle, .host, [], ⟨0xA0000000000000001#68, none⟩, [], .power true,
      .powerWhileUnloaded, rfl, rfl, rfl, rfl⟩⟩

/-! ### The adapter and the bus -/

/-- C may step: after reset, while Running, and with writes posted. It may not while blocked. -/
theorem witness_enabledC :
    enabledC busram = true ∧ enabledC (running cfg41 1 0) = true ∧ enabledC postedFull = true ∧
      enabledC (running cfg41 2 0) = false := by decide

/-- Both answers of a read occur: plain storage and a device window, at its first and its last cell. -/
theorem witness_readResults :
    enabledC (State.resetWith cfgDevice) = true ∧ isDevice cfgDevice 0x1FFE#32 = false ∧ isDevice cfgDevice 0x2000#32 = true ∧
      isDevice cfgDevice 0x2002#32 = true ∧ isDevice cfgDevice 0x2004#32 = false := by decide

theorem witness_accessesRoundTrip :
    idle.Inv ∧ enabledC idle = true ∧ isDevice idle.cfg (cellAddr 0xFFFFFFFF#32) = false ∧
      isDevice idle.cfg (groupAddr 0xFFFFFFFF#32) = false ∧ isDevice idle.cfg (groupAddr2 0xFFFFFFFF#32) = false :=
  ⟨idle_inv, by decide⟩

theorem witness_mixedWidthView :
    ∃ t, idle.Inv ∧ enabledC idle = true ∧ (0xFFFFFFFC#32).toNat % 4 = 0 ∧ isDevice idle.cfg 0xFFFFFFFC#32 = false ∧
      isDevice idle.cfg (0xFFFFFFFC#32 + 2#32) = false ∧ exec (.wrl 0xFFFFFFFC#32 0x01020304#32) idle = .next t :=
  ⟨_, idle_inv, by decide, by decide, by decide, by decide, rfl⟩

/-- A read that completes past posted writes which do not store to byte 0x4000, and one that waits. -/
theorem witness_readFrame :
    (∃ t, exec (.rdl 0x1000#32) postedFull = .next t ∧ t.rsp ≠ .waits ∧
      ∀ w ∈ postedFull.evq, storesByte (postedTxn w) 0x4000 = false) ∧
    (∃ t, exec (.rdb 0x1000#32) (running cfg41 2 0) = .next t ∧ t.rsp = .waits) ∧
    ∃ t, exec (.rdw 0x1000#32) idle = .next t :=
  ⟨⟨_, rfl, by decide, by decide⟩, ⟨_, rfl, by decide⟩, ⟨_, rfl⟩⟩

/-- A write into a full FIFO that performs one entry and leaves byte 0x4004 alone, one that waits, and the three forms. -/
theorem witness_writeFrame :
    (∃ t, postedFull.evq.length ≤ postedFull.cfg.evqDepth ∧ exec (.wrb 0x4001#32 0xDD#8) postedFull = .next t ∧
      t.rsp ≠ .waits ∧ (∀ w ∈ [Posted.mk true true 0x4002#32 0xBBBB#16], storesByte (postedTxn w) 0x4004 = false) ∧
      (postedFull.evq ++ [byteWrite 0x4001#32 0xDD#8]).take
        ((postedFull.evq ++ [byteWrite 0x4001#32 0xDD#8]).length - 2) = [⟨true, true, 0x4002#32, 0xBBBB#16⟩]) ∧
    (∃ t, exec (.wrw 0x4001#32 0xDD#16) (running cfg41 2 0) = .next t ∧ t.rsp = .waits) ∧
    ∃ t, exec (.wrl 0x4001#32 0xDD#32) idle = .next t ∧ t.rsp ≠ .waits :=
  ⟨⟨_, by decide, rfl, by decide, by decide, by decide⟩, ⟨_, rfl, by decide⟩, ⟨_, rfl, by decide⟩⟩

/-- Each case of a bus write: a selected upper byte, a selected lower byte, an unselected byte, a device. -/
theorem witness_busWrite :
    busram.mem.wf = true ∧ (0x1000#32).toNat % 2 = 0 ∧ isDevice busram.cfg 0x1000#32 = false ∧
      isDevice cfgDevice 0x2002#32 = true := by decide

/-- The companion's write, its wait, and a read of one lane, with and without the whole cell answered. -/
theorem witness_companionBus :
    (∃ later rest,
      (asks .m (.companionBus ⟨true, true, true, 0xFFFFFFFF#32, 0x1234#16⟩) idle).turns = .agent .m :: later ∧
      takeFirst .m (asks .m (.companionBus ⟨true, true, true, 0xFFFFFFFF#32, 0x1234#16⟩) idle).inputs
        = some (.companionBus ⟨true, true, true, 0xFFFFFFFF#32, 0x1234#16⟩, rest)) ∧
    enabledM idle = true ∧ enabledM (running cfg41 0 1) = false ∧ enabledM (running cfg41 1 1) = true ∧
    (∃ later rest,
      (asks .m (.companionBus ⟨false, true, false, 0x1000#32, 0#16⟩) (State.resetWith cfgHalfCells)).turns
        = .agent .m :: later ∧
      takeFirst .m (asks .m (.companionBus ⟨false, true, false, 0x1000#32, 0#16⟩) (State.resetWith cfgHalfCells)).inputs
        = some (.companionBus ⟨false, true, false, 0x1000#32, 0#16⟩, rest)) ∧
    enabledM (State.resetWith cfgHalfCells) = true ∧ isDevice cfgHalfCells 0x1000#32 = false ∧
    cfgHalfCells.wholeCells = false ∧ cfg41.wholeCells = true :=
  ⟨⟨[], [], rfl, rfl⟩, by decide, by decide, by decide, ⟨[], [], rfl, rfl⟩, by decide⟩

/-! ### The FIFO -/

theorem witness_issueWrite :
    cfg41.evqDepth = 0 ∧ (posted.cfg.evqDepth ≠ 0 ∧ posted.evq.length ≠ posted.cfg.evqDepth) ∧
      (postedFull.cfg.evqDepth ≠ 0 ∧ postedFull.evq.length = postedFull.cfg.evqDepth ∧
        postedFull.evq = ⟨true, true, 0x4002#32, 0xBBBB#16⟩ :: [⟨true, true, 0x4004#32, 0xCCCC#16⟩]) := by decide

theorem witness_drain :
    (∃ later, State.turns { idle with turns := [.drain] } = .drain :: later) ∧ idle.evq = [] ∧
      ∃ h rest, postedFull.evq = h :: rest :=
  ⟨⟨[], rfl⟩, rfl, _, _, rfl⟩

/-- Every synchronising operation completes somewhere. -/
theorem witness_synchronising :
    (∃ t, exec (.rdb 0x4001#32) postedFull = .next t ∧ t.rsp ≠ .waits) ∧
    (∃ t, exec .tick (running cfg41 1 0) = .next t ∧ t.rsp ≠ .waits) ∧
    (∃ t, exec (.step 1#32) (running cfg41 1 0) = .next t ∧ t.rsp ≠ .waits) ∧
    (∃ t, exec (.power true) (running cfg41 2 0) = .next t ∧ t.rsp ≠ .waits) ∧
    ∃ t, exec .unload postedFull = .next t ∧ t.rsp ≠ .waits :=
  ⟨⟨_, rfl, by decide⟩,
    ⟨_, exec_completes (.tick _ rfl rfl (by decide)), completes_rsp (.tick _ rfl rfl (by decide))⟩,
    ⟨_, rfl, by decide⟩, ⟨_, rfl, by decide⟩, ⟨_, rfl, by decide⟩⟩

/-- A run in which a posted write is performed. -/
theorem witness_runs :
    ∃ s t, s.evq.length ≤ s.cfg.evqDepth ∧ Runs 2 s t ∧ t.trace ≠ s.trace :=
  ⟨{ postedFull with turns := [.drain, .drain] }, _, by decide, .next rfl (.next rfl (.refl _)), by decide⟩

/-- A write that issues, one that waits, an operation that issues nothing, a TICK that has its step and one that waits, and a
turn that is no command's. -/
theorem witness_issueOrder :
    (∃ t, postedFull.evq.length ≤ postedFull.cfg.evqDepth ∧ exec (.wrl 0x4001#32 0xDD#32) postedFull = .next t ∧
      t.rsp ≠ .waits) ∧
    (∃ t, exec (.wrb 0x4001#32 0xDD#8) (running cfg41 2 0) = .next t ∧ t.rsp = .waits) ∧
    (∃ t, exec .unload postedFull = .next t ∧ t.rsp ≠ .waits) ∧
    (∃ t c, (running cfg41 1 0).ctx = some c ∧ exec .tick (running cfg41 1 0) = .next t ∧ t.rsp ≠ .waits) ∧
    (∃ t c, (running cfg41 2 0).ctx = some c ∧ exec .tick (running cfg41 2 0) = .next t ∧ t.rsp = .waits) ∧
    ∃ (s t : State), (∀ a later, s.turns = .agent a :: later → ∀ c rest, takeFirst a s.inputs ≠ some (.command c, rest)) ∧
      step s = .next t ∧ t.evq.length < s.evq.length :=
  ⟨⟨_, by decide, rfl, by decide⟩, ⟨_, rfl, by decide⟩, ⟨_, rfl, by decide⟩,
    ⟨_, _, rfl, exec_completes (.tick _ rfl rfl (by decide)), completes_rsp (.tick _ rfl rfl (by decide))⟩,
    ⟨_, _, rfl, rfl, by decide⟩, ⟨{ postedFull with turns := [.drain] }, _, nofun, rfl, by decide⟩⟩

/-! ### The scheduler -/

/-- The cases of TICK and STEP: enabled, waiting, not Running. -/
theorem witness_stepAndTick :
    (∃ c, (running cfg41 1 0).sched = .running ∧ (running cfg41 1 0).ctx = some c ∧ enabledC (running cfg41 1 0) = true) ∧
    ((running cfg41 2 0).sched = .running ∧ (running cfg41 2 0).ctx ≠ none ∧ enabledC (running cfg41 2 0) = false) ∧
    idle.sched ≠ .running :=
  ⟨⟨_, rfl, rfl, by decide⟩, by decide, by decide⟩

/-- A state in which an instruction's accesses are those of the adapter operations, and two states that share what an instruction
reaches and differ in the rest. -/
theorem witness_instructionReaches :
    enabledC postedFull = true ∧
    (running cfg41 1 0).cfg = idle.cfg ∧ (running cfg41 1 0).evq = idle.evq ∧ (running cfg41 1 0).mem = idle.mem ∧
      (running cfg41 1 0).trace = idle.trace ∧ running cfg41 1 0 ≠ idle := by decide

theorem witness_companionStep :
    enabledM idle = true ∧ enabledM (running cfg41 1 1) = true ∧ enabledM (running cfg41 0 1) = false := by decide

/-- An operation that waits and one that does not; the default policy with exact views; Unstarted and Halted under the coroutine
policy. -/
theorem witness_waiting :
    (∃ t, exec .tick (running cfg41 2 0) = .next t ∧ t.rsp = .waits) ∧
    (∃ t, exec (.cstep 1#32) (running cfg41 0 1) = .next t ∧ t.rsp = .waits) ∧
    (∃ t, exec .excq (running cfg41 2 0) = .next t ∧ t.rsp ≠ .waits) ∧
    (idle.cfg.syncDepth = 0 ∧ idle.cfg.policy = .anyEnabled) ∧
    (State.resetWith cfgCoroutine).sched ≠ .running ∧
    State.sched { State.resetWith cfgCoroutine with sched := .halted } ≠ .running :=
  ⟨⟨_, rfl, by decide⟩, ⟨_, rfl, by decide⟩, ⟨_, rfl, by decide⟩, ⟨rfl, rfl⟩, by decide, by decide⟩

/-- Each side of the rule for who may step, while Running: at the quota and just beyond it, by the other's own time and by a view
that is behind it, and active and inactive under the coroutine policy. -/
theorem witness_mayStepWhileRunning :
    (timeC (running cfg41 1 0) = timeM (running cfg41 1 0) + quotaTicks cfg41 ∧ enabledC (running cfg41 1 0) = true ∧
      enabledC (running cfg41 2 0) = false ∧ enabledM (running cfg41 1 1) = true ∧ enabledM (running cfg41 0 1) = false) ∧
    (enabledC { viewsBehind with ctx := some ⟨0#32, 0#32, [], 2⟩ } = false ∧
      blockedC { viewsBehind with ctx := some ⟨0#32, 0#32, [], 2⟩ } = false ∧
      enabledM { viewsBehindM with cycM := 1 } = false ∧ blockedM { viewsBehindM with cycM := 1 } = false) ∧
    (running cfgCoroutine 0 0).sched = .running ∧ (running cfgCoroutine 0 0).active = some .c ∧
      enabledC (running cfgCoroutine 0 0) = true ∧ enabledM (running cfgCoroutine 0 0) = false := by decide

/-- Running states of the invariant, neither side blocked at the skew of one quota, and each side blocked just beyond it. -/
theorem witness_skewNow :
    (running cfg41 1 0).Inv ∧ (running cfg41 1 0).sched = .running ∧ (running cfg41 1 0).cfg.syncDepth = 0 ∧
    (timeC (running cfg41 1 0) = timeM (running cfg41 1 0) + quotaTicks cfg41 ∧ enabledC (running cfg41 1 0) = true ∧
      enabledM (running cfg41 1 0) = true ∧ blockedC (running cfg41 1 0) = false ∧ blockedM (running cfg41 1 0) = false) ∧
    blockedC (running cfg41 2 0) = true ∧ blockedM (running cfg41 0 1) = true :=
  ⟨running_inv 1 0, by decide⟩

/-- The companion has asked to be stepped once after C stepped once: the run of the next two witnesses. -/
def crossing : State :=
  { running cfg41 0 0 with
    turns := [.agent .c, .agent .m]
    inputs := [.command ⟨0xC0000000000000001#68, none⟩, .command ⟨0xE0000000000000001#68, none⟩] }

theorem crossing_inv : crossing.Inv := { running_inv 0 0 with }

theorem witness_skewAlongRuns :
    ∃ t, crossing.Inv ∧ AdvancesWithin 1 1 crossing ∧ (crossing.sched = .running → SkewWithin 1 1 crossing) ∧
      Runs 2 crossing t ∧ t.sched = .running := by
  refine ⟨_, crossing_inv, ?_, fun _ => by unfold SkewWithin; decide, .next rfl (.next rfl (.refl _)), rfl⟩
  intro x hx c i hc hi
  simp only [crossing, List.mem_cons, List.not_mem_nil, or_false] at hx
  rcases hx with rfl | rfl <;> cases hc <;> cases hi <;> decide

theorem witness_visibleWithinQuota :
    ∃ t, crossing.Inv ∧ crossing.sched = .running ∧ Runs 2 crossing t ∧ t.sched = .running ∧ enabledM t = true ∧
      timeM t > timeC crossing + quotaTicks crossing.cfg :=
  ⟨_, crossing_inv, rfl, .next rfl (.next rfl (.refl _)), rfl, by decide, by decide⟩

theorem witness_loneCoprocessor :
    (running cfg41 0 0).cfg.wf = true ∧ (running cfg41 0 0).cfg.syncDepth = 0 ∧ (running cfg41 0 0).sched = .running ∧
      (running cfg41 0 0).ctx ≠ none ∧ mayRun .c (running cfg41 0 0) = true ∧
      timeC (running cfg41 0 0) = timeM (running cfg41 0 0) ∧ quotaTicks cfg41 / periodC cfg41 = 1 := by decide

/-- Each branch of the rule for ACTIVE: POWER, the default policy, a wait, a hand-over each way, no hand-over. -/
theorem witness_active :
    (∃ t, exec (.power true) (running cfgCoroutine 2 0) = .next t) ∧
    (∃ t, exec (.step 5#32) (running cfg41 0 0) = .next t ∧ (running cfg41 0 0).cfg.policy = .anyEnabled) ∧
    (∃ t, exec (.cstep 1#32) (running cfgCoroutine 0 0) = .next t ∧ t.rsp = .waits) ∧
    (∃ t, exec (.step 2#32) (running cfgCoroutine 0 0) = .next t ∧ t.rsp ≠ .waits ∧ blockedC t = true) ∧
    (∃ t, exec (.cstep 1#32) { running cfgCoroutine 0 0 with active := some .m } = .next t ∧ t.rsp ≠ .waits ∧
      blockedM t = true) ∧
    ∃ t, exec (.step 1#32) (running cfgCoroutine 0 0) = .next t ∧ t.rsp ≠ .waits ∧ blockedC t = false :=
  ⟨⟨_, rfl⟩, ⟨_, rfl, rfl⟩, ⟨_, rfl, by decide⟩, ⟨_, rfl, by decide, by decide⟩, ⟨_, rfl, by decide, by decide⟩,
    ⟨_, rfl, by decide, by decide⟩⟩

theorem witness_timesCompare : cfg41.wf = true ∧ cfg41.quota = none ∧ periodC cfg41 = 2 ∧ periodM cfg41 = 3 := by decide

theorem witness_clocksAdvance :
    (∃ t c, exec (.step 5#32) (running cfg41 0 0) = .next t ∧ (running cfg41 0 0).ctx = some c ∧ t.rsp ≠ .waits) ∧
    ∃ t, exec (.cstep 5#32) (running cfg41 0 0) = .next t ∧ t.rsp ≠ .waits :=
  ⟨⟨_, _, rfl, rfl, by decide⟩, ⟨_, rfl, by decide⟩⟩

/-- T4: a CSTEP releases C; and L13 and L18, UNLOAD and POWER. -/
theorem witness_release :
    (running cfg41 2 0).Inv ∧ blockedC (running cfg41 2 0) = true ∧
    (∃ t, exec (.cstep 1#32) (running cfg41 2 0) = .next t ∧ blockedC t = false) ∧
    (∃ t, exec (.power true) (running cfg41 2 0) = .next t ∧ blockedC t = false) ∧
    ∃ t, exec .unload (running cfg41 2 0) = .next t ∧ blockedC t = false :=
  ⟨running_inv 2 0, by decide, ⟨_, rfl, by decide⟩, ⟨_, rfl, by decide⟩, ⟨_, rfl, by decide⟩⟩

/-- A TICK with the hook attached, and one that waits. -/
theorem witness_hookFires :
    (∃ t, exec .tick { running cfg41 0 0 with hookAttached := true } = .next t ∧ t.rsp ≠ .waits) ∧
    ∃ t, exec .tick { running cfg41 2 0 with hookAttached := true } = .next t ∧ t.rsp = .waits :=
  ⟨⟨_, exec_completes (.tick _ rfl rfl (by decide)), completes_rsp (.tick _ rfl rfl (by decide))⟩, ⟨_, rfl, by decide⟩⟩

/-- Under the clock views: an operation that takes its step and one that is refused. -/
theorem witness_clockViews :
    viewsBehind.Inv ∧ (∃ t, exec (.step 1#32) viewsBehind = .next t ∧ t.rsp ≠ .waits) ∧
      ∃ r, exec (.load none) viewsBehind = .refused r :=
  ⟨viewsBehind_inv, ⟨_, rfl, by decide⟩, _, rfl⟩

/-- A channel with room and a full one; and on each side a delivery of an event and one from an empty channel. -/
theorem witness_delivery :
    ((SyncLink.mk 0 []).chan.length ≠ 1 ∧ (SyncLink.mk 0 [3]).chan.length = 1 ∧ (SyncLink.mk 0 [3]).chan = 3 :: []) ∧
    (∃ (s : State) (later : List Turn) (e : Nat) (rest : List Nat),
      s.Inv ∧ s.turns = .deliverToC :: later ∧ s.toC.chan = e :: rest) ∧
    (∃ (s : State) (later : List Turn), s.turns = .deliverToC :: later ∧ s.toC.chan = []) ∧
    (∃ (s : State) (later : List Turn) (e : Nat) (rest : List Nat),
      s.Inv ∧ s.turns = .deliverToM :: later ∧ s.toM.chan = e :: rest ∧ s.sched = .running) ∧
    ∃ (s : State) (later : List Turn), s.turns = .deliverToM :: later ∧ s.toM.chan = [] :=
  ⟨by decide, ⟨{ viewsBehind with turns := [.deliverToC] }, [], 3, [], { viewsBehind_inv with }, rfl, rfl⟩,
    ⟨{ idle with turns := [.deliverToC] }, [], rfl, rfl⟩,
    ⟨{ viewsBehindM with turns := [.deliverToM] }, [], 2, [], { viewsBehindM_inv with }, rfl, rfl, rfl⟩,
    ⟨{ idle with turns := [.deliverToM] }, [], rfl, rfl⟩⟩

/-- TICK, STEP, EXCQ and CSTEP each have a next state. -/
theorem witness_schedulerFrame :
    (running cfg41 1 0).evq.length ≤ (running cfg41 1 0).cfg.evqDepth ∧
    (∃ t, exec .tick (running cfg41 1 0) = .next t) ∧ (∃ t, exec (.step 1#32) (running cfg41 1 0) = .next t) ∧
    (∃ t, exec .excq (running cfg41 1 0) = .next t) ∧ ∃ t, exec (.cstep 1#32) (running cfg41 1 0) = .next t :=
  ⟨by decide, ⟨_, rfl⟩, ⟨_, rfl⟩, ⟨_, rfl⟩, _, rfl⟩

/-! ### The lifecycle, reset and the invariant -/

theorem witness_load : idle.boot = none ∧ ∃ cells, (running cfg41 0 0).boot = some cells := ⟨rfl, _, rfl⟩

theorem witness_power :
    (∃ c0 c1 c2 c3 more, (running cfg41 2 0).boot = some (c0 :: c1 :: c2 :: c3 :: more)) ∧ idle.boot = none :=
  ⟨⟨_, _, _, _, _, rfl⟩, rfl⟩

theorem witness_bootVector : idle.boot = none ∧ 4 ≤ idle.cfg.bootCells := by decide

theorem witness_powerIdempotent : ∃ t, exec (.power true) (running cfg41 2 1) = .next t := ⟨_, rfl⟩

/-- LOAD, POWER and UNLOAD each have a next state, and a posted write need not store to a byte. -/
theorem witness_lifecycleFrame :
    (∃ t, exec (.load none) postedFull = .next t) ∧ (∃ t, exec (.power true) (running cfg41 2 1) = .next t) ∧
    (∃ t, exec .unload postedFull = .next t) ∧ ∀ w ∈ postedFull.evq, storesByte (postedTxn w) 0x4000 = false :=
  ⟨⟨_, rfl⟩, ⟨_, rfl⟩, ⟨_, rfl⟩, by decide⟩

/-- Each refusal of R198 (a) to (c) occurs in a state of the invariant. -/
theorem witness_refusals :
    idle.Inv ∧ (running cfg41 0 0).Inv ∧ exec (.load none) (running cfg41 0 0) = .refused .loadWhileLoaded ∧
    exec (.power true) idle = .refused .powerWhileUnloaded ∧ exec .tick idle = .refused .tickNotRunning ∧
    exec (.step 1#32) idle = .refused .stepNotRunning :=
  ⟨idle_inv, running_inv 0 0, rfl, rfl, rfl, rfl⟩

/-- BOOT appears by LOAD, goes by UNLOAD, and stays otherwise. -/
theorem witness_bootReadOnly :
    look State.boot (step (asks .host (.command ⟨0x80000000000000000#68, none⟩) idle)) = some (some [0#16, 0#16, 0#16, 0#16]) ∧
    look State.boot (step (asks .host (.command ⟨0x90000000000000000#68, none⟩) (running cfg41 0 0))) = some none ∧
    look State.boot (step (asks .host (.hook true) idle)) = some none := by decide

theorem witness_tooling :
    ∃ later rest, (asks .host (.hook true) idle).turns = .agent .host :: later ∧
      takeFirst .host (asks .host (.hook true) idle).inputs = some (.hook true, rest) :=
  ⟨[], [], rfl, rfl⟩

theorem witness_invariantAtReset : cfg41.wf = true ∧ cfgCoroutine.wf = true ∧ cfgViews.wf = true := by decide

/-- A step from a state of the invariant that does something. -/
theorem witness_stepKeepsInvariant : ∃ t, crossing.Inv ∧ step crossing = .next t ∧ t ≠ crossing :=
  ⟨_, crossing_inv, rfl, by decide⟩

end Sys2Proof.Tests
end

section
/-!
PROOFS of the scope statements: the input that an agent's turn takes (R11, R102, R173, R197, R220), and the step of a turn that
takes a command (R10, R105, R160).
-/

namespace Sys2Proof.Machine

/-! ### Which inputs an agent's turn reaches -/

theorem Input.reachedBy_iff (a : Agent) (x : Input) : x.reachedBy a = true ↔ x.owner = none ∨ x.owner = some a := by
  unfold Input.reachedBy
  cases x.owner with
  | none => simp
  | some b => simp

/-- R102's rows of C, by code. -/
theorem ownerOfCode_c_iff (code : BitVec 4) :
    (Op.ofCode code).map Op.owner = some .c ↔ code.toNat ∈ [0x0, 0x1, 0x2, 0x4, 0x5, 0x6, 0xB, 0xC, 0xD] := by
  revert code
  decide

/-- R102's row of M, by code. -/
theorem ownerOfCode_m_iff (code : BitVec 4) : (Op.ofCode code).map Op.owner = some .m ↔ code.toNat = 0xE := by
  revert code
  decide

/-- R102's rows of HOST, by code. -/
theorem ownerOfCode_host_iff (code : BitVec 4) :
    (Op.ofCode code).map Op.owner = some .host ↔ code.toNat ∈ [0x8, 0x9, 0xA] := by
  revert code
  decide

theorem commandOwner_eq_none_iff (c : Cmd) : commandOwner c = none ↔ (opField c.word).toNat ∈ [0x3, 0x7, 0xF] := by
  rw [commandOwner, Option.map_eq_none_iff, Op.ofCode_none_iff]
  simp

theorem commandOwner_eq_some_iff (c : Cmd) (a : Agent) :
    commandOwner c = some a ↔
      ((opField c.word).toNat ∈ [0x0, 0x1, 0x2, 0x4, 0x5, 0x6, 0xB, 0xC, 0xD] ∧ a = .c) ∨
      ((opField c.word).toNat = 0xE ∧ a = .m) ∨ ((opField c.word).toNat ∈ [0x8, 0x9, 0xA] ∧ a = .host) := by
  unfold commandOwner
  cases a with
  | c => rw [ownerOfCode_c_iff]; simp
  | m => rw [ownerOfCode_m_iff]; simp
  | host => rw [ownerOfCode_host_iff]; simp

theorem reachedBy_command_iff (a : Agent) (c : Cmd) :
    Input.reachedBy a (.command c) = true ↔
      ((opField c.word).toNat ∈ [0x0, 0x1, 0x2, 0x4, 0x5, 0x6, 0xB, 0xC, 0xD] ∧ a = .c) ∨
      ((opField c.word).toNat = 0xE ∧ a = .m) ∨ ((opField c.word).toNat ∈ [0x8, 0x9, 0xA] ∧ a = .host) ∨
      (opField c.word).toNat ∈ [0x3, 0x7, 0xF] := by
  rw [Input.reachedBy_iff, Input.owner, commandOwner_eq_none_iff, commandOwner_eq_some_iff, or_comm, or_assoc, or_assoc]

theorem reachedBy_companionBus_iff (a : Agent) (b : BusTxn) :
    Input.reachedBy a (.companionBus b) = true ↔ a = .m :=
  beq_iff_eq.trans eq_comm

theorem reachedBy_hook_iff (a : Agent) (attach : Bool) : Input.reachedBy a (.hook attach) = true ↔ a = .host :=
  beq_iff_eq.trans eq_comm

/-! ### The input that an agent's turn takes -/

theorem takeFirst_cons_reached {a : Agent} {x : Input} (h : x.reachedBy a = true) (xs : List Input) :
    takeFirst a (x :: xs) = some (x, xs) := by
  simp [takeFirst, h]

theorem takeFirst_cons_passed {a : Agent} {x : Input} (h : x.reachedBy a = false) (xs : List Input) :
    takeFirst a (x :: xs) = (takeFirst a xs).map fun r => (r.1, x :: r.2) := by
  rw [takeFirst, h]
  cases takeFirst a xs <;> rfl

/-- A turn passes over what it does not reach and takes the next input, whatever stands after it. -/
theorem takeFirst_append {a : Agent} {before : List Input} (pass : ∀ y ∈ before, y.reachedBy a = false) {x : Input}
    (hx : x.reachedBy a = true) (after : List Input) :
    takeFirst a (before ++ x :: after) = some (x, before ++ after) := by
  induction before with
  | nil => exact takeFirst_cons_reached hx after
  | cons y before ih =>
    obtain ⟨hy, pass⟩ := List.forall_mem_cons.mp pass
    rw [List.cons_append, takeFirst_cons_passed hy, ih pass]
    rfl

/-- What a turn takes is the first input it reaches, taken out of its place. -/
theorem takeFirst_some {a : Agent} {xs rest : List Input} {x : Input} (h : takeFirst a xs = some (x, rest)) :
    ∃ before after, xs = before ++ x :: after ∧ rest = before ++ after ∧
      x.reachedBy a = true ∧ ∀ y ∈ before, y.reachedBy a = false := by
  induction xs generalizing rest with
  | nil => cases h
  | cons y ys ih =>
    cases hy : y.reachedBy a with
    | true =>
      rw [takeFirst_cons_reached hy] at h
      cases h
      exact ⟨[], ys, rfl, rfl, hy, by simp⟩
    | false =>
      rw [takeFirst_cons_passed hy, Option.map_eq_some_iff] at h
      obtain ⟨⟨x', rest'⟩, hys, hr⟩ := h
      cases hr
      obtain ⟨before, after, rfl, rfl, hx, pass⟩ := ih hys
      exact ⟨y :: before, after, rfl, rfl, hx, List.forall_mem_cons.mpr ⟨hy, pass⟩⟩

theorem takeFirst_eq_some_iff (a : Agent) (xs rest : List Input) (x : Input) :
    takeFirst a xs = some (x, rest) ↔
      ∃ before after, xs = before ++ x :: after ∧ rest = before ++ after ∧
        x.reachedBy a = true ∧ ∀ y ∈ before, y.reachedBy a = false := by
  constructor
  · exact takeFirst_some
  · rintro ⟨before, after, rfl, rfl, hx, pass⟩
    exact takeFirst_append pass hx after

/-- Settles O8: what a turn takes by induction on the waiting inputs, and the agent column through the owner of each code. -/
theorem agentsTakeTheirInputsInOrder : Obligations.AgentsTakeTheirInputsInOrder := by
  unfold Obligations.AgentsTakeTheirInputsInOrder
  refine ⟨takeFirst_eq_some_iff, fun a c b attach => ⟨?_, reachedBy_companionBus_iff a b, reachedBy_hook_iff a attach⟩⟩
  rw [← opField_toNat]
  exact reachedBy_command_iff a c

/-! ### The step of a turn that takes a command -/

theorem settle_took_step {t : State} (h : t.rsp ≠ .waits) (rest : List Input) :
    settle rest (.next t) = .next { t with inputs := rest } := by
  simp [settle, h]

theorem settle_waits {t : State} (h : t.rsp = .waits) (rest : List Input) : settle rest (.next t) = .next t := by
  simp [settle, h]

/-- An operation that answers `waits` has only waited. -/
theorem exec_rsp_waits {i : Instr} {s t : State} (h : exec i s = .next t) (hr : t.rsp = .waits) : t = s.waiting := by
  rcases exec_next h with done | ⟨-, ht⟩
  · exact absurd hr (completes_rsp done)
  · exact ht

/-- Settles O7: the step is `exec` settled, and an operation that waits leaves the inputs as they are. -/
theorem stepRunsTheDecodedInstruction : Obligations.StepRunsTheDecodedInstruction := by
  unfold Obligations.StepRunsTheDecodedInstruction
  intro s a later c rest i turn first ok
  rw [step_command turn first ok]
  refine ⟨fun t run hr => ?_, fun t run hr => ?_, fun r run => ?_⟩
  · rw [run, settle_took_step hr]
  · have inputs : t.inputs = s.inputs := by rw [exec_rsp_waits run hr, waiting_inputs]
    exact ⟨by rw [run, settle_waits hr], inputs⟩
  · rw [run, settle]

end Sys2Proof.Machine
end

section
/-!
PROOFS of the state statements (10_state.md): every step keeps the invariant (R20 to R35, R62, R109, R190, R216, R219), the two
times on the common time base (R30, R162), who writes the clocks (R27, R29, R247), and the boot image (R21).
-/

namespace Sys2Proof.Machine

/-! ### The invariant through the turns that carry out no command -/

/-- The companion's transaction on the bus (R173), well formed, keeps what the invariant says of the bus and the FIFO. -/
theorem BusInv.companion {s : State} (h : BusInv s) {b : BusTxn} (hb : b.wf = true) : BusInv (busWrite .m b s) := by
  have even : b.addr.getLsbD 0 = false := by
    simp only [BusTxn.wf, Bool.and_eq_true, Bool.not_eq_true'] at hb
    exact hb.1
  refine ⟨Memory.wf_storageAfter h.memory even, h.fifoFits, h.fifoEntries, fun e he => ?_, fun e he issuer => ?_⟩
  · rcases List.mem_append.mp he with old | new
    · exact h.transactions e old
    · rw [List.mem_singleton.mp new]
      exact hb
  · rcases List.mem_append.mp he with old | new
    · exact h.lanes e old issuer
    · rw [List.mem_singleton.mp new] at issuer
      cases issuer

theorem inv_companion {s : State} (h : s.Inv) {b : BusTxn} (hb : b.wf = true) : (busWrite .m b s).Inv :=
  h.busOnly rfl (h.bus.companion hb) h.waitingDrained

theorem cellWrite_wf {b : BusTxn} (hw : b.write = true) : BusTxn.wf { b with addr := cellAddr b.addr } = true := by
  rw [BusTxn.wf, cellAddr_even, hw]
  rfl

theorem cellRead_wf (u l : Bool) (a : Addr) : (readTxn u l (cellAddr a)).wf = true := by
  rw [BusTxn.wf, readTxn, cellAddr_even]
  rfl

/-- DRAIN keeps the invariant: where C waits the FIFO is empty already, and DRAIN does nothing (R215). -/
theorem inv_drainOne {s : State} (h : s.Inv) : (drainOne s).Inv := by
  refine inv_progress h (progress_drainOne s) (by simp) fun hw => ?_
  have empty : s.evq = [] := h.waitingDrained hw
  rw [drainOne_nil empty, empty]

/-- A delivery only raises C's view, so C waits after it only if it waited before, with the FIFO empty (R219). -/
theorem inv_deliverToC {s : State} (h : s.Inv) : (deliverToC s).Inv :=
  { h with
    waitingDrained := fun hw =>
      h.waitingDrained (waitsC_antitone (t := deliverToC s) rfl rfl rfl (Nat.le_refl _) s.toC.view_le_deliver hw)
    viewOfCompanion := h.viewOfCompanion.deliver }

theorem inv_deliverToM {s : State} (h : s.Inv) : (deliverToM s).Inv :=
  { h with viewOfCoprocessor := fun hr => (h.viewOfCoprocessor hr).deliver }

/-! ### The invariant through a step -/

theorem inv_turns {s : State} (h : s.Inv) (later : List Turn) : State.Inv { s with turns := later } :=
  h.external s.rsp s.hookOut s.inputs later s.hookAttached

theorem inv_inputs {s : State} (h : s.Inv) (rest : List Input) : State.Inv { s with inputs := rest } :=
  h.external s.rsp s.hookOut rest s.turns s.hookAttached

theorem inv_goes {s t : State} (h : s.Inv) (g : Goes s t) : t.Inv := by
  cases g with
  | noTurn _ => exact h
  | drain later _ => exact inv_drainOne (inv_turns h later)
  | deliverToC later _ => exact inv_deliverToC (inv_turns h later)
  | deliverToM later _ => exact inv_deliverToM (inv_turns h later)
  | nothingAsked _ later _ _ => exact inv_turns h later
  | command _ later _ rest _ u _ _ _ run =>
    have hu : u.Inv := inv_exec (inv_turns h later) run
    split_ifs
    · exact hu
    · exact inv_inputs hu rest
  | companionWrite _ later b rest _ _ _ wr =>
    exact (inv_companion h (cellWrite_wf wr)).external .none s.hookOut rest later s.hookAttached
  | companionRead _ later b rest _ _ _ _ =>
    exact (inv_companion h (cellRead_wf b.upper b.lower b.addr)).external _ s.hookOut rest later s.hookAttached
  | companionWaits _ later _ _ _ _ _ => exact h.external .waits s.hookOut s.inputs later s.hookAttached
  | hook _ later attach rest _ _ => exact h.external .none s.hookOut rest later attach

/-- Settles O60: by cases on what the turn of the step does. -/
theorem everyStepKeepsTheInvariant : Obligations.EveryStepKeepsTheInvariant := by
  unfold Obligations.EveryStepKeepsTheInvariant
  exact fun s t h hs => inv_goes h (step_next hs)

/-! ### The time base -/

theorem Config.wf_iff (c : Config) : c.wf = true ↔ 0 < c.freqC ∧ 0 < c.freqM ∧ 4 ≤ c.bootCells := by
  simp [Config.wf, and_assoc]

theorem periodC_mul_gcd (c : Config) : periodC c * Nat.gcd c.freqC c.freqM = c.freqM :=
  Nat.div_mul_cancel (Nat.gcd_dvd_right _ _)

theorem periodM_mul_gcd (c : Config) : periodM c * Nat.gcd c.freqC c.freqM = c.freqC :=
  Nat.div_mul_cancel (Nat.gcd_dvd_left _ _)

theorem periodC_pos {c : Config} (h : 0 < c.freqM) : 0 < periodC c :=
  Nat.pos_of_mul_pos_right (by rwa [periodC_mul_gcd])

theorem periodM_pos {c : Config} (h : 0 < c.freqC) : 0 < periodM c :=
  Nat.pos_of_mul_pos_right (by rwa [periodM_mul_gcd])

/-- Times on the time base compare as the cycle counts over the common multiple of the two frequencies (R30). -/
theorem times_le_iff_cross {c : Config} (hC : 0 < c.freqC) (x y : Nat) :
    x * periodC c ≤ y * periodM c ↔ x * c.freqM ≤ y * c.freqC := by
  have gcd_pos : 0 < Nat.gcd c.freqC c.freqM := Nat.gcd_pos_of_pos_left _ hC
  calc x * periodC c ≤ y * periodM c
    _ ↔ x * periodC c * Nat.gcd c.freqC c.freqM ≤ y * periodM c * Nat.gcd c.freqC c.freqM :=
        (Nat.mul_le_mul_right_iff gcd_pos).symm
    _ ↔ x * c.freqM ≤ y * c.freqC := by rw [mul_assoc, mul_assoc, periodC_mul_gcd, periodM_mul_gcd]

/-- Elapsed seconds compare as the cycle counts over the common multiple of the two frequencies. -/
theorem seconds_le_iff_cross {c : Config} (hC : 0 < c.freqC) (hM : 0 < c.freqM) (x y : Nat) :
    (x : ℚ) / (c.freqC : ℚ) ≤ (y : ℚ) / (c.freqM : ℚ) ↔ x * c.freqM ≤ y * c.freqC := by
  rw [div_le_div_iff₀ (Nat.cast_pos.mpr hC) (Nat.cast_pos.mpr hM)]
  norm_cast

/-- Settles O38: both comparisons are the cross-multiplied one. -/
theorem timesCompareAsSeconds : Obligations.TimesCompareAsSeconds := by
  unfold Obligations.TimesCompareAsSeconds
  intro c hc
  obtain ⟨hC, hM, -⟩ := (Config.wf_iff c).mp hc
  refine ⟨fun x y => ?_, periodC_pos hM, periodM_pos hC, fun hq => ?_⟩
  · rw [times_le_iff_cross hC, seconds_le_iff_cross hC hM]
  · rw [quotaTicks, hq, Option.getD_none]

/-! ### What a completed operation does to the clocks -/

/-- The operations of the adapter leave CTX, CYC_M and BOOT (R130). -/
theorem completes_adapter_leaves {i : Instr} {s t : State} (h : Completes s i t)
    (hi : i.op ∈ [Op.rdb, .rdw, .rdl, .wrb, .wrw, .wrl]) : t.ctx = s.ctx ∧ t.cycM = s.cycM ∧ t.boot = s.boot := by
  rw [completes_adapter h hi]
  exact ⟨rfl, rfl, rfl⟩

theorem tickWith_cycM (p : Prog) (c : Ctx) (s : State) : (tickWith p c s).cycM = s.cycM := by
  obtain ⟨_, _, _, _, -, ht⟩ := tickWith_eq p c s
  rw [ht]

theorem tickWith_boot (p : Prog) (c : Ctx) (s : State) : (tickWith p c s).boot = s.boot := by
  obtain ⟨_, _, _, _, -, ht⟩ := tickWith_eq p c s
  rw [ht]

/-- TICK moves C's clock by one cycle (R164). -/
theorem tickWith_ctx (p : Prog) (c : Ctx) (s : State) : ∃ c', (tickWith p c s).ctx = some c' ∧ c'.cycC = c.cycC + 1 := by
  obtain ⟨_, _, _, _, -, ht⟩ := tickWith_eq p c s
  rw [ht]
  exact ⟨_, rfl, rfl⟩

/-- C's clock moves by exactly the cycles of an operation that neither starts nor ends the context (R27). -/
theorem completes_ctx {i : Instr} {s t : State} (h : Completes s i t) (hp : i.op ≠ .power) (hu : i.op ≠ .unload)
    {c : Ctx} (hc : s.ctx = some c) : ∃ c', t.ctx = some c' ∧ c'.cycC = c.cycC + cyclesC i := by
  have adapter := completes_adapter_leaves h
  cases h with
  | rdb | rdw | rdl | wrb | wrw | wrl =>
    obtain ⟨ctx, -, -⟩ := adapter (by simp [Instr.op])
    exact ⟨c, ctx.trans hc, rfl⟩
  | load | excq => exact ⟨c, hc, rfl⟩
  | unloadRunning | unloadIdle => exact absurd rfl hu
  | power => exact absurd rfl hp
  | tick c₀ _ ctx =>
    obtain rfl : c₀ = c := Option.some.inj (ctx.symm.trans hc)
    exact tickWith_ctx _ c₀ s
  | step n => exact ⟨{ c with cycC := c.cycC + n.toNat }, by rw [answer_ctx, synchronise_eq hc], rfl⟩
  | cstep n => exact ⟨c, by rw [answer_ctx, advanceM_eq, hc], rfl⟩

theorem completes_cycM {i : Instr} {s t : State} (h : Completes s i t) (hp : i.op ≠ .power) :
    t.cycM = s.cycM + cyclesM i := by
  have adapter := completes_adapter_leaves h
  cases h with
  | rdb | rdw | rdl | wrb | wrw | wrl =>
    obtain ⟨-, cycM, -⟩ := adapter (by simp [Instr.op])
    exact cycM
  | load | excq => rfl
  | unloadRunning | unloadIdle => exact (progress_drainAll s).cycM
  | power => exact absurd rfl hp
  | tick c => exact tickWith_cycM _ c s
  | step n c _ ctx =>
    rw [answer_cycM, synchronise_eq ctx]
    rfl
  | cstep n =>
    rw [answer_cycM, advanceM_eq]
    rfl

/-- Settles O39: a completed operation moves the clocks by its cycles, and one that waits changes only its answer. -/
theorem clocksAdvanceOnlyBySteps : Obligations.ClocksAdvanceOnlyBySteps := by
  unfold Obligations.ClocksAdvanceOnlyBySteps
  intro i s t run
  rcases exec_next run with done | ⟨-, rfl⟩
  · rw [if_neg (completes_rsp done), if_neg (completes_rsp done)]
    exact ⟨fun hp hu c hc => completes_ctx done hp hu hc, completes_cycM done⟩
  · exact ⟨fun _ _ c hc => ⟨c, hc, rfl⟩, fun _ => rfl⟩

/-! ### The boot image -/

/-- BOOT after an operation that has taken its step (R190). -/
def bootAfter (s : State) : Instr → Option (List Word)
  | .load src => some (bootCellsFrom s.cfg.bootCells (src.getD []))
  | .unload => none
  | _ => s.boot

theorem completes_boot {i : Instr} {s t : State} (h : Completes s i t) : t.boot = bootAfter s i := by
  have adapter := completes_adapter_leaves h
  cases h with
  | rdb | rdw | rdl | wrb | wrw | wrl =>
    obtain ⟨-, -, boot⟩ := adapter (by simp [Instr.op])
    exact boot
  | load | excq | unloadRunning | unloadIdle => rfl
  | power => exact (progress_drainAll s).boot
  | tick c => exact tickWith_boot _ c s
  | step n c _ ctx =>
    rw [answer_boot, synchronise_eq ctx]
    rfl
  | cstep n =>
    rw [answer_boot, advanceM_eq]
    rfl

/-- BOOT moves as R21 lets it: it stays, it is released, or an image of BOOT_CELLS cells appears where there was none. -/
def BootMoves (s t : State) : Prop :=
  t.boot = s.boot ∨ t.boot = none ∨ (s.boot = none ∧ ∀ cells, t.boot = some cells → cells.length = s.cfg.bootCells)

theorem bootMoves_exec {i : Instr} {s t : State} (run : exec i s = .next t) : BootMoves s t := by
  rcases exec_next run with done | ⟨-, rfl⟩
  · have hb := completes_boot done
    cases done with
    | load src absent =>
      refine .inr (.inr ⟨absent, fun cells hc => ?_⟩)
      rw [← Option.some.inj hc, bootCellsFrom_length]
    | unloadRunning | unloadIdle => exact .inr (.inl hb)
    | _ => exact .inl hb
  · exact .inl rfl

theorem bootMoves_goes {s t : State} (g : Goes s t) : BootMoves s t := by
  cases g with
  | drain later => exact .inl (progress_drainOne { s with turns := later }).boot
  | command _ later _ _ _ u _ _ _ run =>
    have hu : BootMoves { s with turns := later } u := bootMoves_exec run
    split_ifs <;> exact hu
  | _ => exact .inl rfl

/-- Settles O56: only a command moves BOOT, and of the commands only LOAD and UNLOAD. -/
theorem bootImageIsReadOnly : Obligations.BootImageIsReadOnly := by
  unfold Obligations.BootImageIsReadOnly
  exact fun s t hs => bootMoves_goes (step_next hs)

end Sys2Proof.Machine
end

section
/-!
PROOFS of the memory statements (20_memory.md): a bus write stores the selected lanes (R65, R72), byte and word reads of a long
(R73, R138), storage is the replay of the bus (R36, R212), and C's writes become visible within the quota (R79).
-/

namespace Sys2Proof.Machine

/-! ### A bus write on plain storage, byte by byte -/

theorem upperLane_num (d : Word) : BitVec.ofNat 8 (d.toNat / 256) = upperLane d :=
  BitVec.eq_of_toNat_eq (by rw [upperLane_toNat, BitVec.toNat_ofNat]; have := d.isLt; omega)

theorem lowerLane_num (d : Word) : BitVec.ofNat 8 (d.toNat % 256) = lowerLane d :=
  BitVec.eq_of_toNat_eq (by rw [lowerLane_toNat, BitVec.toNat_ofNat]; omega)

theorem storageAfter_plain {c : Config} {t : BusTxn} (hw : t.write = true) (hd : isDevice c t.addr = false) (m : Memory) :
    storageAfter c m t = m.store t := by
  simp [storageAfter, hw, hd]

theorem storageAfter_device {c : Config} {t : BusTxn} (hd : isDevice c t.addr = true) (m : Memory) :
    storageAfter c m t = m := by
  simp [storageAfter, hd]

/-- A stored transaction is read back on its selected lanes, and nowhere else (R65). -/
theorem Memory.read_store {m : Memory} (hm : m.wf = true) {t : BusTxn} (hw : t.write = true)
    (even : t.addr.getLsbD 0 = false) (n : Nat) :
    (m.store t).read n =
      if t.upper = true ∧ n = t.addr.toNat then upperLane t.data
      else if t.lower = true ∧ n = t.addr.toNat + 1 then lowerLane t.data
      else m.read n := by
  split_ifs with upper lower
  · obtain ⟨hu, rfl⟩ := upper
    exact Memory.read_store_upper hm hu
  · obtain ⟨hl, rfl⟩ := lower
    exact Memory.read_store_lower hm even hl
  · have other : storesByte t n = false := by
      simp only [storesByte, hw, Bool.true_and, Bool.or_eq_false_iff, Bool.and_eq_false_imp, beq_eq_false_iff_ne]
      exact ⟨fun hu hn => upper ⟨hu, hn.symm⟩, fun hl hn => lower ⟨hl, hn.symm⟩⟩
    exact Memory.read_store_other m hw other

/-- Settles O20: a device window leaves storage alone, and plain storage stores the selected lanes. -/
theorem busWriteStoresTheSelectedLanes : Obligations.BusWriteStoresTheSelectedLanes := by
  unfold Obligations.BusWriteStoresTheSelectedLanes
  intro x t s n hm even hw
  refine ⟨busWrite_trace x t s, ?_⟩
  rw [busWrite_mem, upperLane_num, lowerLane_num]
  cases hd : isDevice s.cfg t.addr with
  | true => simp [storageAfter_device hd]
  | false =>
    rw [storageAfter_plain hw hd, Memory.read_store hm hw (getLsbD_zero_of_even even)]
    simp

/-! ### Reads of plain storage -/

theorem enabledC_busOnly {s t : State} (h : BusOnly s t) : enabledC t = enabledC s := by
  unfold BusOnly at h
  rw [h]
  rfl

theorem drainAll_answer (r : Response) (s : State) : drainAll (s.answer r) = (drainAll s).answer r := by
  rw [drainAll_eq, drainAll_eq]
  rfl

/-- A byte is the lane of its cell that its address selects (R62, R139). -/
theorem Memory.selectLane_cell (m : Memory) (a : Addr) : selectLane a (m.cell (cellAddr a)) = m.read a.toNat := by
  have cell := cellAddr_toNat a
  rw [selectLane, getLsbD_zero_eq, Memory.cell, upperLane_joinBytes, lowerLane_joinBytes]
  rcases Nat.mod_two_eq_zero_or_one a.toNat with even | odd
  · rw [show (cellAddr a).toNat = a.toNat by omega]
    simp [even]
  · rw [show (cellAddr a).toNat + 1 = a.toNat by omega]
    simp [odd]

/-- RDB on plain storage answers its lane of the cell, with everything issued performed (R131, R214). -/
theorem exec_rdb_plain {s : State} {a : Addr} (en : enabledC s = true) (hd : isDevice s.cfg (cellAddr a) = false) :
    ∃ u, exec (.rdb a) s = .next u ∧ u.rsp = .byte (selectLane a ((drainAll s).mem.cell (cellAddr a))) :=
  ⟨_, exec_completes (.rdb a en), by rw [answer_rsp, readByte_plain hd, Memory.selectLane_cell]⟩

/-- RDW on plain storage answers the cell, with everything issued performed (R132, R214). -/
theorem exec_rdw_plain {s : State} {a : Addr} (en : enabledC s = true) (hd : isDevice s.cfg (cellAddr a) = false) :
    ∃ u, exec (.rdw a) s = .next u ∧ u.rsp = .word ((drainAll s).mem.cell (cellAddr a)) :=
  ⟨_, exec_completes (.rdw a en), by rw [answer_rsp, readWord_plain hd]⟩

/-! ### The bytes and words of a long -/

/-- Once performed, a long write leaves its two halves in the two cells of its group, most significant first (R136). -/
theorem cells_after_writeLong {s : State} (h : s.Inv) {a : Addr} (hd : isDevice s.cfg (groupAddr a) = false)
    (hd2 : isDevice s.cfg (groupAddr2 a) = false) (v : Long) :
    (drainAll (writeLong a v s)).mem.cell (groupAddr a) = highWord v ∧
      (drainAll (writeLong a v s)).mem.cell (groupAddr2 a) = lowWord v := by
  have first := progress_issueWrite (longWriteHigh a v) h.fifoFits
  have fits : (issueWrite (longWriteHigh a v) s).evq.length ≤ (issueWrite (longWriteHigh a v) s).cfg.evqDepth := by
    rw [first.cfg]
    exact first.fits h.fifoFits
  have mem : (drainAll (writeLong a v s)).mem =
      ((drainAll s).mem.store (postedTxn (longWriteHigh a v))).store (postedTxn (longWriteLow a v)) := by
    rw [writeLong, mem_after_issue (longWriteLow a v) fits (by rw [first.cfg]; exact hd2),
      mem_after_issue (longWriteHigh a v) h.fifoFits hd]
  have wf := (inv_drainAll h).memory
  rw [mem]
  constructor
  · have apart : (groupAddr a).toNat + 1 < (longWriteLow a v).addr.toNat := by
      rw [longWriteLow, groupAddr_toNat, groupAddr2_toNat]
      omega
    rw [cell_kept _ (.inr apart)]
    exact cell_stored wf (w := longWriteHigh a v) (groupAddr_even a) rfl rfl
  · exact cell_stored (Memory.wf_store wf (groupAddr_even a)) (w := longWriteLow a v) (groupAddr2_even a) rfl rfl

theorem groupAddr_of_aligned {a : Addr} (h : a.toNat % 4 = 0) : groupAddr a = a :=
  BitVec.eq_of_toNat_eq (by rw [groupAddr_toNat]; omega)

/-- Within an aligned group addresses do not wrap (R137). -/
theorem aligned_add_toNat {a : Addr} (h : a.toNat % 4 = 0) {k : Nat} (hk : k < 4) :
    (a + BitVec.ofNat 32 k).toNat = a.toNat + k := by
  have := a.isLt
  rw [BitVec.toNat_add, BitVec.toNat_ofNat]
  omega

/-- The first two bytes of an aligned group lie in its first cell, the others in its second (R62, R67). -/
theorem cellAddr_aligned_add {a : Addr} (h : a.toNat % 4 = 0) {k : Nat} (hk : k < 4) :
    cellAddr (a + BitVec.ofNat 32 k) = if k < 2 then groupAddr a else groupAddr2 a := by
  apply BitVec.eq_of_toNat_eq
  rw [cellAddr_toNat, aligned_add_toNat h hk]
  split_ifs
  · rw [groupAddr_toNat]; omega
  · rw [groupAddr2_toNat]; omega

/-- The lane that each address of an aligned group selects from the halves of a long (R73). -/
theorem selectLane_halves {a : Addr} (h : a.toNat % 4 = 0) (v : Long) {k : Nat} (hk : k < 4) :
    selectLane (a + BitVec.ofNat 32 k) (if k < 2 then highWord v else lowWord v) =
      BitVec.ofNat 8 (v.toNat / 256 ^ (3 - k) % 256) := by
  rw [← selectLane_num, aligned_add_toNat h hk]
  interval_cases k <;> congr 1
  · rw [if_neg (by omega), if_pos (by omega), highWord_toNat]
    have := v.isLt
    omega
  · rw [if_pos (by omega), if_pos (by omega), highWord_toNat]
    omega
  · rw [if_neg (by omega), if_neg (by omega), lowWord_toNat]
    omega
  · rw [if_pos (by omega), if_neg (by omega), lowWord_toNat]
    omega

theorem highWord_num (v : Long) : BitVec.ofNat 16 (v.toNat / 65536) = highWord v :=
  BitVec.eq_of_toNat_eq (by rw [highWord_toNat, BitVec.toNat_ofNat]; have := v.isLt; omega)

theorem lowWord_num (v : Long) : BitVec.ofNat 16 (v.toNat % 65536) = lowWord v :=
  BitVec.eq_of_toNat_eq (by rw [lowWord_toNat, BitVec.toNat_ofNat]; omega)

/-- Settles O16: the reads answer lanes and cells of storage with the long write performed, and that holds the two halves. -/
theorem mixedWidthViewIsBigEndian : Obligations.MixedWidthViewIsBigEndian := by
  unfold Obligations.MixedWidthViewIsBigEndian
  intro s t a v hs en aligned hd hd2 run
  obtain rfl : (writeLong a v s).answer .none = t := Host.Outcome.next.inj ((exec_completes (.wrl a v en)).symm.trans run)
  have group : groupAddr a = a := groupAddr_of_aligned aligned
  have group2 : groupAddr2 a = a + 2#32 := by rw [groupAddr2, group]
  rw [← group] at hd
  rw [← group2] at hd2
  have bus : BusOnly s (writeLong a v s) := busOnly_memWrite .long a v s
  have cfg : (writeLong a v s).cfg = s.cfg := (progress_writeLong a v hs.fifoFits).cfg
  have en' : enabledC ((writeLong a v s).answer .none) = true := (enabledC_busOnly bus).trans en
  obtain ⟨high, low⟩ := cells_after_writeLong hs hd hd2 v
  rw [← cfg] at hd hd2
  refine ⟨fun k hk => ?_, ?_, ?_⟩
  · have cell := cellAddr_aligned_add aligned hk
    obtain ⟨u, hu, rsp⟩ := exec_rdb_plain (a := a + BitVec.ofNat 32 k) en' (by rw [cell]; split_ifs <;> assumption)
    refine ⟨u, hu, ?_⟩
    rw [rsp, drainAll_answer, answer_mem, cell, apply_ite (Memory.cell _), high, low, selectLane_halves aligned v hk]
  · have cell : cellAddr a = groupAddr a := by rw [group, cellAddr_of_even (getLsbD_zero_of_even (by omega))]
    obtain ⟨u, hu, rsp⟩ := exec_rdw_plain (a := a) en' (by rw [cell]; exact hd)
    exact ⟨u, hu, by rw [rsp, drainAll_answer, answer_mem, cell, high, highWord_num]⟩
  · have cell : cellAddr (groupAddr2 a) = groupAddr2 a := cellAddr_of_even (groupAddr2_even a)
    obtain ⟨u, hu, rsp⟩ := exec_rdw_plain (a := groupAddr2 a) en' (by rw [cell]; exact hd2)
    rw [← group2]
    exact ⟨u, hu, by rw [rsp, drainAll_answer, answer_mem, cell, low, lowWord_num]⟩

/-! ### Storage is the replay of the bus -/

/-- Settles O22: every step moves storage by the transactions it performs, and such moves compose along the run. -/
theorem memoryIsTheReplayOfTheBus : Obligations.MemoryIsTheReplayOfTheBus := by
  unfold Obligations.MemoryIsTheReplayOfTheBus
  intro k s t fits run
  have moves : Moves s t := moves_runs run fits
  obtain ⟨es, -, trace, mem, -⟩ := moves.events fits
  exact ⟨es, trace, mem, moves.cfg⟩

/-! ### What C has issued is performed before C's clock moves -/

theorem performedByC_of_empty {s : State} (h : s.evq = []) : performedByC s = issuedByC s := by
  simp [issuedByC, h]

theorem Moves.performed_prefix {s t : State} (h : Moves s t) (fits : s.evq.length ≤ s.cfg.evqDepth) :
    performedByC s <+: performedByC t := by
  obtain ⟨es, -, trace, -, -⟩ := h.events fits
  rw [performedByC, performedByC, trace, writesOfC_append]
  exact List.prefix_append _ _

theorem Moves.issued_prefix {s t : State} (h : Moves s t) (fits : s.evq.length ≤ s.cfg.evqDepth) :
    issuedByC s <+: issuedByC t := by
  obtain ⟨es, new, trace, -, writes⟩ := h.events fits
  rw [issuedByC, issuedByC, performedByC, performedByC, trace, writesOfC_append, List.append_assoc, writes,
    ← List.append_assoc]
  exact List.prefix_append _ _

theorem timeC_congr {s t : State} (ctx : t.ctx = s.ctx) (cfg : t.cfg = s.cfg) : timeC t = timeC s := by
  rw [timeC, timeC, ctx, cfg]

/-- An operation that moves C's time synchronises, or starts or ends the session: it drains the FIFO (R163, R193, R194). -/
theorem completes_drains_or_keeps_timeC {i : Instr} {s t : State} (h : Completes s i t) :
    t.evq = [] ∨ timeC t = timeC s := by
  have adapter (hi : i.op ∈ [Op.rdb, .rdw, .rdl, .wrb, .wrw, .wrl]) : timeC t = timeC s := by
    rw [completes_adapter h hi]
    rfl
  have drained : (drainAll s).evq = [] := by rw [drainAll_eq]
  cases h with
  | rdb | rdw | rdl | wrb | wrw | wrl => exact .inr (adapter (by simp [Instr.op]))
  | unloadRunning | unloadIdle | power => exact .inl drained
  | tick c =>
    obtain ⟨_, _, _, _, -, ht⟩ := tickWith_eq (Config.execUnit c.pc c.sp c.regs) c s
    exact .inl (by rw [answer_evq, ht])
  | step n c _ ctx => exact .inl (by rw [answer_evq, synchronise_eq ctx])
  | load | excq => exact .inr rfl
  | cstep n => exact .inr (timeC_congr (by rw [answer_ctx, advanceM_eq]) (by rw [answer_cfg, advanceM_eq]))

theorem exec_drains_or_keeps_timeC {i : Instr} {s t : State} (run : exec i s = .next t) :
    t.evq = [] ∨ timeC t = timeC s := by
  rcases exec_next run with done | ⟨-, rfl⟩
  · exact completes_drains_or_keeps_timeC done
  · exact .inr rfl

theorem step_drains_or_keeps_timeC {s t : State} (h : step s = .next t) : t.evq = [] ∨ timeC t = timeC s := by
  cases step_next h with
  | drain later =>
    have p := progress_drainOne { s with turns := later }
    exact .inr (timeC_congr p.ctx p.cfg)
  | command _ later _ _ _ u _ _ _ run =>
    have hu : u.evq = [] ∨ timeC u = timeC { s with turns := later } := exec_drains_or_keeps_timeC run
    split_ifs <;> exact hu
  | _ => exact .inr rfl

/-- Along a run C's time stays, or everything C had issued at its start has been performed (R79). -/
theorem runs_performs_or_keeps_timeC {k : Nat} {s t : State} (h : Runs k s t) (fits : s.evq.length ≤ s.cfg.evqDepth) :
    issuedByC s <+: performedByC t ∨ timeC t = timeC s := by
  induction h with
  | refl => exact .inr rfl
  | @next _ s u t first rest ih =>
    have moves : Moves s u := moves_step first fits
    have fits' : u.evq.length ≤ u.cfg.evqDepth := by
      rw [moves.cfg]
      exact moves.fits fits
    have issued : issuedByC s <+: issuedByC u := moves.issued_prefix fits
    rcases step_drains_or_keeps_timeC first with drained | same
    · rw [← performedByC_of_empty drained] at issued
      exact .inl (issued.trans ((moves_runs rest fits').performed_prefix fits'))
    · rcases ih fits' with performed | same'
      · exact .inl (issued.trans performed)
      · exact .inr (same'.trans same)

/-- M's view of C's time is not ahead of it (R219). -/
theorem State.Inv.viewOfC_le {s : State} (h : s.Inv) (hr : s.sched = .running) : viewOfC s ≤ timeC s := by
  unfold viewOfC
  split_ifs
  · exact Nat.le_refl _
  · exact (h.viewOfCoprocessor hr).notAhead _ List.mem_cons_self

/-- A companion that may step is ahead of C by the quota at most (R167). -/
theorem State.Inv.timeM_le_of_enabledM {s : State} (h : s.Inv) (hr : s.sched = .running) (en : enabledM s = true) :
    timeM s ≤ timeC s + quotaTicks s.cfg := by
  by_contra ahead
  have blocked : blockedM s = true := (blockedM_iff s).mpr ⟨hr, Nat.lt_of_not_le ahead⟩
  rw [enabledM, blockedM_waits (h.viewOfC_le hr) blocked] at en
  cases en

theorem inv_runs {k : Nat} {s t : State} (h : Runs k s t) (hs : s.Inv) : t.Inv :=
  h.keeps (fun _ _ hi first => inv_goes hi (step_next first)) hs

/-- Settles O41: where the companion may step beyond the quota, C's time has moved, so what C had issued is performed. -/
theorem writesAreVisibleWithinTheQuota : Obligations.WritesAreVisibleWithinTheQuota := by
  unfold Obligations.WritesAreVisibleWithinTheQuota
  intro k s t hs _ run hr en beyond
  have within : timeM t ≤ timeC t + quotaTicks t.cfg := (inv_runs run hs).timeM_le_of_enabledM hr en
  have cfg : t.cfg = s.cfg := (moves_runs run hs.fifoFits).cfg
  rcases runs_performs_or_keeps_timeC run hs.fifoFits with performed | same
  · exact performed
  · rw [same, cfg] at within
    omega

end Sys2Proof.Machine
end

section
/-!
PROOFS of the encoding statements: the decoder on every word (R101 to R106), the encoder as its inverse on the canonical
commands (R103, R105, R107), and the packed transaction record (R108).
-/

namespace Sys2Proof.Machine

/-! ### The decoder by the number of a word -/

/-- The low bits of a value by number: an operand is what R103 takes of `d`. -/
theorem extractLsb'_zero_eq_ofNat {w : Nat} (n : Nat) (x : BitVec w) :
    x.extractLsb' 0 n = BitVec.ofNat n (x.toNat % 2 ^ n) :=
  BitVec.eq_of_toNat_eq (by simp)

/-- A numbered word with a reserved code (R106). -/
theorem decode_numbered_reserved {op : Nat} (h : op < 16) (ho : Op.ofCode (BitVec.ofNat 4 op) = none) (a : Addr) (d : Long)
    (src : Option (List Byte)) :
    decode ⟨numberedWord op a d, src⟩ = .error (.reservedOp (BitVec.ofNat 4 op)) := by
  have field : opField (numberedWord op a d) = BitVec.ofNat 4 op := opField_numbered h a d
  rw [← field] at ho ⊢
  exact decode_reserved ho

/-- Settles O1: a word is numbered by its fields, and the opcode map looks its code up. -/
theorem wordsDecodeByTheOpcodeMap : Obligations.WordsDecodeByTheOpcodeMap := by
  unfold Obligations.WordsDecodeByTheOpcodeMap
  intro a d src word
  have defined (op : Nat) (h : op < 16) {o : Op} (ho : Op.ofCode (BitVec.ofNat 4 op) = some o) :
      decode (word op) = .ok (o.assemble a d src) := decode_numbered h ho a d src
  have reserved (op : Nat) (h : op < 16) (ho : Op.ofCode (BitVec.ofNat 4 op) = none) :
      decode (word op) = .error (.reservedOp (BitVec.ofNat 4 op)) := decode_numbered_reserved h ho a d src
  have byteOperand : BitVec.ofNat 8 (d.toNat % 256) = d.extractLsb' 0 8 := (extractLsb'_zero_eq_ofNat 8 d).symm
  have wordOperand : BitVec.ofNat 16 (d.toNat % 65536) = d.extractLsb' 0 16 := (extractLsb'_zero_eq_ofNat 16 d).symm
  rw [byteOperand, wordOperand, ← getLsbD_zero_eq d]
  exact ⟨defined 0x0 (by omega) rfl, defined 0x1 (by omega) rfl, defined 0x2 (by omega) rfl, reserved 0x3 (by omega) rfl,
    defined 0x4 (by omega) rfl, defined 0x5 (by omega) rfl, defined 0x6 (by omega) rfl, reserved 0x7 (by omega) rfl,
    defined 0x8 (by omega) rfl, defined 0x9 (by omega) rfl, defined 0xA (by omega) rfl, defined 0xB (by omega) rfl,
    defined 0xC (by omega) rfl, defined 0xD (by omega) rfl, defined 0xE (by omega) rfl, reserved 0xF (by omega) rfl⟩

/-- Settles O6: five closed words, evaluated. -/
theorem writtenOutWordsDecode : Obligations.WrittenOutWordsDecode := by
  unfold Obligations.WrittenOutWordsDecode
  decide

/-! ### The reserved codes -/

/-- A command is rejected exactly when its code is reserved (R106). -/
theorem decode_eq_error_iff (c : Cmd) :
    decode c = .error (.reservedOp (opField c.word)) ↔ Op.ofCode (opField c.word) = none := by
  refine ⟨fun rejected => ?_, decode_reserved⟩
  cases look : Op.ofCode (opField c.word) with
  | none => rfl
  | some o => rw [decode_defined look] at rejected; cases rejected

/-- The turn that takes a reserved code is refused (R106, R198 d). -/
theorem step_reserved {s : State} {a : Agent} {later : List Turn} {c : Cmd} {rest : List Input} {code : BitVec 4}
    (turn : s.turns = .agent a :: later) (first : takeFirst a s.inputs = some (.command c, rest))
    (rejected : decode c = .error (.reservedOp code)) : step s = .refused (.reservedOpcode code) := by
  simp only [step, turn, takeTurn, agentTurn, first, carryOut, rejected, settle]

/-- Settles O4: the opcode map has no entry for exactly these codes, and a rejected command has its turn refused. -/
theorem reservedCodesAreRefused : Obligations.ReservedCodesAreRefused := by
  unfold Obligations.ReservedCodesAreRefused
  intro c code
  have field : BitVec.ofNat 4 code = opField c.word := by
    rw [show code = (opField c.word).toNat from (opField_toNat c.word).symm, BitVec.ofNat_toNat, BitVec.setWidth_eq]
  have reserved : (code = 0x3 ∨ code = 0x7 ∨ code = 0xF) ↔ Op.ofCode (opField c.word) = none := by
    rw [Op.ofCode_none_iff, opField_toNat]
  rw [field, reserved]
  refine ⟨(decode_eq_error_iff c).symm, fun h => ?_, fun h s a later rest turn first => ?_⟩
  · obtain ⟨o, look⟩ := Option.ne_none_iff_exists'.mp h
    exact ⟨_, decode_defined look⟩
  · exact step_reserved turn first (decode_reserved h)

/-! ### The encoder -/

@[simp] theorem opField_packCmd (code : BitVec 4) (a : Addr) (d : Long) : opField (packCmd code a d) = code := by
  rw [packCmd_numbered, opField_numbered code.isLt, BitVec.ofNat_toNat, BitVec.setWidth_eq]

@[simp] theorem aField_packCmd (code : BitVec 4) (a : Addr) (d : Long) : aField (packCmd code a d) = a := by
  rw [packCmd_numbered, aField_numbered code.isLt]

@[simp] theorem dField_packCmd (code : BitVec 4) (a : Addr) (d : Long) : dField (packCmd code a d) = d := by
  rw [packCmd_numbered, dField_numbered code.isLt]

/-- An instruction is assembled from its own operation and operands (R103). -/
theorem assemble_operands (i : Instr) : i.op.assemble i.aOperand i.dOperand i.sideBand = i := by
  have narrow {n : Nat} (h : n ≤ 32) (v : BitVec n) : (v.setWidth 32).extractLsb' 0 n = v := by
    rw [BitVec.extractLsb'_setWidth_of_le (by omega), BitVec.extractLsb'_eq_self]
  cases i with
  | wrb a v => exact congrArg (Instr.wrb a) (narrow (by omega) v)
  | wrw a v => exact congrArg (Instr.wrw a) (narrow (by omega) v)
  | power r => cases r <;> rfl
  | _ => rfl

/-- Settles O2: the fields of the packed word are the operands, and the opcode map inverts the codes. -/
theorem decodeOfEncodeIsTheInstruction : Obligations.DecodeOfEncodeIsTheInstruction := by
  unfold Obligations.DecodeOfEncodeIsTheInstruction
  intro i
  calc decode (encode i)
      = .ok (i.op.assemble i.aOperand i.dOperand i.sideBand) :=
        decode_of_fields (opField_packCmd ..) (aField_packCmd ..) (dField_packCmd ..) i.op.ofCode_code i.sideBand
    _ = .ok i := by rw [assemble_operands]

/-! ### The canonical commands -/

theorem op_assemble (o : Op) (a : Addr) (d : Long) (src : Option (List Byte)) : (o.assemble a d src).op = o := by
  cases o <;> rfl

/-- Of field `a` an operation keeps all or nothing (R103). -/
theorem aOperand_assemble (o : Op) (a : Addr) (d : Long) (src : Option (List Byte)) :
    (o.assemble a d src).aOperand = if o.usesAddress then a else 0 := by
  cases o <;> rfl

/-- The low bits of a value, widened again, are the value under a mask. -/
theorem setWidth_extractLsb'_zero {w n : Nat} (h : n ≤ w) (x : BitVec w) :
    (x.extractLsb' 0 n).setWidth w = x &&& BitVec.ofNat w (2 ^ n - 1) := by
  have small : 2 ^ n - 1 < 2 ^ w :=
    Nat.lt_of_lt_of_le (Nat.sub_one_lt (Nat.two_pow_pos n).ne') (Nat.pow_le_pow_right (by omega) h)
  apply BitVec.eq_of_toNat_eq
  rw [BitVec.toNat_and, BitVec.toNat_ofNat, Nat.mod_eq_of_lt small, Nat.and_two_pow_sub_one_eq_mod,
    BitVec.toNat_setWidth_of_le h, BitVec.extractLsb'_toNat, Nat.shiftRight_zero]

/-- The flag of POWER, as a long, is `d` under the mask of its bit 0 (R103). -/
theorem dOperand_power (d : Long) : (Instr.power (d.getLsbD 0)).dOperand = d &&& 1#32 := by
  rw [BitVec.and_one_eq_setWidth_ofBool_getLsbD]
  cases d.getLsbD 0 <;> rfl

/-- Of field `d` an operation keeps the bits it uses (R103). -/
theorem dOperand_assemble (o : Op) (a : Addr) (d : Long) (src : Option (List Byte)) :
    (o.assemble a d src).dOperand = d &&& o.usedDataBits := by
  cases o with
  | wrb | wrw => exact setWidth_extractLsb'_zero (by omega) d
  | wrl | step | cstep => exact BitVec.and_allOnes.symm
  | power => exact dOperand_power d
  | rdb | rdw | rdl | load | unload | tick | excq => exact BitVec.and_zero.symm

/-- Of the side-band only LOAD keeps anything (R107). -/
theorem sideBand_assemble (o : Op) (a : Addr) (d : Long) (src : Option (List Byte)) :
    (o.assemble a d src).sideBand = if o = .load then src else none := by
  cases o <;> rfl

theorem and_not_eq_zero_iff {w : Nat} (x m : BitVec w) : x &&& ~~~m = 0 ↔ x &&& m = x := by
  have bit (b c : Bool) : (b && !c) = false ↔ (b && c) = b := by revert b c; decide
  simp only [BitVec.eq_of_getElem_eq_iff, BitVec.getElem_and, BitVec.getElem_not, BitVec.ofNat_eq_ofNat,
    BitVec.getElem_zero, bit]

/-- A command is canonical when its code is defined and its operation keeps every field whole (R103, R107). -/
theorem canonical_iff (c : Cmd) :
    c.canonical = true ↔ ∃ o, Op.ofCode (opField c.word) = some o ∧
      (if o.usesAddress then aField c.word else 0) = aField c.word ∧
      dField c.word &&& o.usedDataBits = dField c.word ∧ (if o = .load then c.src else none) = c.src := by
  unfold Cmd.canonical
  cases Op.ofCode (opField c.word) with
  | none => simp
  | some o =>
    have address : (o.usesAddress || aField c.word == 0) = true ↔
        (if o.usesAddress then aField c.word else 0) = aField c.word := by
      rw [ite_eq_left_iff, Bool.or_eq_true, beq_iff_eq, or_iff_not_imp_left, eq_comm (a := (0 : Addr))]
    have sideBand : (o == .load || c.src.isNone) = true ↔ (if o = .load then c.src else none) = c.src := by
      rw [ite_eq_left_iff, Bool.or_eq_true, beq_iff_eq, Option.isNone_iff_eq_none, or_iff_not_imp_left,
        eq_comm (a := none)]
    simp only [Bool.and_eq_true, address, sideBand, beq_iff_eq, and_not_eq_zero_iff, Option.some.injEq, exists_eq_left',
      and_assoc]

theorem encode_canonical (i : Instr) : (encode i).canonical = true := by
  refine (canonical_iff _).mpr ⟨i.op, ?_⟩
  simp only [encode, opField_packCmd, aField_packCmd, dField_packCmd]
  refine ⟨i.op.ofCode_code, ?_, ?_, ?_⟩
  · rw [← aOperand_assemble _ _ i.dOperand i.sideBand, assemble_operands]
  · rw [← dOperand_assemble _ i.aOperand _ i.sideBand, assemble_operands]
  · rw [← sideBand_assemble _ i.aOperand i.dOperand, assemble_operands]

/-- Encoding what was assembled sets to 0 what the operation ignores. -/
theorem encode_assemble (o : Op) (a : Addr) (d : Long) (src : Option (List Byte)) :
    encode (o.assemble a d src) =
      ⟨packCmd o.code (if o.usesAddress then a else 0) (d &&& o.usedDataBits), if o = .load then src else none⟩ := by
  rw [encode, op_assemble, aOperand_assemble, dOperand_assemble, sideBand_assemble]

/-- Settles O3: what an operation keeps of the fields of a canonical command is all of them. -/
theorem encodeOfDecodeIsTheCanonicalCommand : Obligations.EncodeOfDecodeIsTheCanonicalCommand := by
  unfold Obligations.EncodeOfDecodeIsTheCanonicalCommand
  refine ⟨encode_canonical, fun c canonical => ?_⟩
  obtain ⟨o, look, address, data, sideBand⟩ := (canonical_iff c).mp canonical
  refine ⟨_, decode_defined look, ?_⟩
  rw [encode_assemble, address, data, sideBand, Op.code_of_ofCode look, packCmd_fields]

/-! ### The transaction record -/

/-- R108's bit positions, in numbers. -/
theorem pack_toNat (t : BusTxn) :
    t.pack.toNat = t.write.toNat * 2 ^ 50 + t.upper.toNat * 2 ^ 49 + t.lower.toNat * 2 ^ 48
      + t.addr.toNat * 2 ^ 16 + t.data.toNat := by
  have := t.upper.toNat_lt; have := t.lower.toNat_lt; have := t.addr.isLt; have := t.data.isLt
  simp only [BusTxn.pack, BitVec.toNat_append, BitVec.toNat_ofBool]
  rw [← Nat.shiftLeft_add_eq_or_of_lt (by omega), ← Nat.shiftLeft_add_eq_or_of_lt (by omega),
    ← Nat.shiftLeft_add_eq_or_of_lt (by omega), ← Nat.shiftLeft_add_eq_or_of_lt (by omega)]
  simp only [Nat.shiftLeft_eq]
  omega

theorem extractLsb'_pack_addr (t : BusTxn) : t.pack.extractLsb' 16 32 = t.addr := by
  rw [BusTxn.pack, BitVec.extractLsb'_append_eq_of_le (by omega)]
  exact BitVec.extractLsb'_append_eq_right

/-- Bit 16 of the record is bit 0 of its address (R108). -/
theorem getLsbD_pack_16 (t : BusTxn) : t.pack.getLsbD 16 = t.addr.getLsbD 0 := by
  rw [← extractLsb'_pack_addr t, BitVec.getLsbD_extractLsb']
  rfl

theorem unpack_pack (t : BusTxn) : BusTxn.unpack t.pack = t := by
  rw [BusTxn.unpack, extractLsb'_pack_addr, BusTxn.pack, BitVec.extractLsb'_append_eq_right]
  simp only [BitVec.getLsbD_append]
  simp

/-- A record word is the sum of its fields at their places (R108). -/
theorem pack_unpack (w : TxnWord) : (BusTxn.unpack w).pack = w := by
  have := w.isLt
  apply BitVec.eq_of_toNat_eq
  simp only [pack_toNat, BusTxn.unpack, BitVec.getLsbD, Nat.toNat_testBit, BitVec.extractLsb'_toNat,
    Nat.shiftRight_eq_div_pow]
  omega

/-- R62, R63, R108: the address is even, and a read carries no data. -/
theorem busTxn_wf_iff (t : BusTxn) : t.wf = true ↔ t.addr.getLsbD 0 = false ∧ (t.write = false → t.data = 0) := by
  simp [BusTxn.wf, or_iff_not_imp_left]

/-- Settles O5: packing and unpacking are inverse, and a well-formed record has its address even and no data on a read. -/
theorem transactionRecordsPack : Obligations.TransactionRecordsPack := by
  unfold Obligations.TransactionRecordsPack
  refine ⟨fun t => ⟨unpack_pack t, pack_toNat t, fun wf => ?_⟩, pack_unpack⟩
  obtain ⟨even, noData⟩ := (busTxn_wf_iff t).mp wf
  refine ⟨by rw [getLsbD_pack_16, even], fun read => ?_⟩
  have data : t.data.toNat = 0 := by rw [noData read]; rfl
  rw [pack_toNat, data]
  omega

end Sys2Proof.Machine
end

section
/-!
PROOFS of the bus adapter's statements (40_bus_adapter.md): the exact results of the three reads and the three writes (R131 to
R136), the laws of the adapter's arithmetic (R137), the round trips on plain storage (R138), and the frames of the six operations.
-/

namespace Sys2Proof.Machine

/-! ### The reads -/

/-- What a byte read is answered: the lane that a device gives, or the byte of plain storage (R131). -/
theorem readByte_snd (a : Addr) (s : State) :
    (readByte a s).2 =
      if isDevice s.cfg (cellAddr a) then
        selectLane a (Config.deviceAnswer (s.trace ++ s.evq.map postedEvent)
          (readTxn (upperSelect a) (lowerSelect a) (cellAddr a)))
      else (storeAll s.cfg s.mem s.evq).read a.toNat := by
  cases hd : isDevice s.cfg (cellAddr a) with
  | true => simp only [readByte, issueRead_snd, busAnswer_drained, hd, if_true]
  | false => rw [readByte_plain hd, drainAll_eq]; rfl

theorem joinWords_num (hi lo : Word) : BitVec.ofNat 32 (hi.toNat * 65536 + lo.toNat) = joinWords hi lo := by
  rw [← joinWords_toNat, BitVec.ofNat_toNat, BitVec.setWidth_eq]

/-- Settles O9: `issueRead_eq` gives the state, `readByte_snd` the answer, and the numbers are the adapter's operand forms. -/
theorem byteReadResult : Obligations.ByteReadResult := by
  unfold Obligations.ByteReadResult
  intro a d src s
  refine ⟨decode_numbered (op := 0x0) (by omega) rfl a d src, fun en => ?_⟩
  simp only [cellAddr_num, upper_num, lower_num, selectLane_num]
  rw [exec_completes (.rdb a en), readByte_snd, readByte, issueRead_eq]
  rfl

/-- What a transaction with both lanes selected is answered, as a number (R62, R64). -/
theorem busAnswer_both_toNat (s : State) (a : Addr) :
    (busAnswer s (readTxn true true a)).toNat =
      if isDevice s.cfg a then (Config.deviceAnswer s.trace (readTxn true true a)).toNat
      else (s.mem.read a.toNat).toNat * 256 + (s.mem.read (a.toNat + 1)).toNat := by
  rw [busAnswer, storageAnswer_both, apply_ite BitVec.toNat, Memory.cell, joinBytes_toNat]
  rfl

/-- Settles O10: `issueRead_eq` gives the state, `busAnswer_both_toNat` the answer's number. -/
theorem wordReadResult : Obligations.WordReadResult := by
  unfold Obligations.WordReadResult
  intro a d src s
  refine ⟨decode_numbered (op := 0x1) (by omega) rfl a d src, fun en => ?_⟩
  intro cell txn before mem r
  have address : BitVec.ofNat 32 cell = cellAddr a := cellAddr_num a
  have answer : r = (busAnswer (drainAll s) (readTxn true true (cellAddr a))).toNat := by
    rw [busAnswer_both_toNat, drainAll_eq, cellAddr_toNat, ← address]
    rfl
  rw [exec_completes (.rdw a en), answer, BitVec.ofNat_toNat, BitVec.setWidth_eq]
  simp only [txn, address, readWord, issueRead_eq]
  rfl

/-- The two word reads of RDL: the second one finds the FIFO empty and the first one on the bus (R133, R214). -/
theorem readLong_eq (a : Addr) (s : State) :
    readLong a s =
      ({ s with
          evq := []
          mem := storeAll s.cfg s.mem s.evq
          trace := s.trace ++ s.evq.map postedEvent ++
            [⟨.c, readTxn true true (groupAddr a)⟩, ⟨.c, readTxn true true (groupAddr2 a)⟩] },
        joinWords (busAnswer (drainAll s) (readTxn true true (groupAddr a)))
          (busAnswer (issueRead true true (groupAddr a) s).1 (readTxn true true (groupAddr2 a)))) := by
  have empty : (issueRead true true (groupAddr a) s).1.evq = [] := by rw [issueRead_eq]
  rw [readLong, issueRead_snd, issueRead_snd, drainAll_of_empty empty]
  simp [issueRead_eq, storeAll_nil]

/-- Settles O11: `readLong_eq` gives the state, and the answer is composed of the numbers of the two words. -/
theorem longReadResult : Obligations.LongReadResult := by
  unfold Obligations.LongReadResult
  intro a d src s
  refine ⟨decode_numbered (op := 0x2) (by omega) rfl a d src, fun en => ?_⟩
  intro b txn1 txn2 before mem h lo
  have address : BitVec.ofNat 32 b = groupAddr a := groupAddr_num a
  have address2 : BitVec.ofNat 32 (b + 2) = groupAddr2 a := groupAddr2_num a
  have high : h = (busAnswer (drainAll s) (readTxn true true (groupAddr a))).toNat := by
    rw [busAnswer_both_toNat, drainAll_eq, groupAddr_toNat, ← address]
    rfl
  have low : lo = (busAnswer (issueRead true true (groupAddr a) s).1 (readTxn true true (groupAddr2 a))).toNat := by
    rw [busAnswer_both_toNat, issueRead_eq, groupAddr2_toNat, ← address, ← address2]
    rfl
  rw [exec_completes (.rdl a en), readLong_eq, high, low, joinWords_num]
  simp only [txn1, txn2, address, address2]
  rfl

/-! ### The writes -/

theorem duplicate_num (v : Byte) : BitVec.ofNat 16 (v.toNat * 256 + v.toNat) = duplicate v := by
  rw [← duplicate_toNat, BitVec.ofNat_toNat, BitVec.setWidth_eq]

/-- Settles O12: the issued transaction is `byteWrite`, written in numbers. -/
theorem byteWriteResult : Obligations.ByteWriteResult := by
  unfold Obligations.ByteWriteResult
  intro a d s v w
  have operand : d.extractLsb' 0 8 = v := extractLsb'_zero_eq_ofNat 8 d
  have number : d.toNat % 256 = v.toNat := by simp [v]
  have issued : w = byteWrite a v := by
    simp only [w, byteWrite, upper_num, lower_num, cellAddr_num, number, duplicate_num]
  refine ⟨?_, fun en => ?_⟩
  · rw [← operand]
    exact decode_numbered (op := 0x4) (by omega) rfl a d none
  · rw [exec_completes (.wrb a v en), issued]
    rfl

/-- Settles O13: the issued transaction is `wordWrite`, its address in numbers. -/
theorem wordWriteResult : Obligations.WordWriteResult := by
  unfold Obligations.WordWriteResult
  intro a d s v w
  have operand : d.extractLsb' 0 16 = v := extractLsb'_zero_eq_ofNat 16 d
  have issued : w = wordWrite a v := by simp only [w, wordWrite, cellAddr_num]
  refine ⟨?_, fun en => ?_⟩
  · rw [← operand]
    exact decode_numbered (op := 0x5) (by omega) rfl a d none
  · rw [exec_completes (.wrw a v en), issued]
    rfl

/-- Settles O14: the issued transactions are `longWriteHigh` and `longWriteLow`, written in numbers. -/
theorem longWriteResult : Obligations.LongWriteResult := by
  unfold Obligations.LongWriteResult
  intro a v s w1 w2
  have first : w1 = longWriteHigh a v := by simp only [w1, longWriteHigh, groupAddr_num, highWord_num]
  have second : w2 = longWriteLow a v := by simp only [w2, longWriteLow, groupAddr2_num, lowWord_num]
  refine ⟨decode_numbered (op := 0x6) (by omega) rfl a v none, fun en => ?_⟩
  rw [exec_completes (.wrl a v en), first, second]
  rfl

/-! ### The arithmetic -/

/-- Settles O17: the operand forms as numbers, and `omega` for what follows of the masks. -/
theorem adapterArithmeticLaws : Obligations.AdapterArithmeticLaws := by
  unfold Obligations.AdapterArithmeticLaws
  refine ⟨fun a => ?_, by decide, duplicate_toNat, joinWords_toNat, fun v =>
    ⟨highWord_toNat v, lowWord_toNat v, joinWords_halves v⟩⟩
  have := a.isLt
  rw [cellAddr_toNat, groupAddr_toNat, groupAddr2_toNat]
  omega

/-! ### The round trips -/

/-- After a write that completes, C may still step, and with everything performed storage holds the written lanes too, at
every depth of the FIFO (R213, R217 c). -/
theorem after_issueWrite {s : State} (h : s.Inv) (en : enabledC s = true) (w : Posted)
    (hd : isDevice s.cfg w.addr = false) :
    enabledC ((issueWrite w s).answer .none) = true ∧ ((issueWrite w s).answer .none).cfg = s.cfg ∧
      (drainAll ((issueWrite w s).answer .none)).mem = (drainAll s).mem.store (postedTxn w) := by
  refine ⟨(enabledC_busOnly (busOnly_issueWrite w s)).trans en, (progress_issueWrite w h.fifoFits).cfg, ?_⟩
  rw [drainAll_answer, answer_mem, mem_after_issue w h.fifoFits hd]

/-- RDB on plain storage answers its byte, with everything issued performed (R131, R214). -/
theorem exec_rdb_byte {s : State} {a : Addr} (en : enabledC s = true) (hd : isDevice s.cfg (cellAddr a) = false) :
    ∃ u, exec (.rdb a) s = .next u ∧ u.rsp = .byte ((drainAll s).mem.read a.toNat) := by
  rw [← Memory.selectLane_cell]
  exact exec_rdb_plain en hd

/-- RDL on plain storage answers its two cells, with everything issued performed (R133, R214). -/
theorem exec_rdl_plain {s : State} {a : Addr} (en : enabledC s = true) (hd : isDevice s.cfg (groupAddr a) = false)
    (hd2 : isDevice s.cfg (groupAddr2 a) = false) :
    ∃ u, exec (.rdl a) s = .next u ∧
      u.rsp = .long (joinWords ((drainAll s).mem.cell (groupAddr a)) ((drainAll s).mem.cell (groupAddr2 a))) :=
  ⟨_, exec_completes (.rdl a en), by rw [answer_rsp, readLong_plain hd hd2]⟩

/-- R138 (a): a word written is read back. -/
theorem word_round_trip {s : State} (h : s.Inv) (en : enabledC s = true) (a : Addr) (v : Word)
    (hd : isDevice s.cfg (cellAddr a) = false) :
    ∃ t u, exec (.wrw a v) s = .next t ∧ exec (.rdw a) t = .next u ∧ u.rsp = .word v := by
  obtain ⟨en', cfg, mem⟩ := after_issueWrite h en (wordWrite a v) hd
  obtain ⟨u, read, rsp⟩ := exec_rdw_plain (a := a) en' (by rw [cfg, hd])
  have stored := cell_stored (inv_drainAll h).memory (w := wordWrite a v) (cellAddr_even a) rfl rfl
  refine ⟨_, u, exec_completes (.wrw a v en), read, ?_⟩
  rw [rsp, mem]
  exact congrArg Response.word stored

/-- The two bytes of a cell have addresses that differ in bit 0 (R62). -/
theorem cellAddr_xor_one (a : Addr) : cellAddr (a ^^^ 1#32) = cellAddr a := by
  apply BitVec.eq_of_toNat_eq
  rw [cellAddr_toNat, cellAddr_toNat, xor_one]
  split_ifs <;> omega

/-- R138 (b): a byte written is read back, and the other byte of its cell reads as before. -/
theorem byte_round_trip {s : State} (h : s.Inv) (en : enabledC s = true) (a : Addr) (v : Byte)
    (hd : isDevice s.cfg (cellAddr a) = false) :
    ∃ t u before after, exec (.wrb a v) s = .next t ∧ exec (.rdb a) t = .next u ∧ u.rsp = .byte v ∧
      exec (.rdb (a ^^^ 1#32)) s = .next before ∧ exec (.rdb (a ^^^ 1#32)) t = .next after ∧ after.rsp = before.rsp := by
  obtain ⟨en', cfg, mem⟩ := after_issueWrite h en (byteWrite a v) hd
  have hd' := hd
  rw [← cfg] at hd'
  obtain ⟨u, read, rsp⟩ := exec_rdb_byte en' hd'
  rw [← cellAddr_xor_one] at hd hd'
  obtain ⟨before, readBefore, rspBefore⟩ := exec_rdb_byte en hd
  obtain ⟨after, readAfter, rspAfter⟩ := exec_rdb_byte en' hd'
  refine ⟨_, u, before, after, exec_completes (.wrb a v en), read, ?_, readBefore, readAfter, ?_⟩
  · rw [rsp, mem, byte_stored (inv_drainAll h).memory]
  · rw [rspAfter, rspBefore, mem, byte_kept]

/-- R138 (c): a long written is read back. -/
theorem long_round_trip {s : State} (h : s.Inv) (en : enabledC s = true) (a : Addr) (v : Long)
    (hd : isDevice s.cfg (groupAddr a) = false) (hd2 : isDevice s.cfg (groupAddr2 a) = false) :
    ∃ t u, exec (.wrl a v) s = .next t ∧ exec (.rdl a) t = .next u ∧ u.rsp = .long v := by
  obtain ⟨high, low⟩ := cells_after_writeLong h hd hd2 v
  have cfg : (writeLong a v s).cfg = s.cfg := (progress_writeLong a v h.fifoFits).cfg
  have en' : enabledC ((writeLong a v s).answer .none) = true :=
    (enabledC_busOnly (busOnly_memWrite .long a v s)).trans en
  rw [← cfg] at hd hd2
  obtain ⟨u, read, rsp⟩ := exec_rdl_plain en' hd hd2
  refine ⟨_, u, exec_completes (.wrl a v en), read, ?_⟩
  rw [rsp, drainAll_answer, answer_mem, high, low, joinWords_halves]

/-- R138 (d): a long is composed of its two words. -/
theorem long_of_words {s : State} (en : enabledC s = true) (a : Addr) (hd : isDevice s.cfg (groupAddr a) = false)
    (hd2 : isDevice s.cfg (groupAddr2 a) = false) :
    ∃ t h lo, exec (.rdl a) s = .next t ∧
      (∃ u, exec (.rdw (groupAddr a)) s = .next u ∧ u.rsp = .word h) ∧
      (∃ u, exec (.rdw (groupAddr2 a)) s = .next u ∧ u.rsp = .word lo) ∧ t.rsp = .long (h ++ lo) := by
  obtain ⟨t, read, rsp⟩ := exec_rdl_plain en hd hd2
  rw [← cellAddr_of_even (groupAddr_even a)] at hd
  rw [← cellAddr_of_even (groupAddr2_even a)] at hd2
  have high := exec_rdw_plain en hd
  have low := exec_rdw_plain en hd2
  rw [cellAddr_of_even (groupAddr_even a)] at high
  rw [cellAddr_of_even (groupAddr2_even a)] at low
  exact ⟨t, _, _, read, high, low, rsp⟩

/-- The address of the odd byte of a cell (R62). -/
theorem cellAddr_succ_toNat (a : Addr) : (cellAddr a + 1#32).toNat = (cellAddr a).toNat + 1 := by
  have := even_succ_lt (cellAddr_even a)
  rw [BitVec.toNat_add]
  exact Nat.mod_eq_of_lt this

/-- R138 (d): a word is composed of its two bytes. -/
theorem word_of_bytes {s : State} (en : enabledC s = true) (a : Addr) (hd : isDevice s.cfg (cellAddr a) = false) :
    ∃ t hi lo, exec (.rdw a) s = .next t ∧
      (∃ u, exec (.rdb (cellAddr a)) s = .next u ∧ u.rsp = .byte hi) ∧
      (∃ u, exec (.rdb (cellAddr a + 1#32)) s = .next u ∧ u.rsp = .byte lo) ∧ t.rsp = .word (hi ++ lo) := by
  have odd : cellAddr (cellAddr a + 1#32) = cellAddr a := by
    apply BitVec.eq_of_toNat_eq
    rw [cellAddr_toNat, cellAddr_succ_toNat, cellAddr_toNat]
    omega
  obtain ⟨t, read, rsp⟩ := exec_rdw_plain en hd
  have high := exec_rdb_byte (a := cellAddr a) en (by rw [cellAddr_idem, hd])
  have low := exec_rdb_byte (a := cellAddr a + 1#32) en (by rw [odd, hd])
  rw [cellAddr_succ_toNat] at low
  exact ⟨t, _, _, read, high, low, rsp⟩

/-- Settles O15: the five clauses of R138. -/
theorem accessesRoundTrip : Obligations.AccessesRoundTrip := by
  unfold Obligations.AccessesRoundTrip
  intro s h en
  exact ⟨word_round_trip h en, byte_round_trip h en, long_round_trip h en, long_of_words en, word_of_bytes en⟩

/-! ### The frames -/

/-- A read that completes has performed what was posted, and stored nothing else (R214). -/
theorem completes_read_mem {i : Instr} {s t : State} (done : Completes s i t) (hi : i.op ∈ [Op.rdb, .rdw, .rdl]) :
    t.mem = storeAll s.cfg s.mem s.evq := by
  cases done with
  | rdb a _ => rw [answer_mem, readByte, issueRead_eq]
  | rdw a _ => rw [answer_mem, readWord, issueRead_eq]
  | rdl a _ => rw [answer_mem, readLong_eq]
  | _ => simp [Instr.op] at hi

/-- A write that completes issues its transactions one after the other (R134, R135, R136). -/
theorem completes_write {i : Instr} {s t : State} (done : Completes s i t) (hi : i.op ∈ [Op.wrb, .wrw, .wrl]) :
    t = ((writesOf i).foldl (fun s w => issueWrite w s) s).answer .none := by
  cases done with
  | wrb a v _ => rfl
  | wrw a v _ => rfl
  | wrl a v _ => rfl
  | _ => simp [Instr.op] at hi

/-- An operation of the adapter, completed or waiting, reaches the FIFO, storage, the bus's history and the answer at most
(R130). -/
theorem exec_adapter {i : Instr} {s t : State} (run : exec i s = .next t)
    (hi : i.op ∈ [Op.rdb, .rdw, .rdl, .wrb, .wrw, .wrl]) :
    t = { s with evq := t.evq, mem := t.mem, trace := t.trace, rsp := t.rsp } := by
  rcases exec_next run with done | ⟨-, rfl⟩
  · exact completes_adapter done hi
  · rfl

/-- Settles O18: a read that completes stores what was posted and no more, and one that waits stores nothing. -/
theorem readsLeaveTheRestAlone : Obligations.ReadsLeaveTheRestAlone := by
  unfold Obligations.ReadsLeaveTheRestAlone
  intro i a s t form run
  have op : i.op ∈ [Op.rdb, .rdw, .rdl] := by rcases form with rfl | rfl | rfl <;> simp [Instr.op]
  refine ⟨exec_adapter run (List.mem_append_left [Op.wrb, .wrw, .wrl] op), fun n other => ?_, fun hr n => ?_⟩
  · rcases exec_next run with done | ⟨-, rfl⟩
    · rw [completes_read_mem done op, read_storeAll_other _ _ _ other]
    · rw [waiting_mem]
  · rw [exec_rsp_waits run hr, waiting_mem]

/-- Settles O19: a write that completes issues `writesOf`, of which with the FIFO `issueAll_eq` says what is performed. -/
theorem writesLeaveTheRestAlone : Obligations.WritesLeaveTheRestAlone := by
  unfold Obligations.WritesLeaveTheRestAlone
  intro i ws s t form fits run
  have issues : i.op ∈ [Op.wrb, .wrw, .wrl] ∧ ws = writesOf i := by
    rcases form with ⟨a, v, rfl, rfl⟩ | ⟨a, v, rfl, rfl⟩ | ⟨a, v, rfl, rfl⟩ <;> simp [Instr.op, writesOf]
  obtain ⟨op, rfl⟩ := issues
  refine ⟨exec_adapter run (List.mem_append_right [Op.rdb, .rdw, .rdl] op), fun hr => ?_, fun hr => ?_⟩
  · rw [exec_rsp_waits run hr]
    exact ⟨rfl, rfl, fun n => rfl⟩
  · rw [completes_write (exec_took_step run hr) op, issueAll_eq (writesOf i) fits]
    exact ⟨rfl, rfl, fun n other => read_storeAll_other _ _ _ other⟩

end Sys2Proof.Machine
end

section
/-!
PROOFS of the scheduler's statements (41_scheduler.md), what they share: when an operation is refused, who may step and who
waits, and what an operation leaves alone (R160, R163, R164, R167, R172, R198).
-/

namespace Sys2Proof.Machine

/-! ### Refusals of TICK and STEP -/

/-- TICK needs a session (R164, R198 c). -/
theorem exec_tick_refused {s : State} (h : s.sched ≠ .running ∨ s.ctx = none) :
    exec .tick s = .refused .tickNotRunning := by
  simp only [exec, execTick]
  split
  · simp_all
  · rfl

/-- STEP needs a session (R163, R198 c). -/
theorem exec_step_refused {s : State} (h : s.sched ≠ .running ∨ s.ctx = none) (n : Long) :
    exec (.step n) s = .refused .stepNotRunning := by
  simp only [exec, execStep]
  split
  · simp_all
  · rfl

/-- Refusals depend on BOOT, SCHED and CTX alone (R198). -/
theorem exec_refused_congr {i : Instr} {s s' : State} {r : Refusal} (boot : s'.boot = s.boot) (sched : s'.sched = s.sched)
    (ctx : s'.ctx = s.ctx) (h : exec i s = .refused r) : exec i s' = .refused r := by
  rcases exec_refused h with ⟨src, cells, rfl, hb, rfl⟩ | ⟨b, rfl, hb, rfl⟩ | ⟨b, cells, rfl, hb, hv, rfl⟩ |
    ⟨rfl, hn, rfl⟩ | ⟨n, rfl, hn, rfl⟩
  · simp only [exec, execLoad, boot, hb]
  · simp only [exec, execPower, boot, hb]
  · simp only [exec, execPower, boot, hb, hv]
  · exact exec_tick_refused (by rwa [sched, ctx])
  · exact exec_step_refused (by rwa [sched, ctx]) n

/-! ### Who may step -/

/-- C may step while its view does not make it wait and the policy lets it run (R160, R172, R219). -/
theorem enabledC_iff (s : State) : enabledC s = true ↔ waitsC s = false ∧ mayRun .c s = true := by
  simp [enabledC]

/-- M may step while its view does not make it wait and the policy lets it run (R160, R172, R219). -/
theorem enabledM_iff (s : State) : enabledM s = true ↔ waitsM s = false ∧ mayRun .m s = true := by
  simp [enabledM]

/-- While Running C waits exactly while it is ahead of its view of M by more than the quota (R219). -/
theorem waitsC_eq_false_iff {s : State} (hr : s.sched = .running) :
    waitsC s = false ↔ timeC s ≤ viewOfM s + quotaTicks s.cfg := by
  rw [← Bool.not_eq_true, waitsC_iff]
  simp [hr]

/-- While Running M waits exactly while it is ahead of its view of C by more than the quota (R219). -/
theorem waitsM_eq_false_iff {s : State} (hr : s.sched = .running) :
    waitsM s = false ↔ timeM s ≤ viewOfC s + quotaTicks s.cfg := by
  rw [← Bool.not_eq_true, waitsM_iff]
  simp [hr]

/-- While not Running both contexts may step (R130, R167, R251). -/
theorem enabled_of_not_running {s : State} (h : s.sched ≠ .running) : enabledC s = true ∧ enabledM s = true := by
  obtain ⟨-, -, waitsC, waitsM⟩ := notRunning_blocked h
  exact ⟨(enabledC_iff s).mpr ⟨waitsC, (mayRun_iff _ s).mpr (.inl h)⟩,
    (enabledM_iff s).mpr ⟨waitsM, (mayRun_iff _ s).mpr (.inl h)⟩⟩

/-- C's view of M's time is not ahead of it (R219). -/
theorem State.Inv.viewOfM_le {s : State} (h : s.Inv) : viewOfM s ≤ timeM s := by
  unfold viewOfM
  split_ifs
  · exact Nat.le_refl _
  · exact h.viewOfCompanion.notAhead _ List.mem_cons_self

/-- A blocked coprocessor may not step (R160, R219). -/
theorem State.Inv.not_enabledC_of_blockedC {s : State} (h : s.Inv) (blocked : blockedC s = true) : enabledC s = false := by
  rw [enabledC, blockedC_waits h.viewOfM_le blocked]
  rfl

/-! ### Which operations wait -/

/-- A step taken was enabled (R160). -/
theorem completes_enabled {i : Instr} {s t : State} (h : Completes s i t) :
    (i.op ∈ [Op.rdb, .rdw, .rdl, .wrb, .wrw, .wrl, .tick, .step] → enabledC s = true) ∧
      (i.op = .cstep → enabledM s = true) := by
  cases h with
  | rdb _ en | rdw _ en | rdl _ en | wrb _ _ en | wrw _ _ en | wrl _ _ en | tick _ _ _ en | step _ _ _ _ en =>
    exact ⟨fun _ => en, nofun⟩
  | cstep _ en => exact ⟨by simp [Instr.op], fun _ => en⟩
  | load | unloadRunning | unloadIdle | power | excq => exact ⟨by simp [Instr.op], nofun⟩

/-- An operation that waits was not enabled (R160). -/
theorem waits_not_enabled {i : Instr} {s : State} (h : Waits s i) :
    (i.op ∈ [Op.rdb, .rdw, .rdl, .wrb, .wrw, .wrl, .tick, .step] ∧ enabledC s = false) ∨
      (i.op = .cstep ∧ enabledM s = false) := by
  cases h with
  | rdb _ en | rdw _ en | rdl _ en | wrb _ _ en | wrw _ _ en | wrl _ _ en | tick _ _ _ en | step _ _ _ _ en =>
    exact .inl ⟨by simp [Instr.op], en⟩
  | cstep _ en => exact .inr ⟨rfl, en⟩

/-! ### What an operation leaves alone -/

theorem BusOnly.sched {s t : State} (h : BusOnly s t) : t.sched = s.sched := by
  unfold BusOnly at h
  rw [h]

theorem BusOnly.hookOut {s t : State} (h : BusOnly s t) : t.hookOut = s.hookOut := by
  unfold BusOnly at h
  rw [h]

/-- The operations of the scheduler that take their step: EXCQ answers, CSTEP moves M's clock and its views, STEP and TICK the
session of C and the bus, and TICK shows the hook the context (R163, R164, R166, R167). -/
theorem completes_scheduler {i : Instr} {s t : State} (h : Completes s i t) (hi : i.op ∈ [Op.tick, .step, .excq, .cstep]) :
    t =
      { s with
        ctx := if i.op = .tick ∨ i.op = .step then t.ctx else s.ctx
        evq := if i.op = .tick ∨ i.op = .step then t.evq else s.evq
        mem := if i.op = .tick ∨ i.op = .step then t.mem else s.mem
        trace := if i.op = .tick ∨ i.op = .step then t.trace else s.trace
        toM := if i.op = .tick ∨ i.op = .step then t.toM else s.toM
        active := if i.op = .excq then s.active else t.active
        cycM := if i.op = .cstep then t.cycM else s.cycM
        toC := if i.op = .cstep then t.toC else s.toC
        hookOut := if i.op = .tick then t.hookOut else s.hookOut
        rsp := t.rsp } := by
  cases h with
  | tick c =>
    obtain ⟨_, _, _, _, -, ht⟩ := tickWith_eq (Config.execUnit c.pc c.sp c.regs) c s
    rw [ht]
    rfl
  | step n c _ ctx =>
    rw [synchronise_eq ctx]
    rfl
  | excq => rfl
  | cstep n =>
    rw [advanceM_eq]
    rfl
  | _ => simp [Instr.op] at hi

/-- What is no operation of the HOST is one of the adapter or of the scheduler (R102). -/
theorem op_adapter_or_scheduler {o : Op} (h : o ∉ [Op.load, .unload, .power]) :
    o ∈ [Op.rdb, .rdw, .rdl, .wrb, .wrw, .wrl] ∨ o ∈ [Op.tick, .step, .excq, .cstep] := by
  revert h
  cases o <;> decide

/-- Only the operations of the HOST move SCHED (R190). -/
theorem completes_sched {i : Instr} {s t : State} (h : Completes s i t) (hi : i.op ∉ [Op.load, .unload, .power]) :
    t.sched = s.sched := by
  rcases op_adapter_or_scheduler hi with adapter | scheduler
  · rw [completes_adapter h adapter]
  · rw [completes_scheduler h scheduler]

/-- The operations of the HOST leave the parameters, the inputs and what the hook was shown (R191, R193, R194). -/
theorem completes_host {i : Instr} {s t : State} (h : Completes s i t) (hi : i.op ∈ [Op.load, .unload, .power]) :
    t.cfg = s.cfg ∧ t.inputs = s.inputs ∧ t.hookOut = s.hookOut := by
  have drained := progress_drainAll s
  cases h with
  | load => exact ⟨rfl, rfl, rfl⟩
  | unloadRunning | unloadIdle | power => exact ⟨drained.cfg, drained.inputs, drained.hookOut⟩
  | _ => simp [Instr.op] at hi

/-- The parameters and the inputs stay through every operation. -/
theorem completes_cfg_inputs {i : Instr} {s t : State} (h : Completes s i t) : t.cfg = s.cfg ∧ t.inputs = s.inputs := by
  by_cases host : i.op ∈ [Op.load, .unload, .power]
  · obtain ⟨cfg, inputs, -⟩ := completes_host h host
    exact ⟨cfg, inputs⟩
  rcases op_adapter_or_scheduler host with adapter | scheduler
  · rw [completes_adapter h adapter]
    exact ⟨rfl, rfl⟩
  · rw [completes_scheduler h scheduler]
    exact ⟨rfl, rfl⟩

/-- No operation but TICK shows the hook anything (R174). -/
theorem completes_hookOut_of_not_tick {i : Instr} {s t : State} (h : Completes s i t) (hi : i.op ≠ .tick) :
    t.hookOut = s.hookOut := by
  by_cases host : i.op ∈ [Op.load, .unload, .power]
  · obtain ⟨-, -, hookOut⟩ := completes_host h host
    exact hookOut
  rcases op_adapter_or_scheduler host with adapter | scheduler
  · rw [completes_adapter h adapter]
  · rw [completes_scheduler h scheduler]
    exact if_neg hi

end Sys2Proof.Machine
end

section
/-!
PROOFS of the scheduler's statements on ACTIVE and on the skew (41_scheduler.md): when ACTIVE changes (R35, R172), no deadlock
(R170), the bounded skew along every run (R161, R169), and the coprocessor alone (R171).
-/

namespace Sys2Proof.Machine

/-! ### ACTIVE after an operation -/

theorem activeAfter_eq_ite (c : Config) (blocked : Bool) (x : Context) (old : Option Context) :
    activeAfter c blocked x old = if c.policy ≠ .anyEnabled ∧ blocked = true then some x else old := by
  unfold activeAfter
  cases c.policy <;> simp

/-- TICK and STEP hand over if they leave C blocked (R172). -/
theorem completes_active_of_tick_or_step {i : Instr} {s t : State} (h : Completes s i t) (hi : i.op = .tick ∨ i.op = .step) :
    t.active = activeAfter s.cfg (blockedC t) .m s.active := by
  cases h with
  | tick c =>
    obtain ⟨_, _, _, _, -, ht⟩ := tickWith_eq (Config.execUnit c.pc c.sp c.regs) c s
    rw [ht]
    rfl
  | step n c _ ctx =>
    rw [synchronise_eq ctx]
    rfl
  | _ => simp [Instr.op] at hi

/-- CSTEP hands over if it leaves M blocked (R172). -/
theorem completes_active_of_cstep {i : Instr} {s t : State} (h : Completes s i t) (hi : i.op = .cstep) :
    t.active = activeAfter s.cfg (blockedM t) .c s.active := by
  cases h with
  | cstep n =>
    rw [advanceM_eq]
    rfl
  | _ => cases hi

/-- No operation but POWER and the synchronisations moves ACTIVE (R35, R172). -/
theorem completes_active_of_other {i : Instr} {s t : State} (h : Completes s i t)
    (hi : i.op ∉ [Op.power, .tick, .step, .cstep]) : t.active = s.active := by
  have adapter (hi : i.op ∈ [Op.rdb, .rdw, .rdl, .wrb, .wrw, .wrl]) : t.active = s.active := by
    rw [completes_adapter h hi]
  cases h with
  | rdb | rdw | rdl | wrb | wrw | wrl => exact adapter (by simp [Instr.op])
  | load | excq => rfl
  | unloadRunning | unloadIdle => exact (progress_drainAll s).active
  | power | tick | step | cstep => simp [Instr.op] at hi

/-- Settles O37: the three lemmas above, and that waiting leaves ACTIVE. -/
theorem activeChangesOnlyAtSynchronisation : Obligations.ActiveChangesOnlyAtSynchronisation := by
  unfold Obligations.ActiveChangesOnlyAtSynchronisation
  intro i s t run
  rcases exec_next run with done | ⟨wait, rfl⟩
  · have answered : t.rsp ≠ .waits := completes_rsp done
    by_cases power : i.op = .power
    · rw [if_pos power]
      cases done with
      | power => rfl
      | _ => cases power
    by_cases clockC : i.op = .tick ∨ i.op = .step
    · have notM : i.op ≠ .cstep := by rcases clockC with h | h <;> rw [h] <;> nofun
      rw [completes_active_of_tick_or_step done clockC, activeAfter_eq_ite]
      by_cases policy : s.cfg.policy = .anyEnabled <;> simp [power, clockC, notM, answered, policy]
    by_cases clockM : i.op = .cstep
    · rw [completes_active_of_cstep done clockM, activeAfter_eq_ite]
      by_cases policy : s.cfg.policy = .anyEnabled <;> simp [clockM, answered, policy]
    · obtain ⟨tick, step⟩ := not_or.mp clockC
      rw [completes_active_of_other done (by simp [power, tick, step, clockM])]
      simp [power, tick, step, clockM]
  · have power : i.op ≠ .power := by cases wait <;> nofun
    simp [power]

/-! ### The skew in one state -/

/-- A coprocessor that may step is ahead of the companion by the quota at most (R161). -/
theorem State.Inv.timeC_le_of_enabledC {s : State} (h : s.Inv) (hr : s.sched = .running) (en : enabledC s = true) :
    timeC s ≤ timeM s + quotaTicks s.cfg :=
  ((waitsC_eq_false_iff hr).mp (enabledC_waits en)).trans (Nat.add_le_add_right h.viewOfM_le _)

/-- While neither context is blocked the skew is at most the quota (R169 b). -/
theorem skew_of_not_blocked {s : State} (hr : s.sched = .running) (hC : blockedC s = false) (hM : blockedM s = false) :
    timeC s ≤ timeM s + quotaTicks s.cfg ∧ timeM s ≤ timeC s + quotaTicks s.cfg := by
  rw [← Bool.not_eq_true, blockedC_iff] at hC
  rw [← Bool.not_eq_true, blockedM_iff] at hM
  exact ⟨Nat.le_of_not_lt fun ahead => hC ⟨hr, ahead⟩, Nat.le_of_not_lt fun ahead => hM ⟨hr, ahead⟩⟩

/-- Settles O34: with exact views waiting is being blocked, which never both contexts are, and an active context is not. -/
theorem noDeadlockBetweenTheContexts : Obligations.NoDeadlockBetweenTheContexts := by
  unfold Obligations.NoDeadlockBetweenTheContexts
  refine fun s => ⟨not_both_blocked s, fun h hr exact_views => ?_⟩
  obtain ⟨activeC, activeM⟩ := h.activeNotBlocked
  rw [enabledC_iff, enabledM_iff, waitsC_exact exact_views, waitsM_exact exact_views, mayRun_iff, mayRun_iff]
  have activeExists := h.activeExists
  cases policy : s.cfg.policy with
  | anyEnabled =>
    by_cases hC : blockedC s = true
    · exact .inr ⟨Bool.eq_false_iff.mpr fun hM => not_both_blocked s ⟨hC, hM⟩, .inr (.inl rfl)⟩
    · exact .inl ⟨Bool.eq_false_iff.mpr hC, .inr (.inl rfl)⟩
  | coroutine first =>
    rw [firstActive, policy] at activeExists
    obtain ⟨x, hx⟩ := Option.isSome_iff_exists.mp activeExists
    cases x with
    | c => exact .inl ⟨activeC hx, .inr (.inr hx)⟩
    | m => exact .inr ⟨activeM hx, .inr (.inr hx)⟩

/-! ### The skew through an operation -/

theorem State.Inv.ctx_of_running {s : State} (h : s.Inv) (hr : s.sched = .running) : ∃ c, s.ctx = some c := by
  have present : s.ctx.isSome = true := by rw [h.context, isRunning, hr]; rfl
  exact Option.isSome_iff_exists.mp present

/-- An operation that advances C's clock is one that C must be enabled for (R163, R164). -/
theorem enabledC_of_cyclesC {i : Instr} {s t : State} (h : Completes s i t) (hi : cyclesC i ≠ 0) : enabledC s = true := by
  refine (completes_enabled h).1 ?_
  cases i <;> simp_all [cyclesC, Instr.op]

/-- An operation that advances M's clock is one that M must be enabled for (R167). -/
theorem enabledM_of_cyclesM {i : Instr} {s t : State} (h : Completes s i t) (hi : cyclesM i ≠ 0) : enabledM s = true := by
  refine (completes_enabled h).2 ?_
  cases i <;> simp_all [cyclesM, Instr.op]

/-- The two times after an operation that neither starts nor ends the session (R27, R29, R30). -/
theorem completes_times {i : Instr} {s t : State} (h : Completes s i t) (hp : i.op ≠ .power) (hu : i.op ≠ .unload) {c : Ctx}
    (hc : s.ctx = some c) :
    timeC t = timeC s + cyclesC i * periodC s.cfg ∧ timeM t = timeM s + cyclesM i * periodM s.cfg := by
  obtain ⟨c', hc', cycles⟩ := completes_ctx h hp hu hc
  obtain ⟨cfg, -⟩ := completes_cfg_inputs h
  simp only [timeC, timeM, hc, hc', cfg, cycles, completes_cycM h hp, Nat.add_mul, and_self]

/-- POWER starts both clocks at 0 (R194). -/
theorem completes_power_times {i : Instr} {s t : State} (h : Completes s i t) (hi : i.op = .power) :
    timeC t = 0 ∧ timeM t = 0 := by
  cases h with
  | power => exact ⟨Nat.zero_mul _, Nat.zero_mul _⟩
  | _ => cases hi

/-- LOAD and UNLOAD leave no session running (R190). -/
theorem completes_not_running {i : Instr} {s t : State} (h : Completes s i t) (hi : i.op = .load ∨ i.op = .unload) :
    t.sched ≠ .running := by
  cases h with
  | load | unloadRunning => nofun
  | unloadIdle hn => exact (progress_drainAll s).sched ▸ hn
  | _ => simp [Instr.op] at hi

/-- The skew bound through advances of either clock that were enabled, each at most the largest (R169 c). -/
theorem SkewWithin.advance {nC nM kC kM : Nat} {s t : State} (h : SkewWithin nC nM s) (cfg : t.cfg = s.cfg)
    (timeC_eq : timeC t = timeC s + kC * periodC s.cfg) (timeM_eq : timeM t = timeM s + kM * periodM s.cfg)
    (leC : kC ≤ nC) (leM : kM ≤ nM) (aheadC : kC ≠ 0 → timeC s ≤ timeM s + quotaTicks s.cfg)
    (aheadM : kM ≠ 0 → timeM s ≤ timeC s + quotaTicks s.cfg) : SkewWithin nC nM t := by
  obtain ⟨hC, hM⟩ := h
  have stepC : kC * periodC s.cfg ≤ nC * periodC s.cfg := Nat.mul_le_mul_right _ leC
  have stepM : kM * periodM s.cfg ≤ nM * periodM s.cfg := Nat.mul_le_mul_right _ leM
  rw [SkewWithin, cfg, timeC_eq, timeM_eq]
  constructor
  · rcases Nat.eq_zero_or_pos kC with rfl | pos
    · omega
    · have := aheadC pos.ne'
      omega
  · rcases Nat.eq_zero_or_pos kM with rfl | pos
    · omega
    · have := aheadM pos.ne'
      omega

theorem skewWithin_exec {i : Instr} {nC nM : Nat} {s t : State} (h : s.Inv) (run : exec i s = .next t)
    (leC : cyclesC i ≤ nC) (leM : cyclesM i ≤ nM) (skew : s.sched = .running → SkewWithin nC nM s)
    (ht : t.sched = .running) : SkewWithin nC nM t := by
  rcases exec_next run with done | ⟨-, rfl⟩
  · by_cases ends : i.op = .load ∨ i.op = .unload
    · exact absurd ht (completes_not_running done ends)
    by_cases power : i.op = .power
    · obtain ⟨zeroC, zeroM⟩ := completes_power_times done power
      rw [SkewWithin, zeroC, zeroM]
      exact ⟨Nat.zero_le _, Nat.zero_le _⟩
    · obtain ⟨load, unload⟩ := not_or.mp ends
      have hr : s.sched = .running := (completes_sched done (by simp [load, unload, power])).symm.trans ht
      obtain ⟨c, hc⟩ := h.ctx_of_running hr
      obtain ⟨timeC_eq, timeM_eq⟩ := completes_times done power unload hc
      exact (skew hr).advance (completes_cfg_inputs done).1 timeC_eq timeM_eq leC leM
        (fun moves => h.timeC_le_of_enabledC hr (enabledC_of_cyclesC done moves))
        (fun moves => h.timeM_le_of_enabledM hr (enabledM_of_cyclesM done moves))
  · exact skew ht

/-! ### The skew along a run -/

/-- What bounds the skew along a run: the invariant, the size of every advance still asked for, and the bound itself. -/
structure SkewInv (nC nM : Nat) (s : State) : Prop where
  inv : s.Inv
  advances : AdvancesWithin nC nM s
  skew : s.sched = .running → SkewWithin nC nM s

theorem AdvancesWithin.of_subset {nC nM : Nat} {s t : State} (h : AdvancesWithin nC nM s) (sub : t.inputs ⊆ s.inputs) :
    AdvancesWithin nC nM t :=
  fun x hx => h x (sub hx)

theorem takeFirst_subset {a : Agent} {xs rest : List Input} {x : Input} (h : takeFirst a xs = some (x, rest)) :
    x ∈ xs ∧ rest ⊆ xs := by
  obtain ⟨before, after, rfl, rfl, -, -⟩ := takeFirst_some h
  exact ⟨by simp, by simp⟩

theorem exec_inputs {i : Instr} {s t : State} (run : exec i s = .next t) : t.inputs = s.inputs := by
  rcases exec_next run with done | ⟨-, rfl⟩
  · exact (completes_cfg_inputs done).2
  · rfl

/-- A step asks for nothing new (R220). -/
theorem goes_inputs_subset {s t : State} (g : Goes s t) : t.inputs ⊆ s.inputs := by
  cases g with
  | drain later =>
    rw [(progress_drainOne { s with turns := later }).inputs]
    exact List.Subset.refl _
  | command _ later _ rest _ u _ first _ run =>
    have hu : u.inputs = s.inputs := exec_inputs (s := { s with turns := later }) run
    split_ifs
    · rw [hu]
      exact List.Subset.refl _
    · exact (takeFirst_subset first).2
  | companionWrite _ _ _ _ _ first | companionRead _ _ _ _ _ first | hook _ _ _ _ _ first =>
    exact (takeFirst_subset first).2
  | noTurn | deliverToC | deliverToM | nothingAsked | companionWaits => exact List.Subset.refl _

/-- Of the turns only one that takes a command moves a clock (R27, R29). -/
theorem SkewInv.goes {nC nM : Nat} {s t : State} (h : SkewInv nC nM s) (g : Goes s t) : SkewInv nC nM t := by
  refine ⟨inv_goes h.inv g, h.advances.of_subset (goes_inputs_subset g), ?_⟩
  cases g with
  | drain later =>
    have p := progress_drainOne { s with turns := later }
    rw [p.sched, SkewWithin, timeC_congr p.ctx p.cfg, p.cfg, timeM, p.cycM, p.cfg]
    exact h.skew
  | command _ later c rest i u _ first ok run =>
    obtain ⟨leC, leM⟩ := h.advances _ (takeFirst_subset first).1 c i rfl ok
    have hu : u.sched = .running → SkewWithin nC nM u := skewWithin_exec (inv_turns h.inv later) run leC leM h.skew
    split_ifs <;> exact hu
  | _ => exact h.skew

/-- Settles O35: a context that advances was enabled and so at most the quota ahead, and `SkewInv` is kept along the run. -/
theorem skewIsBounded : Obligations.SkewIsBounded := by
  unfold Obligations.SkewIsBounded
  refine ⟨fun s h hr => ⟨h.timeC_le_of_enabledC hr, h.timeM_le_of_enabledM hr, skew_of_not_blocked hr⟩, ?_⟩
  intro k nC nM s t inv advances skew run
  have kept : SkewInv nC nM t := run.keeps (fun _ _ h first => h.goes (step_next first)) ⟨inv, advances, skew⟩
  exact kept.skew

/-! ### The coprocessor alone -/

/-- TICK in a state in which C may step: one period later, on the same companion time, and C stays the active context if it
is not blocked (R164, R172). -/
theorem exec_tick_enabled {s : State} (hr : s.sched = .running) (hc : s.ctx ≠ none) (en : enabledC s = true) :
    ∃ t, exec .tick s = .next t ∧ t.cfg = s.cfg ∧ t.sched = .running ∧ t.ctx ≠ none ∧
      timeC t = timeC s + periodC s.cfg ∧ timeM t = timeM s ∧ (blockedC t = false → t.active = s.active) := by
  obtain ⟨c, ctx⟩ := Option.ne_none_iff_exists'.mp hc
  have done := Completes.tick c hr ctx en
  obtain ⟨timeC_eq, timeM_eq⟩ := completes_times done nofun nofun ctx
  obtain ⟨c', ctx', -⟩ := completes_ctx done nofun nofun ctx
  refine ⟨_, exec_completes done, (completes_cfg_inputs done).1, (completes_sched done (by simp [Instr.op])).trans hr,
    by rw [ctx']; nofun, by simpa [cyclesC] using timeC_eq, by simpa [cyclesM] using timeM_eq, fun free => ?_⟩
  rw [completes_active_of_tick_or_step done (.inl rfl), activeAfter_eq_ite, free]
  simp

/-- A row of executions from its first one. -/
theorem execTimes_of_next {i : Instr} {s u : State} (run : exec i s = .next u) (k : Nat) :
    execTimes i (k + 1) s = execTimes i k u := by
  rw [execTimes, run]

/-- One more execution at the end of a row of them. -/
theorem execTimes_succ_of_next {i : Instr} {k : Nat} {s t u : State} (h : execTimes i k s = .next t)
    (run : exec i t = .next u) : execTimes i (k + 1) s = .next u := by
  induction k generalizing s with
  | zero =>
    cases h
    exact execTimes_of_next run 0
  | succ k ih =>
    cases first : exec i s with
    | next v =>
      rw [execTimes_of_next first] at h ⊢
      exact ih h
    | fault r => exact nomatch r
    | refused r => rw [execTimes, first] at h; cases h

/-- A Running state whose companion stands still at the given time, in which C is the context that may run. -/
structure LoneC (cfg : Config) (companion : Nat) (s : State) : Prop where
  cfg : s.cfg = cfg
  running : s.sched = .running
  context : s.ctx ≠ none
  mayRun : mayRun .c s = true
  timeM : timeM s = companion

namespace LoneC

variable {cfg : Config} {companion : Nat} {s : State}

theorem blockedC_iff (h : LoneC cfg companion s) : blockedC s = true ↔ timeC s > companion + quotaTicks cfg := by
  rw [Machine.blockedC_iff, h.timeM, h.cfg]
  simp [h.running]

theorem blockedC_eq_false_iff (h : LoneC cfg companion s) :
    blockedC s = false ↔ timeC s ≤ companion + quotaTicks cfg := by
  rw [← Bool.not_eq_true, h.blockedC_iff, Nat.not_lt]

/-- With exact views C may step exactly while it is not blocked (R160, R219). -/
theorem enabledC_eq (h : LoneC cfg companion s) (exact_views : cfg.syncDepth = 0) : enabledC s = !blockedC s := by
  rw [enabledC, waitsC_exact (h.cfg ▸ exact_views), h.mayRun, Bool.and_true]

/-- A TICK of an unblocked C that leaves it unblocked. -/
theorem tick (h : LoneC cfg companion s) (exact_views : cfg.syncDepth = 0)
    (room : timeC s + periodC cfg ≤ companion + quotaTicks cfg) :
    ∃ t, exec .tick s = .next t ∧ LoneC cfg companion t ∧ timeC t = timeC s + periodC cfg := by
  have free : blockedC s = false := h.blockedC_eq_false_iff.mpr (by omega)
  obtain ⟨t, run, cfg_eq, running, context, timeC_eq, timeM_eq, active⟩ :=
    exec_tick_enabled h.running h.context (by rw [h.enabledC_eq exact_views, free]; rfl)
  rw [h.cfg] at cfg_eq timeC_eq
  rw [h.timeM] at timeM_eq
  have free' : blockedC t = false := by
    rw [← Bool.not_eq_true, Machine.blockedC_iff, timeC_eq, timeM_eq, cfg_eq]
    omega
  refine ⟨t, run, ⟨cfg_eq, running, context, ?_, timeM_eq⟩, timeC_eq⟩
  have may := h.mayRun
  rw [mayRun_iff, h.cfg] at may
  rw [mayRun_iff, cfg_eq, active free', running]
  rwa [h.running] at may

/-- So many TICKs, as long as they leave C unblocked. -/
theorem ticks (h : LoneC cfg companion s) (exact_views : cfg.syncDepth = 0) (k : Nat)
    (room : timeC s + k * periodC cfg ≤ companion + quotaTicks cfg) :
    ∃ t, execTimes .tick k s = .next t ∧ LoneC cfg companion t ∧ timeC t = timeC s + k * periodC cfg := by
  induction k generalizing s with
  | zero => exact ⟨s, rfl, h, by simp⟩
  | succ k ih =>
    rw [Nat.succ_mul] at room ⊢
    obtain ⟨u, run, hu, timeC_u⟩ := h.tick exact_views (by omega)
    obtain ⟨t, runs, ht, timeC_t⟩ := ih hu (by omega)
    exact ⟨t, (execTimes_of_next run k).trans runs, ht, by omega⟩

end LoneC

/-- Settles O36: by induction on the TICKs that fit into the quota, and one TICK more. -/
theorem loneCoprocessorBlocks : Obligations.LoneCoprocessorBlocks := by
  unfold Obligations.LoneCoprocessorBlocks
  intro s wf exact_views running context mayRun same
  obtain ⟨-, freqM, -⟩ := (Config.wf_iff s.cfg).mp wf
  have lone : LoneC s.cfg (timeM s) s := ⟨rfl, running, context, mayRun, rfl⟩
  have fits (k : Nat) (hk : k ≤ quotaTicks s.cfg / periodC s.cfg) :
      timeC s + k * periodC s.cfg ≤ timeM s + quotaTicks s.cfg := by
    have := (Nat.le_div_iff_mul_le (periodC_pos freqM)).mp hk
    omega
  constructor
  · intro k hk
    obtain ⟨t, runs, ht, timeC_t⟩ := lone.ticks exact_views k (fits k hk)
    exact ⟨t, runs, ht.blockedC_eq_false_iff.mpr (timeC_t ▸ fits k hk), timeC_t⟩
  · obtain ⟨u, runs, hu, timeC_u⟩ := lone.ticks exact_views _ (fits _ (Nat.le_refl _))
    have free : blockedC u = false := hu.blockedC_eq_false_iff.mpr (timeC_u ▸ fits _ (Nat.le_refl _))
    obtain ⟨t, run, cfg, running', context', timeC_t, timeM_t, -⟩ :=
      exec_tick_enabled hu.running hu.context (by rw [hu.enabledC_eq exact_views, free]; rfl)
    rw [hu.cfg] at cfg timeC_t
    have beyond : quotaTicks s.cfg < periodC s.cfg * (quotaTicks s.cfg / periodC s.cfg + 1) :=
      Nat.lt_mul_div_succ _ (periodC_pos freqM)
    have blocked : blockedC t = true := by
      refine (blockedC_iff t).mpr ⟨running', ?_⟩
      rw [Nat.mul_comm, Nat.succ_mul] at beyond
      rw [timeC_t, timeC_u, timeM_t, hu.timeM, cfg]
      omega
    obtain ⟨c, ctx⟩ := Option.ne_none_iff_exists'.mp context'
    have waits : enabledC t = false := by rw [enabledC, waitsC_exact (cfg ▸ exact_views), blocked]; rfl
    exact ⟨t, execTimes_succ_of_next runs run, blocked, exec_waits (.tick c running' ctx waits)⟩

end Sys2Proof.Machine
end

section
/-!
PROOFS of the hook's statements (41_scheduler.md): a state and the same state without the hook make the same step (R174,
R250), and the hook is shown the context once by each TICK (R164, R174).
-/

namespace Sys2Proof.Machine

/-! ### What C does on the bus is the same without the hook -/

theorem sameBus_withoutHook (s : State) : SameBus s (withoutHook s) := ⟨rfl, rfl, rfl, rfl, rfl, rfl⟩

/-- Two states that differ in the hook alone, after the same moves on the bus, still differ in the hook alone. -/
theorem BusOnly.withoutHook_eq {s t t' : State} (h : BusOnly s t) (h' : BusOnly (withoutHook s) t') (same : SameBus t t') :
    t' = withoutHook t := by
  unfold BusOnly at h h'
  rw [h', same.evq, same.mem, same.trace, h]
  rfl

theorem drainAll_withoutHook (s : State) : drainAll (withoutHook s) = withoutHook (drainAll s) :=
  (progress_drainAll s).frame.withoutHook_eq (progress_drainAll _).frame (sameBus_withoutHook s).drainAll

theorem drainOne_withoutHook (s : State) : drainOne (withoutHook s) = withoutHook (drainOne s) :=
  (progress_drainOne s).frame.withoutHook_eq (progress_drainOne _).frame (sameBus_withoutHook s).drainOne

theorem memRead_withoutHook (w : Width) (a : Addr) (s : State) :
    memRead w a (withoutHook s) = (withoutHook (memRead w a s).1, (memRead w a s).2) := by
  obtain ⟨same, answer⟩ := (sameBus_withoutHook s).memRead w a
  exact Prod.ext ((progress_memRead w a s).frame.withoutHook_eq (progress_memRead w a _).frame same) answer

theorem memWrite_withoutHook (w : Width) (a : Addr) (v : Long) (s : State) :
    memWrite w a v (withoutHook s) = withoutHook (memWrite w a v s) :=
  (busOnly_memWrite w a v s).withoutHook_eq (busOnly_memWrite w a v _) ((sameBus_withoutHook s).memWrite w a v)

theorem issueWrite_withoutHook (w : Posted) (s : State) : issueWrite w (withoutHook s) = withoutHook (issueWrite w s) :=
  (busOnly_issueWrite w s).withoutHook_eq (busOnly_issueWrite w _) ((sameBus_withoutHook s).issueWrite w)

theorem runProg_withoutHook (p : Prog) (s : State) :
    runProg p (withoutHook s) = (withoutHook (runProg p s).1, (runProg p s).2) := by
  obtain ⟨same, final⟩ := (sameBus_withoutHook s).runProg p
  exact Prod.ext ((busOnly_runProg p s).withoutHook_eq (busOnly_runProg p _) same) final

/-! ### Every operation is the same without the hook -/

theorem synchronise_withoutHook {s : State} {c : Ctx} (hc : s.ctx = some c) (n : Nat) :
    synchronise n (withoutHook s) = withoutHook (synchronise n s) := by
  rw [synchronise_eq hc, synchronise_eq (s := withoutHook s) hc]
  rfl

/-- Without the hook nothing is shown, and showing the context is all that the hook adds (R174). -/
theorem notifyHook_withoutHook (c : Ctx) (s : State) : notifyHook c (withoutHook s) = withoutHook (notifyHook c s) := by
  rw [notifyHook_eq, notifyHook_eq]
  rfl

theorem tickWith_withoutHook (p : Prog) (c : Ctx) (s : State) :
    tickWith p c (withoutHook s) = withoutHook (tickWith p c s) := by
  simp only [tickWith, notifyHook_withoutHook, runProg_withoutHook]
  exact synchronise_withoutHook (s := { (runProg p (notifyHook c s)).1 with ctx := some _ }) rfl 1

/-- An operation that takes its step takes it without the hook too. -/
theorem completes_withoutHook {i : Instr} {s t : State} (h : Completes s i t) :
    Completes (withoutHook s) i (withoutHook t) := by
  have reach {u : State} (done : Completes (withoutHook s) i u) (same : u = withoutHook t) :
      Completes (withoutHook s) i (withoutHook t) := same ▸ done
  have read (w : Width) (a : Addr) (answer : BitVec w.bits → Response) :
      (memRead w a (withoutHook s)).1.answer (answer (memRead w a (withoutHook s)).2) =
        withoutHook ((memRead w a s).1.answer (answer (memRead w a s).2)) := by rw [memRead_withoutHook]; rfl
  have write {u u' : State} (same : u' = withoutHook u) : u'.answer .none = withoutHook (u.answer .none) := by rw [same]; rfl
  have drained := drainAll_withoutHook s
  cases h with
  | rdb a en => exact reach (.rdb a en) (read .byte a .byte)
  | rdw a en => exact reach (.rdw a en) (read .word a .word)
  | rdl a en => exact reach (.rdl a en) (read .long a .long)
  | wrb a v en => exact reach (.wrb a v en) (write (issueWrite_withoutHook _ s))
  | wrw a v en => exact reach (.wrw a v en) (write (issueWrite_withoutHook _ s))
  | wrl a v en => exact reach (.wrl a v en) (write (memWrite_withoutHook .long a v s))
  | load src absent => exact .load src absent
  | unloadRunning hr => exact reach (.unloadRunning hr) (by rw [drained]; rfl)
  | unloadIdle hn => exact reach (.unloadIdle hn) (by rw [drained]; rfl)
  | power r cells pc sp boot vector => exact reach (.power r cells pc sp boot vector) (by rw [drained]; rfl)
  | tick c hr hc en => exact reach (.tick c hr hc en) (write (tickWith_withoutHook _ c s))
  | step n c hr hc en => exact reach (.step n c hr hc en) (write (synchronise_withoutHook hc _))
  | excq => exact .excq
  | cstep n en => exact reach (.cstep n en) (write (by rw [advanceM_eq, advanceM_eq]; rfl))

theorem waits_withoutHook {i : Instr} {s : State} (h : Waits s i) : Waits (withoutHook s) i := by
  cases h with
  | rdb a en => exact .rdb a en
  | rdw a en => exact .rdw a en
  | rdl a en => exact .rdl a en
  | wrb a v en => exact .wrb a v en
  | wrw a v en => exact .wrw a v en
  | wrl a v en => exact .wrl a v en
  | tick c hr hc en => exact .tick c hr hc en
  | step n c hr hc en => exact .step n c hr hc en
  | cstep n en => exact .cstep n en

theorem exec_withoutHook (i : Instr) (s : State) : exec i (withoutHook s) = mapNext withoutHook (exec i s) := by
  cases run : exec i s with
  | next t =>
    rcases exec_next run with done | ⟨wait, rfl⟩
    · exact exec_completes (completes_withoutHook done)
    · exact exec_waits (waits_withoutHook wait)
  | fault r => exact nomatch r
  | refused r => exact exec_refused_congr (s := s) rfl rfl rfl run

/-! ### Every turn is the same without the hook -/

theorem mapNext_withoutHook_idem (o : Host.Outcome State Fault Refusal) :
    mapNext withoutHook (mapNext withoutHook o) = mapNext withoutHook o := by
  cases o <;> rfl

theorem companionBus_withoutHook (b : BusTxn) (s : State) :
    companionBus b (withoutHook s) = withoutHook (companionBus b s) := by
  have enabled : enabledM (withoutHook s) = enabledM s := rfl
  unfold companionBus
  rw [enabled]
  split_ifs <;> rfl

/-- What an input does is the same without the hook; a request to attach the hook sets what is not compared (R174, R197). -/
theorem carryOut_withoutHook (x : Input) (s : State) :
    mapNext withoutHook (carryOut x (withoutHook s)) = mapNext withoutHook (carryOut x s) := by
  cases x with
  | command c =>
    cases ok : decode c with
    | ok i => simp only [carryOut, ok, exec_withoutHook, mapNext_withoutHook_idem]
    | error e => simp only [carryOut, ok]
  | companionBus b =>
    simp only [carryOut, companionBus_withoutHook]
    rfl
  | hook attach => rfl

/-- Settling an input looks at the answer alone. -/
theorem settle_withoutHook (rest : List Input) (o : Host.Outcome State Fault Refusal) :
    mapNext withoutHook (settle rest o) = settle rest (mapNext withoutHook o) := by
  cases o with
  | next t =>
    simp only [settle, mapNext]
    rw [apply_ite withoutHook]
    rfl
  | fault r => rfl
  | refused r => rfl

theorem takeTurn_withoutHook (t : Turn) (s : State) :
    mapNext withoutHook (takeTurn t (withoutHook s)) = mapNext withoutHook (takeTurn t s) := by
  cases t with
  | agent a =>
    have inputs : (withoutHook s).inputs = s.inputs := rfl
    simp only [takeTurn, agentTurn, inputs]
    cases takeFirst a s.inputs with
    | none => rfl
    | some taken =>
      obtain ⟨x, rest⟩ := taken
      simp only [settle_withoutHook, carryOut_withoutHook]
  | drain =>
    simp only [takeTurn, drainOne_withoutHook]
    rfl
  | deliverToC => rfl
  | deliverToM => rfl

/-- Settles O42: turn by turn, down to the operations, which do the same on the bus and to the clocks. -/
theorem hookHasNoEffect : Obligations.HookHasNoEffect := by
  unfold Obligations.HookHasNoEffect
  intro s
  cases turns : s.turns with
  | nil =>
    have turns' : (withoutHook s).turns = [] := turns
    simp only [step, turns, turns']
    rfl
  | cons t later =>
    have turns' : (withoutHook s).turns = t :: later := turns
    simp only [step, turns, turns']
    exact (takeTurn_withoutHook t { s with turns := later }).symm

/-! ### What the hook is shown -/

/-- A TICK that takes its step shows the hook the context (R174). -/
theorem tickWith_hookOut (p : Prog) (c : Ctx) (s : State) :
    (tickWith p c s).hookOut = s.hookOut ++ if s.hookAttached then [c] else [] := by
  obtain ⟨_, _, _, _, -, ht⟩ := tickWith_eq p c s
  rw [ht]

/-- Settles O43: what TICK shows, that no other operation shows anything, and that waiting shows nothing. -/
theorem hookFiresOncePerTick : Obligations.HookFiresOncePerTick := by
  unfold Obligations.HookFiresOncePerTick
  intro i s t run
  rcases exec_next run with done | ⟨-, rfl⟩
  · have answered : t.rsp ≠ .waits := completes_rsp done
    by_cases tick : i.op = .tick
    · cases done with
      | tick c _ ctx =>
        rw [answer_hookOut, tickWith_hookOut, ctx]
        cases s.hookAttached <;> simp [tick]
      | _ => cases tick
    · rw [completes_hookOut_of_not_tick done tick]
      simp [tick]
  · simp

end Sys2Proof.Machine
end

section
/-!
PROOFS of the scheduler's results (41_scheduler.md): the companion's transactions (R173), STEP, TICK, `Run`, EXCQ and CSTEP with
where they wait and are refused (R160, R163 to R168), and the frame of the four operations.
-/

namespace Sys2Proof.Machine

/-! ### The companion's own transactions -/

/-- The turn of M that takes a transaction of the companion's own. -/
theorem step_companionBus {s : State} {a : Agent} {later : List Turn} {b : BusTxn} {rest : List Input}
    (turn : s.turns = .agent a :: later) (first : takeFirst a s.inputs = some (.companionBus b, rest)) :
    step s = settle rest (.next (companionBus b { s with turns := later })) := by
  simp only [step, turn, takeTurn, agentTurn, first, carryOut]

theorem companionBus_write {s : State} {b : BusTxn} (en : enabledM s = true) (hw : b.write = true) :
    companionBus b s =
      { s with
        mem := storageAfter s.cfg s.mem { b with addr := cellAddr b.addr }
        trace := s.trace ++ [⟨.m, { b with addr := cellAddr b.addr }⟩]
        rsp := .none } := by
  rw [companionBus, if_pos en, if_pos hw]
  rfl

theorem companionBus_read {s : State} {b : BusTxn} (en : enabledM s = true) (hw : b.write = false) :
    companionBus b s =
      { s with
        trace := s.trace ++ [⟨.m, readTxn b.upper b.lower (cellAddr b.addr)⟩]
        rsp := .companion (busAnswer s (readTxn b.upper b.lower (cellAddr b.addr))) } := by
  simp only [companionBus, en, hw, if_true, Bool.false_eq_true, if_false]
  rfl

theorem companionBus_waits {s : State} {b : BusTxn} (en : enabledM s = false) : companionBus b s = s.waiting := by
  simp only [companionBus, en, Bool.false_eq_true, if_false]

/-- What a read is answered, lane by lane (R62, R64, R72). -/
theorem busAnswer_lanes (s : State) (t : BusTxn) :
    busAnswer s t =
      if isDevice s.cfg t.addr then Config.deviceAnswer s.trace t
      else (if t.upper = true ∨ s.cfg.wholeCells = true then s.mem.read t.addr.toNat
          else upperLane (Config.unselectedLanes s.trace t)) ++
        if t.lower = true ∨ s.cfg.wholeCells = true then s.mem.read (t.addr.toNat + 1)
        else lowerLane (Config.unselectedLanes s.trace t) := by
  rw [busAnswer, storageAnswer, Memory.cell, upperLane_joinBytes, lowerLane_joinBytes]
  simp only [Bool.or_eq_true]
  rfl

/-- Settles O21: the three cases of `companionBus`, with the masked address and the lanes of the answer in numbers. -/
theorem companionBusResult : Obligations.CompanionBusResult := by
  unfold Obligations.CompanionBusResult
  intro s later asked rest b free turn first
  have masked : b = { asked with addr := cellAddr asked.addr } := by simp only [b, cellAddr_num]
  rw [step_companionBus turn first]
  refine ⟨fun en (hw : asked.write = true) => ?_, fun en (hw : asked.write = false) => ?_, fun en => ?_⟩
  · rw [companionBus_write (s := { s with turns := later }) en hw, settle_took_step (by simp), masked]
  · have asRead : ({ b with data := 0 } : BusTxn) = readTxn asked.upper asked.lower (cellAddr asked.addr) := by
      rw [readTxn, ← hw, masked]
    rw [companionBus_read (s := { s with turns := later }) en hw, settle_took_step (by simp), ← asRead, busAnswer_lanes,
      upperLane_num, lowerLane_num]
  · rw [companionBus_waits (s := { s with turns := later }) en, settle_waits rfl]
    rfl

/-! ### STEP and CSTEP -/

/-- While Running, whether C is blocked is a comparison of the times (R31). -/
theorem blockedC_of_running {s : State} (hr : s.sched = .running) :
    blockedC s = decide (timeC s > timeM s + quotaTicks s.cfg) := by
  simp [blockedC, isRunning, hr]

/-- Settles O28: `synchronise_eq` gives the state, and the hand-over compares C's time after the advance. -/
theorem stepResult : Obligations.StepResult := by
  unfold Obligations.StepResult
  intro n a src s
  refine ⟨decode_numbered (op := 0xC) (by omega) rfl a n src, fun c hr hc en => ?_, fun hr hc en => ?_, fun hn => ?_⟩
  · have blocked : blockedC { s with ctx := some { c with cycC := c.cycC + n.toNat } } =
        decide ((c.cycC + n.toNat) * periodC s.cfg > timeM s + quotaTicks s.cfg) := blockedC_of_running hr
    rw [exec_completes (.step n c hr hc en), synchronise_eq hc, activeAfter_eq_ite, blocked]
    simp only [show n.toNat = 0 ↔ n = 0 from BitVec.toNat_inj (y := 0)]
    rfl
  · obtain ⟨c, hc⟩ := Option.ne_none_iff_exists'.mp hc
    exact exec_waits (.step n c hr hc en)
  · exact exec_step_refused (.inl hn) n

/-- Settles O32: `advanceM_eq` gives the state, and the hand-over compares M's time after the advance. -/
theorem companionStepResult : Obligations.CompanionStepResult := by
  unfold Obligations.CompanionStepResult
  intro n a src s
  refine ⟨decode_numbered (op := 0xE) (by omega) rfl a n src, fun en => ?_, fun en => exec_waits (.cstep n en)⟩
  rw [exec_completes (.cstep n en), advanceM_eq, activeAfter_eq_ite]
  simp only [show n.toNat = 0 ↔ n = 0 from BitVec.toNat_inj (y := 0)]
  rfl

/-- Settles O31: EXCQ answers EXC_PENDING, which is the constant 0 (R32). -/
theorem exceptionQueryAnswersZero : Obligations.ExceptionQueryAnswersZero := by
  unfold Obligations.ExceptionQueryAnswersZero
  exact fun a d src s => ⟨decode_numbered (op := 0xD) (by omega) rfl a d src, exec_completes .excq⟩

/-! ### TICK -/

/-- C may step after its instruction as before it: the instruction and the hook move neither clock, ACTIVE nor the views. -/
theorem enabledC_after_instruction {s u : State} {c : Ctx} (hc : s.ctx = some c) (h : BusOnly (notifyHook c s) u)
    (f : Final) : enabledC { u with ctx := some ⟨f.pc, f.sp, f.regs, c.cycC⟩ } = enabledC s := by
  unfold BusOnly at h
  have time : timeC { s with ctx := some ⟨f.pc, f.sp, f.regs, c.cycC⟩ } = timeC s := by simp only [timeC, hc]
  have same : enabledC { s with ctx := some ⟨f.pc, f.sp, f.regs, c.cycC⟩ } = enabledC s := by
    simp only [enabledC, waitsC, time]
    rfl
  rw [h, notifyHook_eq]
  exact same

/-- Settles O29: the body of TICK is the synchronisation of STEP 1, from a state in which C may step. -/
theorem tickResult : Obligations.TickResult := by
  unfold Obligations.TickResult
  intro a d src s
  refine ⟨decode_numbered (op := 0xB) (by omega) rfl a d src, fun c hr hc en => ?_, fun hr hc en => ?_, fun hn => ?_⟩
  · intro shown ran after
    have isShown : notifyHook c s = shown := notifyHook_eq c s
    have bus : BusOnly shown ran.1 := busOnly_runProg _ shown
    have running : after.sched = .running := bus.sched.trans hr
    have en' : enabledC after = true := (enabledC_after_instruction hc (isShown ▸ bus) ran.2).trans en
    have tick : exec .tick s = .next ((synchronise 1 after).answer .none) := by
      rw [exec_completes (.tick c hr hc en), tickWith, isShown]
    refine ⟨tick.trans (exec_completes (.step 1 _ running rfl en')).symm, _, tick, ?_⟩
    rw [synchronise_eq (s := after) rfl]
    exact ⟨rfl, rfl, bus.hookOut, rfl⟩
  · obtain ⟨c, hc⟩ := Option.ne_none_iff_exists'.mp hc
    exact exec_waits (.tick c hr hc en)
  · exact exec_tick_refused (.inl hn)

/-! ### `Run` -/

/-- An access is the adapter operation with the answer field put back. -/
theorem BusOnly.restore_rsp {s u : State} (h : BusOnly s u) (r : Response) :
    { u.answer r with rsp := s.rsp } = u := by
  unfold BusOnly at h
  rw [h]
  rfl

/-- What a read of an instruction does is what the read operation does (R165). -/
theorem runProg_read_as {s : State} {w : Width} {a : Addr} {i : Instr} {answer : BitVec w.bits → Response}
    (run : exec i s = .next ((memRead w a s).1.answer (answer (memRead w a s).2))) (k : BitVec w.bits → Prog) :
    ∃ t v, exec i s = .next t ∧ t.rsp = answer v ∧
      runProg (.read w a k) s = runProg (k v) { t with rsp := s.rsp } :=
  ⟨_, (memRead w a s).2, run, rfl, by rw [(progress_memRead w a s).frame.restore_rsp, runProg_read]⟩

/-- What a write of an instruction does is what the write operation does (R165). -/
theorem runProg_write_as {s : State} {w : Width} {a : Addr} {v : Long} {i : Instr}
    (run : exec i s = .next ((memWrite w a v s).answer .none)) (k : Prog) :
    ∃ t, exec i s = .next t ∧ runProg (.write w a v k) s = runProg k { t with rsp := s.rsp } :=
  ⟨_, run, by rw [(busOnly_memWrite w a v s).restore_rsp, runProg_write]⟩

/-- Settles O30: each access is that of the adapter operation, and by induction an instruction depends on the bus alone. -/
theorem instructionReachesOnlyTheBus : Obligations.InstructionReachesOnlyTheBus := by
  unfold Obligations.InstructionReachesOnlyTheBus
  refine ⟨runProg_done, runProg_excq, fun a s en => ⟨?_, ?_, ?_, fun v k => ⟨?_, ?_, ?_⟩⟩,
    fun p s s' => ⟨busOnly_runProg p s, ?_⟩⟩
  · exact runProg_read_as (w := .byte) (answer := .byte) (exec_completes (.rdb a en))
  · exact runProg_read_as (w := .word) (answer := .word) (exec_completes (.rdw a en))
  · exact runProg_read_as (w := .long) (answer := .long) (exec_completes (.rdl a en))
  · have operand : BitVec.ofNat 8 (v.toNat % 256) = byteOf v := (extractLsb'_zero_eq_ofNat 8 v).symm
    rw [operand]
    exact runProg_write_as (w := .byte) (exec_completes (.wrb a (byteOf v) en)) k
  · have operand : BitVec.ofNat 16 (v.toNat % 65536) = lowWord v := (extractLsb'_zero_eq_ofNat 16 v).symm
    rw [operand]
    exact runProg_write_as (w := .word) (exec_completes (.wrw a (lowWord v) en)) k
  · exact runProg_write_as (w := .long) (exec_completes (.wrl a v en)) k
  · intro cfg evq mem trace
    have same : SameBus s s' := ⟨by rw [cfg], by rw [cfg], by rw [cfg], evq, mem, trace⟩
    obtain ⟨same', final⟩ := same.runProg p
    exact ⟨final, same'.evq, same'.mem, same'.trace⟩

/-! ### Waiting and release -/

/-- Settles O33: a step taken was enabled and one that waits was not, and the predicates are comparisons of the times. -/
theorem operationsWaitWhileNotEnabled : Obligations.OperationsWaitWhileNotEnabled := by
  unfold Obligations.OperationsWaitWhileNotEnabled
  refine ⟨fun i s t run => ⟨?_, exec_rsp_waits run⟩, fun s exact_views policy => ?_, fun s => enabled_of_not_running,
    fun s hr => ?_, fun s => ⟨blockedC_iff s, blockedM_iff s⟩⟩
  · rcases exec_next run with done | ⟨wait, rfl⟩
    · obtain ⟨ofC, ofM⟩ := completes_enabled done
      refine iff_of_false (completes_rsp done) ?_
      rintro (⟨op, en⟩ | ⟨op, en⟩)
      · simp [ofC op] at en
      · simp [ofM op] at en
    · exact iff_of_true rfl (waits_not_enabled wait)
  · have either (x : Context) : mayRun x s = true := (mayRun_iff x s).mpr (.inr (.inl policy))
    rw [enabledC, enabledM, waitsC_exact exact_views, waitsM_exact exact_views, either, either, Bool.and_true, Bool.and_true]
    exact ⟨rfl, rfl⟩
  · rw [enabledC_iff, enabledM_iff, waitsC_eq_false_iff hr, waitsM_eq_false_iff hr, mayRun_iff, mayRun_iff]
    simp only [hr, ne_eq, not_true_eq_false, false_or]
    exact ⟨Iff.rfl, Iff.rfl⟩

/-- Settles O40: of the other operations those of C wait while C is blocked, EXCQ moves no clock, and LOAD is refused. -/
theorem onlyTheOthersReleaseTheCoprocessor : Obligations.OnlyTheOthersReleaseTheCoprocessor := by
  unfold Obligations.OnlyTheOthersReleaseTheCoprocessor
  intro i s t h run blocked released
  have stuck : enabledC s ≠ true := by simp [h.not_enabledC_of_blockedC blocked]
  have still (same : blockedC t = blockedC s) : False := by simp [same, blocked] at released
  rcases exec_next run with done | ⟨-, rfl⟩
  · cases done with
    | rdb _ en | rdw _ en | rdl _ en | wrb _ _ en | wrw _ _ en | wrl _ _ en | tick _ _ _ en | step _ _ _ _ en =>
      exact absurd en stuck
    | load src absent =>
      have loaded := h.runningLoaded ((blockedC_iff s).mp blocked).1
      simp [absent] at loaded
    | excq => exact (still rfl).elim
    | cstep => exact .inl rfl
    | power => exact .inr (.inl rfl)
    | unloadRunning | unloadIdle => exact .inr (.inr rfl)
  · exact (still rfl).elim

/-! ### The frame -/

/-- A byte changes only if a transaction performed in this very step stores to it. -/
theorem Moves.read_other {s t : State} (h : Moves s t) (fits : s.evq.length ≤ s.cfg.evqDepth) {n : Nat}
    (other : ∀ e ∈ t.trace.drop s.trace.length, storesByte e.txn n = false) : t.mem.read n = s.mem.read n := by
  obtain ⟨es, -, trace, mem, -⟩ := h.events fits
  rw [trace, List.drop_left] at other
  rw [mem, read_storeEvents_other _ _ _ other]

/-- Settles O46: `completes_scheduler`, that only TICK moves PC, SP and REGS, and storage through the transactions performed. -/
theorem schedulerOperationsLeaveTheRestAlone : Obligations.SchedulerOperationsLeaveTheRestAlone := by
  unfold Obligations.SchedulerOperationsLeaveTheRestAlone
  intro i s t op fits run
  refine ⟨?_, ?_, fun n => (moves_exec run fits).read_other fits⟩
  · rcases exec_next run with done | ⟨-, rfl⟩
    · exact completes_scheduler done op
    · simp only [waiting_ctx, waiting_evq, waiting_mem, waiting_trace, waiting_toM, waiting_active, waiting_cycM, waiting_toC,
        waiting_hookOut, ite_self]
      rfl
  · intro notTick c hc
    rcases exec_next run with done | ⟨-, rfl⟩
    · cases done with
      | tick => exact absurd rfl notTick
      | step n =>
        rw [answer_ctx, synchronise_eq hc]
        exact ⟨_, rfl, rfl, rfl, rfl⟩
      | excq => exact ⟨c, hc, rfl, rfl, rfl⟩
      | cstep n => exact ⟨c, by rw [answer_ctx, advanceM_eq, hc], rfl, rfl, rfl⟩
      | _ => simp [Instr.op] at op
    · exact ⟨c, hc, rfl, rfl, rfl⟩

end Sys2Proof.Machine
end

section
/-!
PROOFS of the lifecycle's statements (42_lifecycle.md): the boot image and the boot vector (R192, R195), LOAD, POWER and UNLOAD
with what they leave alone (R191, R193, R194), the table of moves and the refusals (R190, R198), and tooling's request (R197).
-/

namespace Sys2Proof.Machine

/-! ### The boot image -/

/-- A cell by number (R192). -/
theorem joinBytes_num (hi lo : Byte) : BitVec.ofNat 16 (hi.toNat * 256 + lo.toNat) = joinBytes hi lo := by
  rw [← joinBytes_toNat, BitVec.ofNat_toNat, BitVec.setWidth_eq]

/-- Every cell joins its two bytes, where the stream goes on with zeros (R192). -/
theorem bootCellsFrom_getElem? {cells i : Nat} (h : i < cells) (bytes : List Byte) :
    (bootCellsFrom cells bytes)[i]? = some (joinBytes (bytes.getD (2 * i) 0) (bytes.getD (2 * i + 1) 0)) := by
  induction cells, bytes using bootCellsFrom.induct generalizing i with
  | case1 => omega
  | case2 n ih =>
    cases i with
    | zero => rfl
    | succ i => exact ih (by omega)
  | case3 n b ih =>
    cases i with
    | zero => rfl
    | succ i => exact ih (by omega)
  | case4 n b0 b1 rest ih =>
    cases i with
    | zero => rfl
    | succ i => exact ih (by omega)

/-- Settles O48: a cell joins its two bytes, and past the end of the stream both are zero. -/
theorem bootCellsFollowTheByteStream : Obligations.BootCellsFollowTheByteStream := by
  unfold Obligations.BootCellsFollowTheByteStream
  refine fun cells bytes => ⟨bootCellsFrom_length cells bytes, fun i hi => ?_⟩
  have beyond {k : Nat} (h : bytes.length ≤ k) : bytes.getD k 0 = 0 := List.getD_eq_default bytes 0 h
  rw [bootCellsFrom_getElem? hi, ← joinBytes_num]
  split_ifs with both half
  · rfl
  · rw [beyond half.ge, show (0 : Byte).toNat = 0 from rfl, Nat.add_zero]
  · rw [beyond (k := 2 * i) (by omega), beyond (k := 2 * i + 1) (by omega)]
    rfl

/-- The boot vector needs four cells (R61). -/
theorem bootVector_eq_none_iff (cells : List Word) : bootVector cells = none ↔ cells.length < 4 := by
  match cells with
  | [] | [_] | [_, _] | [_, _, _] => simp [bootVector]
  | _ :: _ :: _ :: _ :: _ => simp [bootVector]

theorem joinWords_joinBytes (b0 b1 b2 b3 : Byte) :
    joinWords (joinBytes b0 b1) (joinBytes b2 b3) = b0 ++ b1 ++ b2 ++ b3 :=
  (BitVec.append_assoc (x₁ := b0 ++ b1) (x₂ := b2) (x₃ := b3)).symm

/-- Four cells of a stream hold the boot vector, most significant byte first (R195). -/
theorem bootVector_bootCellsFrom {cells : Nat} (h : 4 ≤ cells) (b0 b1 b2 b3 b4 b5 b6 b7 : Byte) (more : List Byte) :
    bootVector (bootCellsFrom cells (b0 :: b1 :: b2 :: b3 :: b4 :: b5 :: b6 :: b7 :: more)) =
      some (b0 ++ b1 ++ b2 ++ b3, b4 ++ b5 ++ b6 ++ b7) := by
  obtain ⟨n, rfl⟩ := Nat.exists_eq_add_of_le' h
  rw [← joinWords_joinBytes, ← joinWords_joinBytes]
  rfl

/-- With no stream the boot vector is zero (R195). -/
theorem bootVector_bootCellsFrom_nil {cells : Nat} (h : 4 ≤ cells) : bootVector (bootCellsFrom cells []) = some (0, 0) := by
  obtain ⟨n, rfl⟩ := Nat.exists_eq_add_of_le' h
  rfl

/-! ### LOAD and POWER -/

/-- LOAD needs BOOT absent (R191, R198 a). -/
theorem exec_load_refused {s : State} {cells : List Word} (h : s.boot = some cells) (src : Option (List Byte)) :
    exec (.load src) s = .refused .loadWhileLoaded := by
  simp only [exec, execLoad, h]

/-- POWER needs BOOT present (R194, R198 b). -/
theorem exec_power_refused {s : State} (h : s.boot = none) (r : Bool) :
    exec (.power r) s = .refused .powerWhileUnloaded := by
  simp only [exec, execPower, h]

/-- Settles O47: LOAD's two cases. -/
theorem loadResult : Obligations.LoadResult := by
  unfold Obligations.LoadResult
  exact fun a d src s => ⟨decode_numbered (op := 0x8) (by omega) rfl a d src, fun absent => exec_completes (.load src absent),
    fun _ present => exec_load_refused present src⟩

/-- Settles O49: POWER's two cases, with what is posted performed and the boot vector in numbers. -/
theorem powerResult : Obligations.PowerResult := by
  unfold Obligations.PowerResult
  intro a d src s r
  have flag : d.getLsbD 0 = r := getLsbD_zero_eq d
  refine ⟨?_, fun c0 c1 c2 c3 more present => ?_, fun absent => exec_power_refused absent r⟩
  · rw [← flag]
    exact decode_numbered (op := 0xA) (by omega) rfl a d src
  · rw [exec_completes (.power r _ _ _ present rfl), drainAll_eq, joinWords_num, joinWords_num]

/-- POWER after LOAD starts the context at the boot vector of the loaded cells (R194, R195). -/
theorem power_after_load {s : State} (absent : s.boot = none) (src : Option (List Byte)) (r : Bool) {pc sp : Long}
    (vector : bootVector (bootCellsFrom s.cfg.bootCells (src.getD [])) = some (pc, sp)) :
    ∃ t u, exec (.load src) s = .next t ∧ exec (.power r) t = .next u ∧ u.ctx = some ⟨pc, sp, s.cfg.regsReset, 0⟩ :=
  ⟨_, _, exec_completes (.load src absent), exec_completes (.power r _ pc sp rfl vector), rfl⟩

/-- Settles O50: POWER after LOAD, with the boot vector of the stream. -/
theorem bootVectorComesFromTheByteStream : Obligations.BootVectorComesFromTheByteStream := by
  unfold Obligations.BootVectorComesFromTheByteStream
  exact fun s r absent four =>
    ⟨fun b0 b1 b2 b3 b4 b5 b6 b7 more =>
      power_after_load absent _ r (bootVector_bootCellsFrom four b0 b1 b2 b3 b4 b5 b6 b7 more),
    power_after_load absent none r (bootVector_bootCellsFrom_nil four)⟩

/-! ### UNLOAD -/

/-- The state after UNLOAD (R193). -/
def unloaded (s : State) : State :=
  { s with
    evq := []
    mem := storeAll s.cfg s.mem s.evq
    trace := s.trace ++ s.evq.map postedEvent
    hookAttached := false
    dbgNode := false
    boot := none
    ctx := if s.sched = .running then none else s.ctx
    sched := if s.sched = .running then .halted else s.sched
    rsp := .none }

theorem exec_unload (s : State) : exec .unload s = .next (unloaded s) := by
  by_cases running : s.sched = .running
  · rw [exec_completes (.unloadRunning running), drainAll_eq, unloaded, if_pos running, if_pos running]
  · rw [exec_completes (.unloadIdle running), drainAll_eq, unloaded, if_neg running, if_neg running]

theorem unloaded_sched_ne_running (s : State) : (unloaded s).sched ≠ .running := by
  simp only [unloaded]
  split_ifs with running
  · nofun
  · exact running

/-- Nothing is posted after UNLOAD and nothing runs, so a second one finds nothing to do (R193). -/
theorem unloaded_idem (s : State) : unloaded (unloaded s) = unloaded s := by
  have idle := unloaded_sched_ne_running s
  rw [unloaded, if_neg idle, if_neg idle]
  simp [unloaded, storeAll_nil]

/-- Settles O52: UNLOAD's one case, and that it is idempotent. -/
theorem unloadResult : Obligations.UnloadResult := by
  unfold Obligations.UnloadResult
  refine fun a d src s => ⟨decode_numbered (op := 0x9) (by omega) rfl a d src, unloaded s, exec_unload s, ?_, rfl⟩
  rw [exec_unload, unloaded_idem]

/-! ### The frame -/

/-- Performing what is posted changes only bytes that a posted write stores to (R216). -/
theorem read_drainAll_other {s : State} {n : Nat} (other : ∀ w ∈ s.evq, storesByte (postedTxn w) n = false) :
    (drainAll s).mem.read n = s.mem.read n := by
  rw [drainAll_eq]
  exact read_storeAll_other _ _ _ other

/-- Settles O53: LOAD touches no bus, and POWER and UNLOAD leave what performing the posted writes leaves. -/
theorem lifecycleOperationsLeaveTheRestAlone : Obligations.LifecycleOperationsLeaveTheRestAlone := by
  unfold Obligations.LifecycleOperationsLeaveTheRestAlone
  intro i s t op run
  have drained := progress_drainAll s
  have rest : (drainAll s).cfg = s.cfg ∧ (drainAll s).inputs = s.inputs ∧ (drainAll s).turns = s.turns ∧
      (drainAll s).hookOut = s.hookOut := ⟨drained.cfg, drained.inputs, drained.turns, drained.hookOut⟩
  rcases exec_next run with done | ⟨waits, -⟩
  · cases done with
    | load =>
      exact ⟨⟨rfl, rfl, rfl, rfl⟩, fun _ => ⟨rfl, rfl, rfl, rfl, rfl, rfl, rfl, rfl, fun _ => rfl⟩, nofun, nofun, fun _ _ => rfl⟩
    | power =>
      exact ⟨rest, nofun, fun _ => ⟨drained.boot, drained.dbgNode, drained.hookAttached⟩, nofun, fun _ => read_drainAll_other⟩
    | unloadRunning | unloadIdle =>
      exact ⟨rest, nofun, nofun, fun _ => ⟨drained.cycM, drained.active, drained.toC, drained.toM⟩, fun _ => read_drainAll_other⟩
    | _ => simp [Instr.op] at op
  · cases waits <;> simp [Instr.op] at op

/-! ### The table of moves and the refusals -/

/-- Settles O54: BOOT by `completes_boot`, SCHED by `completes_sched` where the operation is not the HOST's. -/
theorem lifecycleFollowsTheTable : Obligations.LifecycleFollowsTheTable := by
  unfold Obligations.LifecycleFollowsTheTable
  intro i s t run
  rcases exec_next run with done | ⟨waits, rfl⟩
  · have boot := completes_boot done
    have sched := completes_sched done
    cases done with
    | load => rfl
    | power r cells _ _ present =>
      have kept : bootAfter s (.power r) = some cells := present
      rw [boot, kept]
      rfl
    | unloadRunning running =>
      rw [if_pos running]
      rfl
    | unloadIdle idle =>
      rw [if_neg idle, ← (progress_drainAll s).sched]
      rfl
    | _ => rw [boot, sched (by simp [Instr.op])]; rfl
  · cases waits <;> rfl

/-- In the invariant a present BOOT holds a boot vector (R21, R61). -/
theorem State.Inv.bootVector_ne_none {s : State} (h : s.Inv) {cells : List Word} (present : s.boot = some cells) :
    bootVector cells ≠ none := by
  obtain ⟨-, -, four⟩ := (Config.wf_iff s.cfg).mp h.parameters
  rw [Ne, bootVector_eq_none_iff, h.bootLength cells present]
  omega

/-- In the invariant there is no session exactly while not Running (R20, R23). -/
theorem State.Inv.no_session_iff {s : State} (h : s.Inv) : s.sched ≠ .running ∨ s.ctx = none ↔ s.sched ≠ .running := by
  refine or_iff_left_of_imp fun none running => ?_
  obtain ⟨c, present⟩ := h.ctx_of_running running
  simp [none] at present

/-- Settles O55: of the refusals of `exec_refused` the invariant rules out the missing boot vector and the missing context. -/
theorem operationsOutsideTheSessionAreRefused : Obligations.OperationsOutsideTheSessionAreRefused := by
  unfold Obligations.OperationsOutsideTheSessionAreRefused
  intro i s r inv
  constructor
  · intro refused
    rcases exec_refused refused with ⟨src, cells, rfl, present, rfl⟩ | ⟨b, rfl, absent, rfl⟩ |
      ⟨b, cells, rfl, present, missing, rfl⟩ | ⟨rfl, none, rfl⟩ | ⟨n, rfl, none, rfl⟩
    · exact .inl ⟨rfl, by simp [present], rfl⟩
    · exact .inr (.inl ⟨rfl, absent, rfl⟩)
    · exact absurd missing (inv.bootVector_ne_none present)
    · exact .inr (.inr (.inl ⟨rfl, inv.no_session_iff.mp none, rfl⟩))
    · exact .inr (.inr (.inr ⟨rfl, inv.no_session_iff.mp none, rfl⟩))
  · rintro (⟨op, present, rfl⟩ | ⟨op, absent, rfl⟩ | ⟨op, idle, rfl⟩ | ⟨op, idle, rfl⟩)
    · obtain ⟨cells, present⟩ := Option.ne_none_iff_exists'.mp present
      cases i with
      | load src => exact exec_load_refused present src
      | _ => cases op
    · cases i with
      | power b => exact exec_power_refused absent b
      | _ => cases op
    · cases i with
      | tick => exact exec_tick_refused (.inl idle)
      | _ => cases op
    · cases i with
      | step n => exact exec_step_refused (.inl idle) n
      | _ => cases op

/-! ### Tooling -/

/-- Settles O57: the turn takes the request, and setting the hook completes. -/
theorem toolingAttachesTheHook : Obligations.ToolingAttachesTheHook := by
  unfold Obligations.ToolingAttachesTheHook
  intro s later attach rest turn first
  have taken : step s = settle rest (.next (setHook attach { s with turns := later })) := by
    simp only [step, turn, takeTurn, agentTurn, first, carryOut]
  rw [taken, settle_took_step (by simp)]
  rfl

end Sys2Proof.Machine
end

section
/-!
PROOFS of the posted-event FIFO's statements (43_event_sequencing.md): `IssueWrite` (R213), DRAIN (R215), what the synchronising
operations perform (R214, R216, R217 b), and the order of issue (R217 a, d).
-/

namespace Sys2Proof.Machine

/-! ### `IssueWrite` and DRAIN -/

/-- Settles O23: the three cases are the laws of `issueWrite`. -/
theorem issueWriteResult : Obligations.IssueWriteResult := by
  unfold Obligations.IssueWriteResult
  exact fun w s => ⟨fun unbuffered => issueWrite_direct unbuffered w, fun fifo room => issueWrite_room fifo room w,
    fun _ _ _ full oldest => issueWrite_full oldest full w⟩

/-- The turn of agent Q (R215). -/
theorem step_drain {s : State} {later : List Turn} (turn : s.turns = .drain :: later) :
    step s = .next (drainOne { s with turns := later }) := by
  simp only [step, turn, takeTurn]

/-- Settles O24: the turn is `drainOne`, on an empty FIFO and on one with an oldest entry. -/
theorem drainPerformsTheOldest : Obligations.DrainPerformsTheOldest := by
  unfold Obligations.DrainPerformsTheOldest
  intro s later turn
  rw [step_drain turn]
  refine ⟨fun empty => ?_, fun h rest oldest => ?_⟩
  · rw [drainOne_nil (s := { s with turns := later }) empty]
  · rw [drainOne_cons (s := { s with turns := later }) oldest]

/-! ### What an operation issues -/

theorem issuedByC_congr {s t : State} (evq : t.evq = s.evq) (trace : t.trace = s.trace) : issuedByC t = issuedByC s := by
  rw [issuedByC, issuedByC, performedByC, performedByC, evq, trace]

/-- An operation other than TICK issues its own writes and nothing else. Only a write needs the FIFO to fit its depth. -/
theorem completes_issued {i : Instr} {s t : State} (h : Completes s i t) (notTick : i ≠ .tick)
    (fits : writesOf i ≠ [] → s.evq.length ≤ s.cfg.evqDepth) :
    issuedByC t = issuedByC s ++ (writesOf i).map postedTxn := by
  have drained : issuedByC (drainAll s) = issuedByC s ++ [] := (progress_drainAll s).issued
  have kept : issuedByC s = issuedByC s ++ [] := (List.append_nil _).symm
  cases h with
  | rdb a => exact (progress_readByte a s).issued
  | rdw a => exact (progress_readWord a s).issued
  | rdl a => exact (progress_readLong a s).issued
  | wrb a v => exact (progress_writeByte a v (fits nofun)).issued
  | wrw a v => exact (progress_writeWord a v (fits nofun)).issued
  | wrl a v => exact (progress_writeLong a v (fits nofun)).issued
  | load | excq => exact kept
  | unloadRunning | unloadIdle | power => exact drained
  | tick => exact absurd rfl notTick
  | step n c _ ctx =>
    have same : issuedByC (synchronise n.toNat s) = issuedByC (drainAll s) :=
      issuedByC_congr (by rw [synchronise_eq ctx, drainAll_eq]) (by rw [synchronise_eq ctx, drainAll_eq])
    exact same.trans drained
  | cstep n =>
    rw [advanceM_eq]
    exact kept

/-- TICK issues what its instruction issues: the hook touches no bus, and the synchronisation performs what is posted (R164). -/
theorem tickWith_issued (p : Prog) (c : Ctx) (s : State) : issuedByC (tickWith p c s) = issuedByC (runProg p s).1 := by
  obtain ⟨q, m, tr, f, ran, after⟩ := tickWith_eq p c s
  have shown : SameBus s (notifyHook c s) := by
    rw [notifyHook_eq]
    exact ⟨rfl, rfl, rfl, rfl, rfl, rfl⟩
  obtain ⟨same, -⟩ := shown.runProg p
  rw [ran] at same
  rw [← issuedByC_congr same.evq same.trace, after]
  simp only [issuedByC, performedByC, writesOfC_append, writesOfC_posted, List.map_nil, List.append_nil]

/-! ### The synchronising operations -/

theorem issueRead_evq (u l : Bool) (a : Addr) (s : State) : (issueRead u l a s).1.evq = [] := by rw [issueRead_eq]

/-- The operations that read or synchronise end with `DrainAll` or after it (R214, R216). -/
theorem completes_empties_fifo {i : Instr} {s t : State} (h : Completes s i t)
    (hi : i.op ∈ [Op.rdb, .rdw, .rdl, .tick, .step, .power, .unload]) : t.evq = [] := by
  have drained : (drainAll s).evq = [] := by rw [drainAll_eq]
  cases h with
  | rdb a => exact issueRead_evq (upperSelect a) (lowerSelect a) (cellAddr a) s
  | rdw a => exact issueRead_evq true true (cellAddr a) s
  | rdl a => exact issueRead_evq true true (groupAddr2 a) (issueRead true true (groupAddr a) s).1
  | unloadRunning | unloadIdle | power => exact drained
  | tick c =>
    obtain ⟨_, _, _, _, -, after⟩ := tickWith_eq (Config.execUnit c.pc c.sp c.regs) c s
    rw [answer_evq, after]
  | step n c _ ctx => rw [answer_evq, synchronise_eq ctx]
  | _ => simp [Instr.op] at hi

theorem writesOf_of_synchronising {i : Instr} (hi : i.op ∈ [Op.rdb, .rdw, .rdl, .tick, .step, .power, .unload]) :
    writesOf i = [] := by
  cases i with
  | wrb | wrw | wrl => simp [Instr.op] at hi
  | _ => rfl

/-- Settles O25: with the FIFO empty what is performed is what is issued, and these operations issue nothing of their own. -/
theorem synchronisingOperationsEmptyTheFifo : Obligations.SynchronisingOperationsEmptyTheFifo := by
  unfold Obligations.SynchronisingOperationsEmptyTheFifo
  intro i s t hi run took
  have done : Completes s i t := exec_took_step run took
  have empty : t.evq = [] := completes_empties_fifo done hi
  have no_writes : writesOf i = [] := writesOf_of_synchronising hi
  refine ⟨empty, fun notTick => ?_⟩
  rw [performedByC_of_empty empty, completes_issued done notTick (absurd no_writes), no_writes, List.map_nil, List.append_nil]

/-! ### The order of issue -/

/-- A turn that takes no command issues nothing: a DRAIN performs what is posted, and the companion's writes are not C's. -/
theorem goes_issued {s t : State} (h : Goes s t)
    (noCommand : ∀ a later, s.turns = .agent a :: later → ∀ c rest, takeFirst a s.inputs ≠ some (.command c, rest)) :
    issuedByC t = issuedByC s := by
  cases h with
  | drain later => exact issuedByC_drainOne { s with turns := later }
  | command a later c rest _ _ turn first => exact absurd first (noCommand a later turn c rest)
  | companionWrite | companionRead => simp [issuedByC, performedByC, writesOfC_append]
  | noTurn | deliverToC | deliverToM | nothingAsked | companionWaits | hook => rfl

/-- Settles O26: what each operation and each other turn issues, and that moves on the bus compose along the run. -/
theorem issueOrderIsKept : Obligations.IssueOrderIsKept := by
  unfold Obligations.IssueOrderIsKept
  refine ⟨fun i s t fits run notTick => ?_, fun s t c _ ctx run => ?_, fun s t noCommand run => ?_, fun k s t fits run => ?_⟩
  · rcases exec_next run with done | ⟨-, rfl⟩
    · rw [if_neg (completes_rsp done)]
      exact completes_issued done notTick fun _ => fits
    · simp [issuedByC, performedByC]
  · rcases exec_next run with done | ⟨-, rfl⟩
    · rw [if_neg (completes_rsp done)]
      cases done with
      | tick c' _ ctx' =>
        obtain rfl : c = c' := Option.some.inj (ctx.symm.trans ctx')
        exact tickWith_issued _ c s
    · rfl
  · exact goes_issued (step_next run) noCommand
  · have moves : Moves s t := moves_runs run fits
    exact ⟨moves.issued_prefix fits, moves.performed_prefix fits, List.prefix_append _ _⟩

end Sys2Proof.Machine
end

section
/-!
PROOFS that compare the machine with itself (43_event_sequencing.md): with any depth of the FIFO and with none (R217 c), and under
the clock views and with exact ones, with what the channels of the views do (R218, R219).
-/

namespace Sys2Proof.Machine

/-! ### Any depth and none -/

theorem enabledC_direct (s : State) : enabledC (direct s) = enabledC s := by
  rw [direct_eq]
  rfl

theorem enabledM_direct (s : State) : enabledM (direct s) = enabledM s := by
  rw [direct_eq]
  rfl

/-- The direct implementation has the same session and boot image: it has only performed more of the writes. -/
theorem direct_session (s : State) : (direct s).boot = s.boot ∧ (direct s).sched = s.sched ∧ (direct s).ctx = s.ctx := by
  rw [direct_eq]
  exact ⟨rfl, rfl, rfl⟩

/-- An operation that takes its step takes it in the direct implementation too (R217 c). -/
theorem completes_direct {i : Instr} {s t : State} (h : Completes s i t) (fits : s.evq.length ≤ s.cfg.evqDepth) :
    Completes (direct s) i (direct t) := by
  obtain ⟨boot, sched, ctx⟩ := direct_session s
  have enC (en : enabledC s = true) : enabledC (direct s) = true := (enabledC_direct s).trans en
  have reach {u : State} (done : Completes (direct s) i u) (same : u = direct t) : Completes (direct s) i (direct t) :=
    same ▸ done
  have read (w : Width) (a : Addr) (answer : BitVec w.bits → Response) :
      (memRead w a (direct s)).1.answer (answer (memRead w a (direct s)).2) =
        direct ((memRead w a s).1.answer (answer (memRead w a s).2)) := by rw [memRead_direct_state, answer_direct]
  have ends {u u' : State} (same : u' = direct u) : u'.answer .none = direct (u.answer .none) := by
    rw [same, answer_direct]
  have drained : drainAll (direct s) = direct (drainAll s) := (direct_drainAll s).trans (direct_drainAll' s).symm
  cases h with
  | rdb a en => exact reach (.rdb a (enC en)) (read .byte a .byte)
  | rdw a en => exact reach (.rdw a (enC en)) (read .word a .word)
  | rdl a en => exact reach (.rdl a (enC en)) (read .long a .long)
  | wrb a v en => exact reach (.wrb a v (enC en)) (ends (issueWrite_direct_state _ fits))
  | wrw a v en => exact reach (.wrw a v (enC en)) (ends (issueWrite_direct_state _ fits))
  | wrl a v en => exact reach (.wrl a v (enC en)) (ends (writeLong_direct_state a v fits))
  | load src absent => exact reach (.load src (boot.trans absent)) (by rw [direct_eq, direct_eq])
  | unloadRunning hr => exact reach (.unloadRunning (sched.trans hr)) (by rw [drained, direct_eq, direct_eq])
  | unloadIdle hn => exact reach (.unloadIdle (sched ▸ hn)) (by rw [drained, direct_eq, direct_eq])
  | power r cells pc sp present vector =>
    exact reach (.power r cells pc sp (boot.trans present) vector) (by rw [drained, direct_eq, direct_eq, direct_eq]; rfl)
  | tick c hr hc en => exact reach (.tick c (sched.trans hr) (ctx.trans hc) (enC en)) (ends (tickWith_direct fits))
  | step n c hr hc en => exact reach (.step n c (sched.trans hr) (ctx.trans hc) (enC en)) (ends (synchronise_direct hc _))
  | excq => exact reach .excq (answer_direct _ s)
  | cstep n en => exact reach (.cstep n ((enabledM_direct s).trans en)) (ends (advanceM_direct _ s))

/-- Waiting depends on the session and on who may step alone (R160). -/
theorem waits_congr {i : Instr} {s s' : State} (sched : s'.sched = s.sched) (ctx : s'.ctx = s.ctx)
    (enC : enabledC s' = enabledC s) (enM : enabledM s' = enabledM s) (h : Waits s i) : Waits s' i := by
  cases h with
  | rdb a en => exact .rdb a (enC.trans en)
  | rdw a en => exact .rdw a (enC.trans en)
  | rdl a en => exact .rdl a (enC.trans en)
  | wrb a v en => exact .wrb a v (enC.trans en)
  | wrw a v en => exact .wrw a v (enC.trans en)
  | wrl a v en => exact .wrl a v (enC.trans en)
  | tick c hr hc en => exact .tick c (sched.trans hr) (ctx.trans hc) (enC.trans en)
  | step n c hr hc en => exact .step n c (sched.trans hr) (ctx.trans hc) (enC.trans en)
  | cstep n en => exact .cstep n (enM.trans en)

/-- Settles O27: the direct implementation completes, waits and refuses where the one with a FIFO does. -/
theorem fifoDepthIsInvisibleToTheCoprocessor : Obligations.FifoDepthIsInvisibleToTheCoprocessor := by
  unfold Obligations.FifoDepthIsInvisibleToTheCoprocessor
  intro i s fits
  obtain ⟨boot, sched, ctx⟩ := direct_session s
  cases run : exec i s with
  | next t =>
    rcases exec_next run with done | ⟨wait, rfl⟩
    · exact exec_completes (completes_direct done fits)
    · rw [exec_waits (waits_congr sched ctx (enabledC_direct s) (enabledM_direct s) wait), waiting_direct]
      rfl
  | fault r => exact nomatch r
  | refused r => exact exec_refused_congr boot sched ctx run

/-! ### Clock views and exact views -/

theorem sameBus_exactViews (s : State) : SameBus s (exactViews s) := ⟨rfl, rfl, rfl, rfl, rfl, rfl⟩

/-- Two states that differ in the views alone, after the same moves on the bus, still differ in the views alone. -/
theorem BusOnly.exactViews_eq {s t t' : State} (h : BusOnly s t) (h' : BusOnly (exactViews s) t') (same : SameBus t t') :
    t' = exactViews t := by
  unfold BusOnly at h h'
  rw [h', same.evq, same.mem, same.trace, h]
  rfl

theorem drainAll_exactViews (s : State) : drainAll (exactViews s) = exactViews (drainAll s) :=
  (progress_drainAll s).frame.exactViews_eq (progress_drainAll _).frame (sameBus_exactViews s).drainAll

theorem memRead_exactViews (w : Width) (a : Addr) (s : State) :
    memRead w a (exactViews s) = (exactViews (memRead w a s).1, (memRead w a s).2) := by
  obtain ⟨same, answer⟩ := (sameBus_exactViews s).memRead w a
  exact Prod.ext ((progress_memRead w a s).frame.exactViews_eq (progress_memRead w a _).frame same) answer

theorem memWrite_exactViews (w : Width) (a : Addr) (v : Long) (s : State) :
    memWrite w a v (exactViews s) = exactViews (memWrite w a v s) :=
  (busOnly_memWrite w a v s).exactViews_eq (busOnly_memWrite w a v _) ((sameBus_exactViews s).memWrite w a v)

theorem issueWrite_exactViews (w : Posted) (s : State) : issueWrite w (exactViews s) = exactViews (issueWrite w s) :=
  (busOnly_issueWrite w s).exactViews_eq (busOnly_issueWrite w _) ((sameBus_exactViews s).issueWrite w)

theorem runProg_exactViews (p : Prog) (s : State) :
    runProg p (exactViews s) = (exactViews (runProg p s).1, (runProg p s).2) := by
  obtain ⟨same, final⟩ := (sameBus_exactViews s).runProg p
  exact Prod.ext ((busOnly_runProg p s).exactViews_eq (busOnly_runProg p _) same) final

/-- With exact views an advance sends no event (R219). -/
theorem exactViews_link (n t : Nat) :
    (if n = 0 then ⟨0, []⟩ else SyncLink.send 0 t ⟨0, []⟩) = (⟨0, []⟩ : SyncLink) := by
  rw [SyncLink.send_exact, ite_self]

/-- The hand-over looks at the true times under both views (R172). -/
theorem synchronise_exactViews {s : State} {c : Ctx} (hc : s.ctx = some c) (n : Nat) :
    synchronise n (exactViews s) = exactViews (synchronise n s) := by
  rw [synchronise_eq hc, synchronise_eq (s := exactViews s) hc]
  simp only [exactViews, exactViews_link]
  rfl

theorem advanceM_exactViews (n : Nat) (s : State) : advanceM n (exactViews s) = exactViews (advanceM n s) := by
  rw [advanceM_eq, advanceM_eq]
  simp only [exactViews, exactViews_link]
  rfl

theorem notifyHook_exactViews (c : Ctx) (s : State) : notifyHook c (exactViews s) = exactViews (notifyHook c s) := by
  rw [notifyHook_eq, notifyHook_eq]
  rfl

theorem tickWith_exactViews (p : Prog) (c : Ctx) (s : State) :
    tickWith p c (exactViews s) = exactViews (tickWith p c s) := by
  simp only [tickWith, notifyHook_exactViews, runProg_exactViews]
  exact synchronise_exactViews (s := { (runProg p (notifyHook c s)).1 with ctx := some _ }) rfl 1

/-- A companion blocked by the true times may not step (R167, R219). -/
theorem State.Inv.not_enabledM_of_blockedM {s : State} (h : s.Inv) (blocked : blockedM s = true) : enabledM s = false := by
  have running : s.sched = .running := ((blockedM_iff s).mp blocked).1
  rw [enabledM, blockedM_waits (h.viewOfC_le running) blocked]
  rfl

/-- Where C may step under its view it may step with exact views: the view is not ahead of the truth (R219). -/
theorem State.Inv.enabledC_exactViews {s : State} (h : s.Inv) (en : enabledC s = true) : enabledC (exactViews s) = true := by
  obtain ⟨-, run⟩ := (enabledC_iff s).mp en
  have free : blockedC s = false := by
    by_contra blocked
    simp [h.not_enabledC_of_blockedC (Bool.of_not_eq_false blocked)] at en
  exact (enabledC_iff _).mpr ⟨(waitsC_exact (s := exactViews s) rfl).trans free, run⟩

/-- Where M may step under its view it may step with exact views (R219). -/
theorem State.Inv.enabledM_exactViews {s : State} (h : s.Inv) (en : enabledM s = true) : enabledM (exactViews s) = true := by
  obtain ⟨-, run⟩ := (enabledM_iff s).mp en
  have free : blockedM s = false := by
    by_contra blocked
    simp [h.not_enabledM_of_blockedM (Bool.of_not_eq_false blocked)] at en
  exact (enabledM_iff _).mpr ⟨(waitsM_exact (s := exactViews s) rfl).trans free, run⟩

/-- An operation that takes its step under the clock views takes it with exact views too (R219). -/
theorem completes_exactViews {i : Instr} {s t : State} (inv : s.Inv) (h : Completes s i t) :
    Completes (exactViews s) i (exactViews t) := by
  have enC (en : enabledC s = true) : enabledC (exactViews s) = true := inv.enabledC_exactViews en
  have reach {u : State} (done : Completes (exactViews s) i u) (same : u = exactViews t) :
      Completes (exactViews s) i (exactViews t) := same ▸ done
  have read (w : Width) (a : Addr) (answer : BitVec w.bits → Response) :
      (memRead w a (exactViews s)).1.answer (answer (memRead w a (exactViews s)).2) =
        exactViews ((memRead w a s).1.answer (answer (memRead w a s).2)) := by rw [memRead_exactViews]; rfl
  have ends {u u' : State} (same : u' = exactViews u) : u'.answer .none = exactViews (u.answer .none) := by rw [same]; rfl
  have drained := drainAll_exactViews s
  cases h with
  | rdb a en => exact reach (.rdb a (enC en)) (read .byte a .byte)
  | rdw a en => exact reach (.rdw a (enC en)) (read .word a .word)
  | rdl a en => exact reach (.rdl a (enC en)) (read .long a .long)
  | wrb a v en => exact reach (.wrb a v (enC en)) (ends (issueWrite_exactViews _ s))
  | wrw a v en => exact reach (.wrw a v (enC en)) (ends (issueWrite_exactViews _ s))
  | wrl a v en => exact reach (.wrl a v (enC en)) (ends (memWrite_exactViews .long a v s))
  | load src absent => exact .load src absent
  | unloadRunning hr => exact reach (.unloadRunning hr) (by rw [drained]; rfl)
  | unloadIdle hn => exact reach (.unloadIdle hn) (by rw [drained]; rfl)
  | power r cells pc sp present vector => exact reach (.power r cells pc sp present vector) (by rw [drained]; rfl)
  | tick c hr hc en => exact reach (.tick c hr hc (enC en)) (ends (tickWith_exactViews _ c s))
  | step n c hr hc en => exact reach (.step n c hr hc (enC en)) (ends (synchronise_exactViews hc _))
  | excq => exact .excq
  | cstep n en => exact reach (.cstep n (inv.enabledM_exactViews en)) (ends (advanceM_exactViews _ s))

/-- Settles O44: a step taken is taken with exact views, and a refusal looks at no clock. -/
theorem clockViewsRefineTheNormativeModel : Obligations.ClockViewsRefineTheNormativeModel := by
  unfold Obligations.ClockViewsRefineTheNormativeModel
  intro i s inv
  refine ⟨fun t run took => ?_, fun r run => exec_refused_congr (s := s) rfl rfl rfl run⟩
  exact exec_completes (completes_exactViews inv (exec_took_step run took))

/-! ### The channels -/

/-- The oldest event on its way is not behind the view, and not ahead of the truth (R219). -/
theorem SyncLink.Ok.oldest {depth now e : Nat} {k : SyncLink} {rest : List Nat} (h : k.Ok depth now) (hc : k.chan = e :: rest) :
    max k.view e = e ∧ e ≤ now := by
  have waiting : e ∈ k.chan := by simp [hc]
  exact ⟨max_eq_right (List.rel_of_pairwise_cons h.inOrder waiting), h.notAhead e (List.mem_cons_of_mem _ waiting)⟩

theorem step_deliverToC {s : State} {later : List Turn} (turn : s.turns = .deliverToC :: later) :
    step s = .next { s with turns := later, toC := s.toC.deliver } := by
  simp only [step, turn, takeTurn]
  rfl

theorem step_deliverToM {s : State} {later : List Turn} (turn : s.turns = .deliverToM :: later) :
    step s = .next { s with turns := later, toM := s.toM.deliver } := by
  simp only [step, turn, takeTurn]
  rfl

/-- Settles O45: the laws of `send` and `deliver`, and that the events of a link that is right are in order and true. -/
theorem deliveryRaisesTheViews : Obligations.DeliveryRaisesTheViews := by
  unfold Obligations.DeliveryRaisesTheViews
  refine ⟨fun depth now k => ⟨?_, fun carries room => SyncLink.send_room carries room now,
      fun e rest full oldest => SyncLink.send_full full oldest now⟩,
    fun s later turn => ⟨fun empty => ?_, fun e rest oldest => ⟨?_, fun inv => inv.viewOfCompanion.oldest oldest⟩⟩,
    fun s later turn => ⟨fun empty => ?_, fun e rest oldest =>
      ⟨?_, fun inv running => (inv.viewOfCoprocessor running).oldest oldest⟩⟩⟩
  · rintro rfl
    exact SyncLink.send_exact now k
  · rw [step_deliverToC turn, SyncLink.deliver_empty empty]
  · rw [step_deliverToC turn, SyncLink.deliver_cons oldest]
  · rw [step_deliverToM turn, SyncLink.deliver_empty empty]
  · rw [step_deliverToM turn, SyncLink.deliver_cons oldest]

end Sys2Proof.Machine
end

section
/-!
PROOFS of the reset statements (70_reset_and_hazards.md): POWER twice (R196, R273), the column after hardware reset (R270, R271),
and the invariant right after reset (R6, R270).
-/

namespace Sys2Proof.Machine

/-! ### POWER twice -/

/-- The state after POWER from a boot vector (R194). -/
def powered (pc sp : Long) (s : State) : State :=
  { drainAll s with
    sched := .running
    ctx := some ⟨pc, sp, s.cfg.regsReset, 0⟩
    cycM := 0
    active := firstActive s.cfg
    toC := ⟨0, []⟩
    toM := ⟨0, []⟩
    rsp := .none }

/-- POWER has a next state exactly where BOOT holds a boot vector, and the flag has no part in it (R194, R196). -/
theorem exec_power_next_iff {r : Bool} {s t : State} :
    exec (.power r) s = .next t ↔
      ∃ cells pc sp, s.boot = some cells ∧ bootVector cells = some (pc, sp) ∧ t = powered pc sp s := by
  constructor
  · intro run
    rcases exec_next run with done | ⟨waits, -⟩
    · cases done with
      | power _ cells pc sp present vector => exact ⟨cells, pc, sp, present, vector, rfl⟩
    · cases waits
  · rintro ⟨cells, pc, sp, present, vector, rfl⟩
    exact exec_completes (.power r cells pc sp present vector)

@[simp] theorem powered_evq (pc sp : Long) (s : State) : (powered pc sp s).evq = [] := by
  rw [powered, drainAll_eq]

@[simp] theorem powered_boot (pc sp : Long) (s : State) : (powered pc sp s).boot = s.boot := by
  rw [powered, drainAll_eq]

/-- Nothing is posted after POWER, so a second one from the same boot vector sets again what is set (R273). -/
theorem powered_idem (pc sp : Long) (s : State) : powered pc sp (powered pc sp s) = powered pc sp s := by
  rw [powered, drainAll_of_empty (powered_evq pc sp s), powered, drainAll_eq]

/-- Settles O51: the second POWER finds the same boot vector, and either flag gives the same state. -/
theorem powerIsIdempotent : Obligations.PowerIsIdempotent := by
  unfold Obligations.PowerIsIdempotent
  intro s t r r' run
  obtain ⟨cells, pc, sp, present, vector, rfl⟩ := exec_power_next_iff.mp run
  have kept : (powered pc sp s).boot = some cells := by rw [powered_boot, present]
  exact ⟨exec_power_next_iff.mpr ⟨cells, pc, sp, kept, vector, (powered_idem pc sp s).symm⟩,
    exec_power_next_iff.mpr ⟨cells, pc, sp, present, vector, rfl⟩⟩

/-! ### After hardware reset -/

/-- Nobody is blocked or waits after reset, since nothing runs (R31, R270). -/
theorem resetWith_blocked (cfg : Config) :
    blockedC (State.resetWith cfg) = false ∧ blockedM (State.resetWith cfg) = false ∧
      waitsC (State.resetWith cfg) = false ∧ waitsM (State.resetWith cfg) = false :=
  notRunning_blocked (s := State.resetWith cfg) nofun

/-- Settles O58: nobody is blocked by `resetWith_blocked`; every other entry of the column is a field of the reset state. -/
theorem resetState : Obligations.ResetState := by
  unfold Obligations.ResetState
  refine ⟨rfl, fun cfg => ?_⟩
  obtain ⟨freeC, freeM, -, -⟩ := resetWith_blocked cfg
  exact ⟨rfl, rfl, rfl, rfl, freeC, freeM, rfl, rfl, rfl, rfl, rfl, Memory.read_nil⟩

/-- The parameters of R6's defaults, with any positive frequencies, are legal. -/
theorem Config.machine_wf : Config.machine.wf = true :=
  (Config.wf_iff _).mpr ⟨Nat.succ_pos _, Nat.succ_pos _, show 4 ≤ 1024 by decide⟩

/-- Only the legality of the parameters is assumed: right after reset nothing is stored, posted, loaded or running, and C's view
of the companion starts with the companion's clock at zero. -/
theorem inv_resetWith {cfg : Config} (legal : cfg.wf = true) : (State.resetWith cfg).Inv := by
  obtain ⟨freeC, freeM, -, -⟩ := resetWith_blocked cfg
  have start : timeM (State.resetWith cfg) = 0 := Nat.zero_mul _
  exact
  { parameters := legal
    memory := rfl
    context := rfl
    runningLoaded := nofun
    haltedUnloaded := nofun
    bootLength := nofun
    debugNode := rfl
    fifoFits := Nat.zero_le _
    fifoEntries := nofun
    waitingDrained := fun _ => rfl
    activeExists := rfl
    activeNotBlocked := ⟨fun _ => freeC, fun _ => freeM⟩
    viewOfCompanion := start ▸ SyncLink.Ok.start cfg.syncDepth
    viewOfCoprocessor := nofun
    transactions := nofun
    lanes := nofun }

/-- Settles O59: the base case `inv_resetWith`, for the machine's own parameters too. -/
theorem invariantHoldsAtReset : Obligations.InvariantHoldsAtReset := by
  unfold Obligations.InvariantHoldsAtReset
  exact ⟨inv_resetWith Config.machine_wf, fun _ => inv_resetWith⟩

end Sys2Proof.Machine
end
